-- ==== Sys2Proof/Word.lean ====
section
/-! DEFINITION. The request word, the seven logical signals and one value per signal, the ten names of the command table,
and the operations of the block by name. -/

namespace Sys2Proof

/-- A request to the block is one 16-bit word `q[15:0]` (30_encoding.md R70). -/
abbrev Word := BitVec 16

/-- A CommandWord, or a session identifier: 8 bits (00_scope.md R9, 30_encoding.md R77). -/
abbrev Byte := BitVec 8

/-- The seven logical signals (00_scope.md R10, 10_state.md R21). -/
inductive Sig where
  | rs | rw | e | db4 | db5 | db6 | db7
deriving DecidableEq, Repr

/-- One value for each of the seven signals. -/
structure PerSig (α : Type) where
  rs : α
  rw : α
  e : α
  db4 : α
  db5 : α
  db6 : α
  db7 : α
deriving DecidableEq, Repr

/-- The value a signal has. -/
def PerSig.get {α : Type} (p : PerSig α) : Sig → α
  | .rs => p.rs
  | .rw => p.rw
  | .e => p.e
  | .db4 => p.db4
  | .db5 => p.db5
  | .db6 => p.db6
  | .db7 => p.db7

/-- Give one signal a new value. -/
def PerSig.set {α : Type} (p : PerSig α) (s : Sig) (v : α) : PerSig α :=
  match s with
  | .rs => { p with rs := v }
  | .rw => { p with rw := v }
  | .e => { p with e := v }
  | .db4 => { p with db4 := v }
  | .db5 => { p with db5 := v }
  | .db6 => { p with db6 := v }
  | .db7 => { p with db7 := v }

/-- One value per signal, from a function of the signal. -/
def PerSig.of {α : Type} (f : Sig → α) : PerSig α :=
  { rs := f .rs, rw := f .rw, e := f .e, db4 := f .db4, db5 := f .db5, db6 := f .db6, db7 := f .db7 }

/-- The ten names of the read-only command table (20_memory.md R53, 42_init_sequencer.md R132). -/
inductive CmdName where
  | reset | startup1 | startup2 | functionset | displayoff | clear | entrymode | displayon | home | char
deriving DecidableEq, Repr

/-- The fourteen operations of the opcode map (30_encoding.md R79), as the `op` of a sequencer position
(10_state.md R35). -/
inductive Op where
  | acquire | release | setlevel | transmit | delayUs | delayMs | lock | unlock | initRun
  | evLoad | evUnload | evOpen | evClose | evControl
deriving DecidableEq, Repr

/-- Why a request word decodes to no operation (30_encoding.md R81). -/
inductive Reserved where
  /-- opcode 0x0 or 0xF -/
  | op
  /-- a must-be-zero bit is 1 -/
  | mbz
  /-- SETLEVEL with `sig = 7` -/
  | sig7
deriving DecidableEq, Repr

end Sys2Proof
end

