-- ==== Sys2Proof/Syntax.lean ====
section
/-! DEFINITION. The instructions: one constructor per row of the opcode table, the two reserved rows among them. -/

namespace Sys2Proof

/-- A request, with the operand fields of its format (30_encoding.md R71, R79). EV_CONTROL's host argument is not
encoded in the word (R78): it stands in the pending request, not here. -/
inductive Instr where
  /-- ACQUIRE, format M: `mask[i] = 1` selects the signal of index i. -/
  | acquire (mask : BitVec 7)
  /-- RELEASE, format M. -/
  | release (mask : BitVec 7)
  /-- SETLEVEL, format S: a signal of index 0..6 and the level to drive. -/
  | setlevel (sig : Sig) (lv : Bool)
  /-- TRANSMIT, format W: the CommandWord. -/
  | transmit (w : Byte)
  /-- DELAY_US, format N: a count of microseconds. -/
  | delayUs (n : BitVec 12)
  /-- DELAY_MS, format N: a count of milliseconds. -/
  | delayMs (n : BitVec 12)
  /-- LOCK, format A. -/
  | lock
  /-- UNLOCK, format A. -/
  | unlock
  /-- INIT_RUN, format A. -/
  | initRun
  /-- EV_LOAD, format A. -/
  | evLoad
  /-- EV_UNLOAD, format A. -/
  | evUnload
  /-- EV_OPEN, format I: the session identifier. -/
  | evOpen (sid : Byte)
  /-- EV_CLOSE, format I. -/
  | evClose (sid : Byte)
  /-- EV_CONTROL, format I. -/
  | evControl (sid : Byte)
  /-- The reserved row of opcode 0x0, with the twelve bits under the opcode (R84). -/
  | reserved0 (low : BitVec 12)
  /-- The reserved row of opcode 0xF (R84). -/
  | reservedF (low : BitVec 12)
deriving DecidableEq, Repr

end Sys2Proof
end

