-- ==== Sys2Proof/Config.lean ====
section
/-! DEFINITION. The parameters the spec gives the block (00_scope.md R8) as one record of plain data, the opaque
constants that stand for what the spec leaves OPEN, and the opaque free values of the environment. -/

namespace Sys2Proof

/-- What releasing a line the block does not own does (40_pin_controller.md R95). -/
inductive ReleaseUnowned where
  | fault | noop
deriving DecidableEq, Repr

/-- When session close releases the lines (43_session_lifecycle.md R160, R162). -/
inductive ClosePolicy where
  | reference | refcount | shutdownOnly
deriving DecidableEq, Repr

/-- The ten CommandWords of the command table (42_init_sequencer.md R132). -/
structure Rom where
  reset : Byte
  startup1 : Byte
  startup2 : Byte
  functionset : Byte
  displayoff : Byte
  clear : Byte
  entrymode : Byte
  displayon : Byte
  home : Byte
  char : Byte
deriving DecidableEq, Repr

/-- `Rom(name)` (20_memory.md R53). -/
def Rom.get (r : Rom) : CmdName → Byte
  | .reset => r.reset
  | .startup1 => r.startup1
  | .startup2 => r.startup2
  | .functionset => r.functionset
  | .displayoff => r.displayoff
  | .clear => r.clear
  | .entrymode => r.entrymode
  | .displayon => r.displayon
  | .home => r.home
  | .char => r.char

/-- The launch configuration (00_scope.md R8, 70_reset_and_hazards.md R199): fixed before reset, written by no step.
Times are in nanoseconds (00_scope.md R12). -/
structure Params where
  /-- `PIN`, the line number of each signal (10_state.md R21). -/
  pin : PerSig Nat
  /-- `ACQ_ORDER`, the fixed order in which ACQUIRE requests lines. -/
  acqOrder : List Sig
  /-- `LABEL`, the diagnostic label given with each request (40_pin_controller.md R100). -/
  label : PerSig String
  tEH : Nat
  tEL : Nat
  tPON : Nat
  tRST : Nat
  tDPRE : Nat
  tDPOST : Nat
  tCmdGap : Nat
  rom : Rom
  releaseUnowned : ReleaseUnowned
  closePolicy : ClosePolicy
  /-- `MAX_SESSIONS`, the number of session identifiers (10_state.md R34; notes/assumptions/25.md). -/
  maxSessions : Nat
  /-- The name given to `registerDevice` (92_eei_decisions.md D26). -/
  deviceName : String
  /-- The name given to `createDeviceClass`. -/
  className : String
deriving DecidableEq, Repr

/-- The six signals whose line numbers and acquisition order the spec leaves OPEN. -/
def sixSigs : List Sig := [.rs, .rw, .db4, .db5, .db6, .db7]

/-- The six lines they use (10_state.md R22). -/
def sixLines : List Nat := [4, 17, 22, 23, 24, 25]

/-- What 00_scope.md R8 requires of the parameters: `PIN(E) = 18`, the other six signals one to one on the six lines,
and an acquisition order that names all seven signals once with E last. -/
def Params.wf (p : Params) : Bool :=
  p.pin.e == 18 && (sixSigs.map p.pin.get).isPerm sixLines &&
    p.acqOrder.dropLast.isPerm sixSigs && p.acqOrder.getLast? == some .e

/-- Who moves at the next step (60_exceptions.md R183; notes/assumptions/6.md). -/
inductive Turn where
  /-- the next pending request is issued and its agent takes all its steps before anyone else moves -/
  | whole
  /-- the next pending request is issued: its agent stands at the first micro-step -/
  | begin
  /-- one micro-step of an agent -/
  | agent (a : Nat)
  /-- the environment changes who holds a line (10_state.md R40; notes/assumptions/32.md) -/
  | foreign (n : Nat) (held : Bool)
deriving DecidableEq, Repr, Inhabited

/-- OPEN: which of the six signals has which of the six lines (92_eei_decisions.md D3; notes/assumptions/1.md). -/
opaque Config.pinPerm : Equiv.Perm (Fin 6)

/-- OPEN: the order of the six signals before E (92_eei_decisions.md D4; notes/assumptions/1.md). -/
opaque Config.acqPerm : Equiv.Perm (Fin 6)

/-- OPEN: the labels (92_eei_decisions.md D5). -/
opaque Config.label : Sig → String

/-- OPEN: the ten CommandWords (92_eei_decisions.md D6). -/
opaque Config.romWord : CmdName → Byte

/-- OPEN: the name given to `registerDevice` (92_eei_decisions.md D26). -/
opaque Config.deviceName : String

/-- OPEN: the name given to `createDeviceClass` (92_eei_decisions.md D26). -/
opaque Config.className : String

/-- Free: the lines other components hold at launch (10_state.md R40; notes/assumptions/2.md). -/
opaque Config.foreignAtLaunch : List Nat

/-- Free: by how much the n-th step outlasts its minimum (00_scope.md R12; notes/assumptions/3.md). -/
opaque Config.freeDelay : Nat → Nat

/-- Free: whether the host accepts the n-th level write (10_state.md R42; notes/assumptions/4.md). -/
opaque Config.freeAnswer : Nat → Bool

/-- Free: what the n-th registration call returns, a handle or an error (43_session_lifecycle.md R153;
notes/assumptions/5.md). -/
opaque Config.freeRegistration : Nat → Option Nat

/-- Free: who moves at the n-th step (60_exceptions.md R183; notes/assumptions/6.md). -/
opaque Config.freeTurn : Nat → Turn

/-- The signal at a place 0..5 of `sixSigs`. -/
def Config.sixSig (i : Fin 6) : Sig := sixSigs.get i

/-- The line at a place 0..5 of `sixLines`. -/
def Config.sixLine (i : Fin 6) : Nat := sixLines.get i

/-- The parameters at reset: the source's values and defaults where 00_scope.md R8 gives them, the opaque constants
where it says OPEN. -/
def Config.params : Params where
  pin :=
    { rs := sixLine (pinPerm 0), rw := sixLine (pinPerm 1), e := 18, db4 := sixLine (pinPerm 2),
      db5 := sixLine (pinPerm 3), db6 := sixLine (pinPerm 4), db7 := sixLine (pinPerm 5) }
  acqOrder :=
    [sixSig (acqPerm 0), sixSig (acqPerm 1), sixSig (acqPerm 2), sixSig (acqPerm 3), sixSig (acqPerm 4),
      sixSig (acqPerm 5), .e]
  label := PerSig.of label
  tEH := 50000
  tEL := 50000
  tPON := 15000000
  tRST := 35000000
  tDPRE := 35000000
  tDPOST := 35000000
  tCmdGap := 0
  rom :=
    { reset := romWord .reset, startup1 := romWord .startup1, startup2 := romWord .startup2,
      functionset := romWord .functionset, displayoff := romWord .displayoff, clear := romWord .clear,
      entrymode := romWord .entrymode, displayon := romWord .displayon, home := romWord .home, char := romWord .char }
  releaseUnowned := .fault
  closePolicy := .reference
  maxSessions := 256
  deviceName := Config.deviceName
  className := Config.className

end Sys2Proof
end

