-- ==== Sys2Proof/WellFormed.lean ====
section
/-! DEFINITION. Which instruction terms are legal requests. -/

namespace Sys2Proof

/-- A term is a legal request unless it is one of the two reserved rows (30_encoding.md R84). Every other operand
value of 30_encoding.md R72 to R77 is legal, and `sig = 7` is no value of `Sig`. -/
def Instr.wellFormed : Instr → Bool
  | .acquire _ => true
  | .release _ => true
  | .setlevel _ _ => true
  | .transmit _ => true
  | .delayUs _ => true
  | .delayMs _ => true
  | .lock => true
  | .unlock => true
  | .initRun => true
  | .evLoad => true
  | .evUnload => true
  | .evOpen _ => true
  | .evClose _ => true
  | .evControl _ => true
  | .reserved0 _ => false
  | .reservedF _ => false

end Sys2Proof
end

