-- ==== Sys2Proof/Decode.lean ====
section
/-! DEFINITION. The decoder, total on every 16-bit word (30_encoding.md R79 to R81, R84), and after it the encoder. -/

namespace Sys2Proof

/-- What a request word decodes to. -/
inductive Decoded where
  /-- an operation, or one of the two reserved rows of the table (Reserved(op)) -/
  | instr (i : Instr)
  /-- a word that selects a row but is no request of it -/
  | reserved (r : Reserved)
deriving DecidableEq, Repr

/-- `idx` of a signal (00_scope.md R10). -/
def Sig.idx : Sig → Nat
  | .rs => 0
  | .rw => 1
  | .e => 2
  | .db4 => 3
  | .db5 => 4
  | .db6 => 5
  | .db7 => 6

/-- The signal of an index 0..6; index 7 is reserved (30_encoding.md R73). -/
def sigAt (i : BitVec 3) : Option Sig :=
  match i.toNat with
  | 0 => some .rs
  | 1 => some .rw
  | 2 => some .e
  | 3 => some .db4
  | 4 => some .db5
  | 5 => some .db6
  | 6 => some .db7
  | _ => none

/-- The opcode `q[15:12]` of an operation (30_encoding.md R79). -/
def Op.code : Op → BitVec 4
  | .acquire => 0x1#4
  | .release => 0x2#4
  | .setlevel => 0x3#4
  | .transmit => 0x4#4
  | .delayUs => 0x5#4
  | .delayMs => 0x6#4
  | .lock => 0x7#4
  | .unlock => 0x8#4
  | .initRun => 0x9#4
  | .evLoad => 0xA#4
  | .evUnload => 0xB#4
  | .evOpen => 0xC#4
  | .evClose => 0xD#4
  | .evControl => 0xE#4

/-- The `mask` column of 30_encoding.md R79. -/
def Op.rowMask : Op → Word
  | .acquire => 0xFF80#16
  | .release => 0xFF80#16
  | .setlevel => 0xF8FE#16
  | .transmit => 0xFF00#16
  | .delayUs => 0xF000#16
  | .delayMs => 0xF000#16
  | .lock => 0xFFFF#16
  | .unlock => 0xFFFF#16
  | .initRun => 0xFFFF#16
  | .evLoad => 0xFFFF#16
  | .evUnload => 0xFFFF#16
  | .evOpen => 0xFF00#16
  | .evClose => 0xFF00#16
  | .evControl => 0xFF00#16

/-- The `match` column of 30_encoding.md R79. -/
def Op.rowMatch : Op → Word
  | .acquire => 0x1000#16
  | .release => 0x2000#16
  | .setlevel => 0x3000#16
  | .transmit => 0x4000#16
  | .delayUs => 0x5000#16
  | .delayMs => 0x6000#16
  | .lock => 0x7000#16
  | .unlock => 0x8000#16
  | .initRun => 0x9000#16
  | .evLoad => 0xA000#16
  | .evUnload => 0xB000#16
  | .evOpen => 0xC000#16
  | .evClose => 0xD000#16
  | .evControl => 0xE000#16

/-- No must-be-zero bit of the row is set: `(q & row.mask) = row.match` (30_encoding.md R80, R81). -/
def Op.fits (o : Op) (q : Word) : Bool :=
  q &&& o.rowMask == o.rowMatch

/-- `decode(q)` of 30_encoding.md R81. Reserved(op) is the table's own rows RESERVED_0 and RESERVED_F. -/
def decode (q : Word) : Decoded :=
  match (q.extractLsb' 12 4).toNat with
  | 0 => .instr (.reserved0 (q.extractLsb' 0 12))
  | 1 => if Op.acquire.fits q then .instr (.acquire (q.extractLsb' 0 7)) else .reserved .mbz
  | 2 => if Op.release.fits q then .instr (.release (q.extractLsb' 0 7)) else .reserved .mbz
  | 3 =>
    if Op.setlevel.fits q then
      match sigAt (q.extractLsb' 8 3) with
      | some s => .instr (.setlevel s (q.getLsbD 0))
      | none => .reserved .sig7
    else .reserved .mbz
  | 4 => if Op.transmit.fits q then .instr (.transmit (q.extractLsb' 0 8)) else .reserved .mbz
  | 5 => if Op.delayUs.fits q then .instr (.delayUs (q.extractLsb' 0 12)) else .reserved .mbz
  | 6 => if Op.delayMs.fits q then .instr (.delayMs (q.extractLsb' 0 12)) else .reserved .mbz
  | 7 => if Op.lock.fits q then .instr .lock else .reserved .mbz
  | 8 => if Op.unlock.fits q then .instr .unlock else .reserved .mbz
  | 9 => if Op.initRun.fits q then .instr .initRun else .reserved .mbz
  | 10 => if Op.evLoad.fits q then .instr .evLoad else .reserved .mbz
  | 11 => if Op.evUnload.fits q then .instr .evUnload else .reserved .mbz
  | 12 => if Op.evOpen.fits q then .instr (.evOpen (q.extractLsb' 0 8)) else .reserved .mbz
  | 13 => if Op.evClose.fits q then .instr (.evClose (q.extractLsb' 0 8)) else .reserved .mbz
  | 14 => if Op.evControl.fits q then .instr (.evControl (q.extractLsb' 0 8)) else .reserved .mbz
  | _ => .instr (.reservedF (q.extractLsb' 0 12))

/-- The instruction the decoder reads from the table's `nbits` bits `w`; every higher bit of the word is 0. A request
is one 16-bit word, so nothing longer decodes (30_encoding.md R70; notes/assumptions/22.md). -/
def decodeTableWord (nbits w : Nat) : Option Instr :=
  if nbits ≤ 16 then
    match decode (BitVec.ofNat 16 (w % 2 ^ nbits)) with
    | .instr i => some i
    | .reserved _ => none
  else none

/-- Format M: opcode, five must-be-zero bits, the mask (30_encoding.md R71). -/
def encodeM (o : Op) (mask : BitVec 7) : Word :=
  o.code ++ 0#5 ++ mask

/-- Format S: opcode, bit 11 zero, the signal index, seven zero bits, the level. -/
def encodeS (o : Op) (s : Sig) (lv : Bool) : Word :=
  o.code ++ 0#1 ++ BitVec.ofNat 3 s.idx ++ 0#7 ++ BitVec.ofBool lv

/-- Formats W and I: opcode, four zero bits, eight operand bits. -/
def encodeW (o : Op) (w : Byte) : Word :=
  o.code ++ 0#4 ++ w

/-- Format N: opcode and the twelve bits of the count. -/
def encodeN (o : Op) (n : BitVec 12) : Word :=
  o.code ++ n

/-- The word of an instruction, written from 30_encoding.md R71 and R79. -/
def encode : Instr → Word
  | .acquire mask => encodeM .acquire mask
  | .release mask => encodeM .release mask
  | .setlevel s lv => encodeS .setlevel s lv
  | .transmit w => encodeW .transmit w
  | .delayUs n => encodeN .delayUs n
  | .delayMs n => encodeN .delayMs n
  | .lock => encodeN .lock 0#12
  | .unlock => encodeN .unlock 0#12
  | .initRun => encodeN .initRun 0#12
  | .evLoad => encodeN .evLoad 0#12
  | .evUnload => encodeN .evUnload 0#12
  | .evOpen sid => encodeW .evOpen sid
  | .evClose sid => encodeW .evClose sid
  | .evControl sid => encodeW .evControl sid
  | .reserved0 low => 0x0#4 ++ low
  | .reservedF low => 0xF#4 ++ low

end Sys2Proof
end

