-- ==== Sys2Proof/Machine/Sorted.lean ====
section
/-! DEFINITION. Sets of natural numbers and maps keyed by them, as lists in one canonical form: keys strictly rising,
so that equal sets and equal maps are equal lists (notes/assumptions/17.md). -/

namespace Sys2Proof.Machine

/-- Put a number into a set. -/
def setInsert (n : Nat) : List Nat → List Nat
  | [] => [n]
  | m :: ms => if n < m then n :: m :: ms else if n = m then m :: ms else m :: setInsert n ms

/-- Take a number out of a set. -/
def setErase (n : Nat) : List Nat → List Nat
  | [] => []
  | m :: ms => if n = m then ms else m :: setErase n ms

/-- The canonical set of the numbers a list holds. -/
def setOf (l : List Nat) : List Nat :=
  l.foldr setInsert []

/-- The canonical form of a set. -/
abbrev setWf (l : List Nat) : Prop := l.Pairwise (· < ·)

/-- The value a map has at a key. -/
def mapGet {α : Type} (k : Nat) : List (Nat × α) → Option α
  | [] => none
  | (j, v) :: m => if k = j then some v else mapGet k m

/-- Give a key a value. -/
def mapPut {α : Type} (k : Nat) (v : α) : List (Nat × α) → List (Nat × α)
  | [] => [(k, v)]
  | (j, w) :: m =>
    if k < j then (k, v) :: (j, w) :: m else if k = j then (k, v) :: m else (j, w) :: mapPut k v m

/-- Take a key out of a map. -/
def mapErase {α : Type} (k : Nat) : List (Nat × α) → List (Nat × α)
  | [] => []
  | (j, w) :: m => if k = j then m else (j, w) :: mapErase k m

/-- The canonical form of a map. -/
abbrev mapWf {α : Type} (m : List (Nat × α)) : Prop := (m.map Prod.fst).Pairwise (· < ·)

end Sys2Proof.Machine
end

