-- ==== Sys2Proof/Machine/State.lean ====
section
/-! DEFINITION. The state of the block and of what stands around it, as plain data, and the state after reset. -/

namespace Sys2Proof.Machine

/-- The level the block presents on a line; `z` is "not driven by this block" (00_scope.md R10). -/
inductive Level where
  | low | high | z
deriving DecidableEq, Repr

/-- The direction of a line; the block never sets a line to input (10_state.md R24). -/
inductive Dir where
  | unset | output
deriving DecidableEq, Repr

/-- The per-signal state (10_state.md R23 to R25). -/
structure Line where
  /-- the host has granted a request of the line, and the line `own[s] <- 1` that follows it in ACQUIRE is still to come
  (40_pin_controller.md R90, R91; notes/assumptions/7.md) -/
  granted : Bool
  own : Bool
  dir : Dir
  lvl : Level
deriving DecidableEq, Repr

/-- A line the block does not hold: its reset state, and what RELEASE leaves (40_pin_controller.md R94). -/
def Line.free : Line := { granted := false, own := false, dir := .unset, lvl := .z }

/-- A line set to output with initial level 0 (40_pin_controller.md R92). -/
def Line.driven : Line := { granted := false, own := true, dir := .output, lvl := .low }

/-- The load state (10_state.md R31). -/
inductive LoadState where
  | unloaded | loaded
deriving DecidableEq, Repr

/-- A pin event, with the time of its step (10_state.md R43). -/
inductive Event where
  | own (t : Nat) (s : Sig)
  | drive (t : Nat) (s : Sig) (v : Bool)
  | free (t : Nat) (s : Sig)
deriving DecidableEq, Repr

/-- The callbacks of the device (43_session_lifecycle.md R152, R167): open, close, control, and no data write. -/
inductive Callback where
  | onOpen | onClose | onControl
deriving DecidableEq, Repr

/-- A call the block makes to the host, with the host's answer where it has one (00_scope.md R7, 10_state.md R43,
43_session_lifecycle.md R152, R157). -/
inductive HostCall where
  | requestLine (n : Nat) (label : String) (granted : Bool)
  | releaseLine (n : Nat)
  | setDirection (n : Nat)
  | setLevel (n : Nat) (v : Bool) (accepted : Bool)
  | registerDevice (name : String) (callbacks : List Callback) (handle : Option Nat)
  | createDeviceClass (name : String) (handle : Option Nat)
  | createDeviceNode (classHandle : Nat) (name : String) (mode : Nat) (created : Bool)
  | destroyDeviceNode
  | destroyDeviceClass
  | unregisterDevice (handle : Option Nat)
deriving DecidableEq, Repr

/-- The errors E1 and E2 (60_exceptions.md R176). -/
inductive Err where
  | resourceUnavailable | invalidArgument
deriving DecidableEq, Repr

/-- What an operation returns to its caller. -/
inductive Result where
  | ok
  | err (e : Err)
deriving DecidableEq, Repr

/-- A result returned by an agent's request (00_scope.md R19, 60_exceptions.md R193; notes/assumptions/14.md). -/
structure Returned where
  agent : Nat
  op : Op
  result : Result
deriving DecidableEq, Repr

/-- The fault reasons F1 to F7 (60_exceptions.md R177). -/
inductive FaultCode where
  | unguarded | transmitUnowned | setLevelUnowned | releaseUnowned | unlockNotOwner | initTwice | registrationFailed
deriving DecidableEq, Repr

/-- A position `(op, k)`: an operation and the index of a micro-step of it (10_state.md R35, 60_exceptions.md R178). -/
structure Pc where
  op : Op
  k : Nat
deriving DecidableEq, Repr

/-- What a fault records (60_exceptions.md R178). -/
structure FaultEntry where
  code : FaultCode
  agent : Nat
  pc : Pc
  now : Nat
deriving DecidableEq, Repr

/-- The refusal reasons (60_exceptions.md R182). -/
inductive RefusalReason where
  | reserved (r : Reserved)
  | hostDuty (event : Op)
deriving DecidableEq, Repr

/-- The checks an operation makes before its first micro-step (60_exceptions.md R177, R179). -/
inductive Check where
  /-- the executing agent holds the guard (43_session_lifecycle.md R147) -/
  | guarded
  /-- `linesAcquired = 1` (41_protocol_engine.md R111) -/
  | acquired
  /-- the line is owned and set to output (40_pin_controller.md R96) -/
  | driven (s : Sig)
  /-- `initDone = 0` (42_init_sequencer.md R131) -/
  | initFresh
deriving DecidableEq, Repr

/-- What one line of an operation's fixed expansion does (10_state.md R35, 40_pin_controller.md R90;
notes/assumptions/7.md). -/
inductive Act where
  /-- a check; it takes no step when it holds and faults when it does not -/
  | require (c : Check)
  /-- `initDone <- 1` on entry to INIT_RUN (42_init_sequencer.md R130; notes/assumptions/19.md) -/
  | beginInit
  /-- HostRequestLine, with the signals this call has claimed before (40_pin_controller.md R91) -/
  | request (s : Sig) (got : List Sig)
  /-- `own[s] <- 1 ; emit Own(now, s)` after a granted request (40_pin_controller.md R91) -/
  | claim (s : Sig)
  /-- HostSetDirection with initial level 0 (40_pin_controller.md R92) -/
  | direct (s : Sig)
  /-- one line of ROLLBACK (40_pin_controller.md R93) -/
  | giveBack (s : Sig)
  /-- HostReleaseLine of an owned line, UNOWNED_RELEASE of any other (40_pin_controller.md R94, R95) -/
  | release (s : Sig)
  /-- `own[s] <- 0 ; dir[s] <- unset ; lvl[s] <- Z ; emit Free(now, s)`, where HostReleaseLine was called
  (40_pin_controller.md R94) -/
  | unclaim (s : Sig)
  /-- WRITE (40_pin_controller.md R96) -/
  | write (s : Sig) (v : Bool)
  /-- wait for at least n nanoseconds (00_scope.md R12) -/
  | wait (n : Nat)
  /-- LOCK (43_session_lifecycle.md R145) -/
  | lock
  /-- UNLOCK (43_session_lifecycle.md R146) -/
  | unlock
  /-- `linesAcquired <- b` -/
  | setAcquired (b : Bool)
  /-- the three calls of REGISTER and its last line (43_session_lifecycle.md R152) -/
  | registerDevice
  | createClass
  | createNode
  | setReg
  /-- `loaded <- Loaded` (43_session_lifecycle.md R150) -/
  | setLoaded
  /-- the three calls of UNREGISTER (43_session_lifecycle.md R157) -/
  | destroyNode
  | destroyClass
  | unregister
  /-- `reg <- none ; loaded <- Unloaded ; initDone <- 0` (43_session_lifecycle.md R155) -/
  | clearLoad
  /-- `if openCount == 1`: go on; else the UNLOCK of EV_CLOSE is next (43_session_lifecycle.md R160, refcount) -/
  | ifLast (sid : Nat)
  /-- `sess[sid] <- Open` -/
  | sessOpen (sid : Nat)
  /-- `sess[sid] <- Closed` -/
  | sessClose (sid : Nat)
deriving DecidableEq, Repr

/-- One line of a request's fixed expansion. Where it is a line of an operation, `inner` is its place in that operation,
which need not be the request itself: TRANSMIT's k = 0 to 15, the step k of INIT_RUN, a check at k = 0. A line of an
EV_* step list, of REGISTER and of ROLLBACK has none of its own (notes/assumptions/12.md). -/
structure MicroStep where
  inner : Option Pc
  act : Act
deriving DecidableEq, Repr

/-- What an executing agent keeps for itself. -/
structure Locals where
  /-- the index of its next micro-step in the request's expansion, which is the number it has taken (10_state.md R35) -/
  k : Nat
  /-- in RELEASE, this line's HostReleaseLine was called: the `else` of 40_pin_controller.md R94 is being executed -/
  releasing : Bool
  /-- the handles an executing REGISTER has received (43_session_lifecycle.md R152; notes/assumptions/31.md) -/
  handle : Nat
  classHandle : Nat
deriving DecidableEq, Repr

/-- The locals at the start of a request: k = 0 (10_state.md R35). -/
def Locals.start : Locals := { k := 0, releasing := false, handle := 0, classHandle := 0 }

/-- A request an agent executes: which operation, what it returns at its end, the agent's locals, and the lines of the
expansion that remain. The agent's `pc` is `(req, loc.k)` (10_state.md R35). -/
structure Task where
  req : Op
  result : Option Result
  loc : Locals
  rest : List MicroStep
deriving DecidableEq, Repr

/-- What an agent that is not idle is at. -/
inductive AgentState where
  /-- executing a request -/
  | running (t : Task)
  /-- quiescent after a fault, its `pc` where it stood (60_exceptions.md R180) -/
  | faulted (pc : Pc)
deriving DecidableEq, Repr

/-- A request the host has pending: the agent that executes it, its word, and EV_CONTROL's opaque argument, which no
step reads (30_encoding.md R70, R78). -/
structure Request where
  agent : Nat
  word : Word
  arg : Nat
deriving DecidableEq, Repr

/-- A stream of free values: those given as data come first, and past them the opaque constant of Config is applied to
the count of values drawn from it. -/
structure Stream (α : Type) where
  given : List α
  drawn : Nat
deriving DecidableEq, Repr

/-- A stream with nothing given. -/
def Stream.fresh {α : Type} : Stream α := { given := [], drawn := 0 }

/-- The whole machine. -/
structure State where
  /-- `own[s]`, `dir[s]`, `lvl[s]` (10_state.md R23 to R25) -/
  lines : PerSig Line
  /-- 10_state.md R27 -/
  linesAcquired : Bool
  /-- 10_state.md R30 -/
  reg : Option Nat
  /-- 10_state.md R31 -/
  loaded : LoadState
  /-- 10_state.md R32 -/
  initDone : Bool
  /-- 10_state.md R33 -/
  lockOwner : Option Nat
  /-- the identifiers of the Open sessions, strictly rising (10_state.md R34) -/
  sess : List Nat
  /-- the agents that are not idle, keyed by agent (10_state.md R35) -/
  agents : List (Nat × AgentState)
  /-- 10_state.md R36, nanoseconds -/
  now : Nat
  /-- 10_state.md R37, 60_exceptions.md R178 -/
  faults : List FaultEntry
  /-- the reasons of 60_exceptions.md R182; 10_state.md R38's bit says whether there is one -/
  refusals : List RefusalReason
  /-- 10_state.md R43 -/
  trace : List Event
  /-- the host-call sequence (10_state.md R43) -/
  hostCalls : List HostCall
  /-- the returned results (60_exceptions.md R193) -/
  results : List Returned
  /-- the lines other components hold, strictly rising (10_state.md R40) -/
  foreign : List Nat
  /-- the launch configuration (00_scope.md R8) -/
  params : Params
  /-- input: the agent whose request `exec` runs -/
  self : Nat
  /-- input: the requests the host has pending, the next one first -/
  requests : List Request
  /-- input: who moves next (60_exceptions.md R183) -/
  turns : Stream Turn
  /-- free: extra durations (00_scope.md R12) -/
  delays : Stream Nat
  /-- free: accepted or rejected level writes (10_state.md R42) -/
  answers : Stream Bool
  /-- free: answers of the registration calls (43_session_lifecycle.md R153) -/
  registrations : Stream (Option Nat)
deriving DecidableEq, Repr

/-- The stops of `exec`. Both are for an agent that takes no step now, so the machine stops where the spec gives the
agent no step (notes/assumptions/10.md). `step` raises neither: it issues a request only to an idle agent. -/
inductive Fault where
  /-- raised by `exec` when the executing agent is in the middle of a request, at a LOCK that does not let it on
  included (41_protocol_engine.md R116, 60_exceptions.md R181); safe -/
  | agentBusy
  /-- raised by `exec` when the executing agent has faulted: it takes no further step (60_exceptions.md R180); safe -/
  | agentQuiescent
deriving DecidableEq, Repr

/-- Instructions without a meaning: none is left, so nothing raises this; safe. -/
inductive Refusal where
  /-- an arm of `exec` that is not written yet; safe -/
  | notModelled (mnemonic : String)
deriving DecidableEq, Repr

/-- Block reset, the state before the first EV_LOAD (70_reset_and_hazards.md R195). `foreign` is launch state and free
(notes/assumptions/2.md); the parameters are Config's (notes/assumptions/1.md); the inputs are empty. -/
def State.reset : State where
  lines := PerSig.of fun _ => Line.free
  linesAcquired := false
  reg := none
  loaded := .unloaded
  initDone := false
  lockOwner := none
  sess := []
  agents := []
  now := 0
  faults := []
  refusals := []
  trace := []
  hostCalls := []
  results := []
  foreign := setOf Config.foreignAtLaunch
  params := Config.params
  self := 0
  requests := []
  turns := Stream.fresh
  delays := Stream.fresh
  answers := Stream.fresh
  registrations := Stream.fresh

end Sys2Proof.Machine
end

