-- ==== Sys2Proof/Machine/Ops.lean ====
section
/-! DEFINITION. The named operations over the state: drawing free values, time, the pin lines, the host calls, agents,
and the one operation that raises a fault. A fault has no handler and nothing returns from it (60_exceptions.md R175,
R184), so there is no return beside it. -/

namespace Sys2Proof.Machine

/-! ### Free values -/

/-- The next value of a stream: the first one given, else the opaque constant at the count drawn so far. -/
def Stream.head {α : Type} (free : Nat → α) (st : Stream α) : α :=
  match st.given with
  | x :: _ => x
  | [] => free st.drawn

/-- The stream after its next value has been drawn. -/
def Stream.advance {α : Type} (st : Stream α) : Stream α :=
  match st.given with
  | _ :: xs => { given := xs, drawn := st.drawn }
  | [] => { given := [], drawn := st.drawn + 1 }

/-- The value a stream gives after `k` values have been drawn. -/
def Stream.nth {α : Type} (free : Nat → α) (st : Stream α) : Nat → α
  | 0 => st.head free
  | k + 1 => st.advance.nth free k

/-! ### Time -/

/-- A step of at least `n` nanoseconds: `now` advances by `n` and a drawn extra (00_scope.md R12). A step that is not a
wait has `n = 0`. What the step does happens at the time it leaves (notes/assumptions/3.md). -/
def State.tick (n : Nat) (s : State) : State :=
  { s with now := s.now + n + s.delays.head Config.freeDelay, delays := s.delays.advance }

/-! ### Lines, trace and host calls -/

/-- The state of a signal's line. -/
def State.line (s : State) (g : Sig) : Line := s.lines.get g

/-- Give a signal's line a new state. -/
def State.setLine (g : Sig) (l : Line) (s : State) : State :=
  { s with lines := s.lines.set g l }

/-- `emit(ev)` (00_scope.md R13, 10_state.md R43). -/
def State.emit (ev : Event) (s : State) : State :=
  { s with trace := s.trace ++ [ev] }

/-- Record a call made to the host (10_state.md R43). -/
def State.call (c : HostCall) (s : State) : State :=
  { s with hostCalls := s.hostCalls ++ [c] }

/-- `PIN(g)` (10_state.md R21). -/
def State.pin (s : State) (g : Sig) : Nat := s.params.pin.get g

/-- The block owns the signal's line as far as the host is concerned: a request of it was granted (10_state.md R41), or
`own[s] = 1`. -/
def Line.held (l : Line) : Bool := l.granted || l.own

/-- Some signal whose line the block holds is on line `n`. -/
def State.ownsLine (s : State) (n : Nat) : Bool :=
  [Sig.rs, .rw, .e, .db4, .db5, .db6, .db7].any fun g => (s.line g).held && s.pin g == n

/-- HostRequestLine fails exactly when a foreign owner or the block holds the line (10_state.md R41). -/
def State.lineTaken (s : State) (n : Nat) : Bool :=
  s.foreign.contains n || s.ownsLine n

/-- A request the host grants (40_pin_controller.md R91). -/
def State.grant (g : Sig) (s : State) : State :=
  (s.call (.requestLine (s.pin g) (s.params.label.get g) true)).setLine g { s.line g with granted := true }

/-- `own[g] <- 1 ; emit Own(now, g)` after a granted request (40_pin_controller.md R91). -/
def State.claim (g : Sig) (s : State) : State :=
  (s.setLine g { s.line g with granted := false, own := true }).emit (.own s.now g)

/-- A request the host refuses changes no line (40_pin_controller.md R91). -/
def State.denied (g : Sig) (s : State) : State :=
  s.call (.requestLine (s.pin g) (s.params.label.get g) false)

/-- HostSetDirection with initial level 0, in one call (40_pin_controller.md R92). On a line the block has lost to a
RELEASE in between, the call drives nothing (notes/assumptions/8.md). -/
def State.driveLow (g : Sig) (s : State) : State :=
  if (s.line g).own then ((s.call (.setDirection (s.pin g))).setLine g Line.driven).emit (.drive s.now g false)
  else s.call (.setDirection (s.pin g))

/-- `own[g] <- 0 ; dir[g] <- unset ; lvl[g] <- Z ; emit Free(now, g)` (40_pin_controller.md R94). -/
def State.unclaim (g : Sig) (s : State) : State :=
  (s.setLine g Line.free).emit (.free s.now g)

/-- HostReleaseLine and the line as it stands unheld, in one line of ROLLBACK (40_pin_controller.md R93;
notes/assumptions/27.md). -/
def State.drop (g : Sig) (s : State) : State :=
  (s.call (.releaseLine (s.pin g))).unclaim g

/-- The level a written bit puts on a line. -/
def Level.ofBit : Bool → Level
  | false => .low
  | true => .high

/-- The line presents a level of the block's: owned and set to output (10_state.md R25). -/
def Line.presents (l : Line) : Bool := l.own && l.dir == .output

/-- Whether the host takes the next level write to `g`: its drawn answer, on a line the block presents a level on
(10_state.md R25, R42; notes/assumptions/8.md). -/
def State.accepts (s : State) (g : Sig) : Bool :=
  s.answers.head Config.freeAnswer && (s.line g).presents

/-- HostSetLevel: the call, with the answer drawn. -/
def State.askLevel (g : Sig) (v : Bool) (s : State) : State :=
  { s with
    answers := s.answers.advance
    hostCalls := s.hostCalls ++ [.setLevel (s.pin g) v (s.accepts g)] }

/-- `WRITE(g, v)` of 40_pin_controller.md R96, after its step's time: an accepted write that changes the level is an
event; any other is invisible at the pins (10_state.md R42, R43). -/
def State.writeLevel (g : Sig) (v : Bool) (s : State) : State :=
  if s.accepts g && (s.line g).lvl != Level.ofBit v then
    ((s.askLevel g v).setLine g { s.line g with lvl := Level.ofBit v }).emit (.drive s.now g v)
  else s.askLevel g v

/-- The answer the next registration call gets (43_session_lifecycle.md R153). -/
def State.registration (s : State) : Option Nat := s.registrations.head Config.freeRegistration

/-- A registration call: its answer is drawn and the call is recorded. -/
def State.askRegistration (c : HostCall) (s : State) : State :=
  { s with registrations := s.registrations.advance, hostCalls := s.hostCalls ++ [c] }

/-! ### Agents, results, faults, refusals -/

/-- What an agent is at; none when it is idle (10_state.md R35). -/
def State.agentState (s : State) (a : Nat) : Option AgentState := mapGet a s.agents

/-- The agent is idle. -/
def State.idle (s : State) (a : Nat) : Bool := (s.agentState a).isNone

/-- The position of an agent executing this request: the request and the index of its next micro-step (10_state.md R35). -/
def Task.pc (t : Task) : Pc := { op := t.req, k := t.loc.k }

/-- The agent's sequencer position, none when it is idle (10_state.md R35). -/
def State.pcOf (s : State) (a : Nat) : Option Pc :=
  match s.agentState a with
  | some (.running t) => some t.pc
  | some (.faulted pc) => some pc
  | none => none

/-- Where the agent stands in the operation its next line belongs to, "at k = 5 of a TRANSMIT" (41_protocol_engine.md
R112, 42_init_sequencer.md R130; notes/assumptions/12.md). -/
def State.innerOf (s : State) (a : Nat) : Option Pc :=
  match s.agentState a with
  | some (.running t) => t.rest.head?.bind MicroStep.inner
  | some (.faulted _) => none
  | none => none

/-- The agent stands in a request, with these micro-steps left. -/
def State.park (a : Nat) (t : Task) (s : State) : State :=
  { s with agents := mapPut a (.running t) s.agents }

/-- The request is over: its result, if it returns one, goes to the host and the agent is idle (60_exceptions.md R192,
43_session_lifecycle.md R169). -/
def State.finish (a : Nat) (req : Op) (result : Option Result) (s : State) : State :=
  { s with
    agents := mapErase a s.agents
    results :=
      match result with
      | some r => s.results ++ [{ agent := a, op := req, result := r }]
      | none => s.results }

/-- `raise Fault(code)` by an agent at `pc`, at the place `site` of the operation that raises it: a step that adds the
entry (code, agent, site, now) to the sticky faults and leaves the agent quiescent; whatever guard it holds stays held
(60_exceptions.md R178, R180, R184; notes/assumptions/9.md, 12.md). -/
def State.raise (a : Nat) (pc site : Pc) (code : FaultCode) (s : State) : State :=
  { s with
    now := (s.tick 0).now
    delays := s.delays.advance
    faults := s.faults ++ [{ code := code, agent := a, pc := site, now := (s.tick 0).now }]
    agents := mapPut a (.faulted pc) s.agents }

/-- Refuse a request: `refused` is set and there is no step (60_exceptions.md R182). -/
def State.refuse (r : RefusalReason) (s : State) : State :=
  { s with refusals := s.refusals ++ [r] }

/-- The sticky bit `refused` (10_state.md R38). -/
def State.refused (s : State) : Bool := !s.refusals.isEmpty

/-- `openCount` (10_state.md R34). -/
def State.openCount (s : State) : Nat := s.sess.length

/-- There is a session of this identifier: 0 to MAX_SESSIONS - 1 (10_state.md R34). -/
def State.isSession (s : State) (sid : Nat) : Bool := sid < s.params.maxSessions

/-- `sess[sid] = Open` (10_state.md R34). -/
def State.isOpen (s : State) (sid : Nat) : Bool := s.sess.contains sid

end Sys2Proof.Machine
end

