-- ==== Sys2Proof/Machine/Operands.lean ====
section
/-! DEFINITION. The operand forms: signal masks in acquisition order, the two nibbles of a CommandWord, counts of time,
session identifiers (30_encoding.md R72 to R77). -/

namespace Sys2Proof.Machine

/-- The mask selects the signal: `mask[idx(s)] = 1` (30_encoding.md R72). -/
def selects (mask : BitVec 7) (s : Sig) : Bool := mask.getLsbD s.idx

/-- The masked signals, in ACQ_ORDER (40_pin_controller.md R91, R94). -/
def chosen (p : Params) (mask : BitVec 7) : List Sig := p.acqOrder.filter (selects mask)

/-- `mask = 0x7F`, all signals (30_encoding.md R72). -/
def allSignals : BitVec 7 := 0x7F#7

/-- `elem(w, k) = w[7-k]`: the source's numbering of a CommandWord's bits (00_scope.md R9). -/
def elem (w : Byte) (k : Nat) : Bool := w.getLsbD (7 - k)

/-- `hi(w) = w[7:4]` (00_scope.md R9). -/
def hi (w : Byte) : BitVec 4 := w.extractLsb' 4 4

/-- `lo(w) = w[3:0]` (00_scope.md R9). -/
def lo (w : Byte) : BitVec 4 := w.extractLsb' 0 4

/-- `us(n)`, in nanoseconds (00_scope.md R12, 30_encoding.md R76). -/
def us (n : BitVec 12) : Nat := n.toNat * 1000

/-- `ms(n)`, in nanoseconds (00_scope.md R12, 30_encoding.md R76). -/
def ms (n : BitVec 12) : Nat := n.toNat * 1000000

/-- The session a format I word names (30_encoding.md R77). -/
def sidOf (sid : Byte) : Nat := sid.toNat

/-- The four data writes of a nibble, in the order DB7, DB6, DB5, DB4; line DB(4+j) carries nibble bit j
(30_encoding.md R66, 41_protocol_engine.md R112). -/
def nibbleWrites (n : BitVec 4) : List Act :=
  [.write .db7 (n.getLsbD 3), .write .db6 (n.getLsbD 2), .write .db5 (n.getLsbD 1), .write .db4 (n.getLsbD 0)]

/-- Number the lines of an operation's expansion from `k` on (10_state.md R35). -/
def numbered (op : Op) : Nat → List Act → List MicroStep
  | _, [] => []
  | k, a :: as => { inner := some { op := op, k := k }, act := a } :: numbered op (k + 1) as

/-- An operation's micro-steps preceded by its checks, which stand at k = 0 (60_exceptions.md R177). -/
def checked (op : Op) (checks : List Check) (acts : List Act) : List MicroStep :=
  checks.map (fun c => { inner := some { op := op, k := 0 }, act := .require c }) ++ numbered op 0 acts

end Sys2Proof.Machine
end

