-- ==== Sys2Proof/Machine/Flags.lean ====
section
/-! DEFINITION. The block has no flags (10_state.md R39). What its operations test are the status bits below, in the
checks of 60_exceptions.md R177. -/

namespace Sys2Proof.Machine

/-- Agent `a` holds the guard (43_session_lifecycle.md R147). -/
def State.holdsGuard (s : State) (a : Nat) : Bool := s.lockOwner == some a

/-- The check passes for agent `a`. -/
def Check.passes (a : Nat) (s : State) : Check → Bool
  | .guarded => s.holdsGuard a
  | .acquired => s.linesAcquired
  | .driven g => (s.line g).presents
  | .initFresh => !s.initDone

/-- The fault a check raises when it fails (60_exceptions.md R177). -/
def Check.code : Check → FaultCode
  | .guarded => .unguarded
  | .acquired => .transmitUnowned
  | .driven _ => .setLevelUnowned
  | .initFresh => .initTwice

end Sys2Proof.Machine
end

