-- ==== Sys2Proof/Machine/Micro.lean ====
section
/-! DEFINITION. What each line of an operation's expansion does, one micro-step of an agent, and a request run by its
agent with no other agent in between. -/

namespace Sys2Proof.Machine

/-- What performing an action comes to. -/
inductive Performed where
  /-- no step is taken: the next line follows at once -/
  | pass (l : Locals) (s : State)
  /-- one micro-step was taken -/
  | moved (l : Locals) (s : State)
  /-- one micro-step was taken; the rest of the expansion is replaced, and with it what the request returns -/
  | jump (rest : List MicroStep) (result : Option Result) (s : State)
  /-- no step is taken: these lines are the rest of the expansion and follow at once -/
  | branch (rest : List MicroStep) (s : State)
  /-- the agent has no step now -/
  | blocked
  /-- the action raises a fault -/
  | fault (c : FaultCode) (s : State)

/-- `ROLLBACK(got)`: the lines this call has claimed, last claimed first (40_pin_controller.md R93). -/
def rollback (got : List Sig) : List MicroStep :=
  got.reverse.map fun g => { inner := none, act := .giveBack g }

/-- The end of EV_CLOSE after its hardware action: `UNLOCK`, `sess[sid] <- Closed` (43_session_lifecycle.md R160). -/
def closeTail (sid : Nat) : List MicroStep :=
  checked .unlock [] [.unlock] ++ [{ inner := none, act := .sessClose sid }]

/-- The node's name "lcd" and mode 0666 (43_session_lifecycle.md R152, R168). -/
def nodeName : String := "lcd"

def nodeMode : Nat := 0o666

/-- The device's three callbacks (43_session_lifecycle.md R152, R167). -/
def callbacks : List Callback := [.onOpen, .onClose, .onControl]

/-- `HostRequestLine`; a refused one leads to the rollback (40_pin_controller.md R91). -/
def performRequest (g : Sig) (got : List Sig) (l : Locals) (s : State) : Performed :=
  if (s.tick 0).lineTaken ((s.tick 0).pin g) then
    .jump (rollback got) (some (.err .resourceUnavailable)) ((s.tick 0).denied g)
  else .moved l ((s.tick 0).grant g)

/-- HostReleaseLine in RELEASE, or UNOWNED_RELEASE (40_pin_controller.md R94, R95). -/
def performRelease (g : Sig) (l : Locals) (s : State) : Performed :=
  if (s.line g).own then .moved { l with releasing := true } ((s.tick 0).call (.releaseLine (s.pin g)))
  else
    match s.params.releaseUnowned with
    | .fault => .fault .releaseUnowned s
    | .noop => .pass { l with releasing := false } s

/-- The line after HostReleaseLine in RELEASE; after a skip there is none (40_pin_controller.md R94, R95). -/
def performUnclaim (g : Sig) (l : Locals) (s : State) : Performed :=
  if l.releasing then .moved { l with releasing := false } ((s.tick 0).unclaim g) else .pass l s

/-- LOCK (43_session_lifecycle.md R145). -/
def performLock (a : Nat) (l : Locals) (s : State) : Performed :=
  match s.lockOwner with
  | none => .moved l { s.tick 0 with lockOwner := some a }
  | some _ => .blocked

/-- UNLOCK (43_session_lifecycle.md R146). -/
def performUnlock (a : Nat) (l : Locals) (s : State) : Performed :=
  if s.holdsGuard a then .moved l { s.tick 0 with lockOwner := none } else .fault .unlockNotOwner s

/-- `registerDevice(name, {open, close, control}) -> registrationHandle` (43_session_lifecycle.md R152, R153). -/
def performRegisterDevice (l : Locals) (s : State) : Performed :=
  match s.registration with
  | some h =>
    .moved { l with handle := h } ((s.tick 0).askRegistration (.registerDevice s.params.deviceName callbacks (some h)))
  | none => .fault .registrationFailed (s.askRegistration (.registerDevice s.params.deviceName callbacks none))

/-- `createDeviceClass(name) -> classHandle`. -/
def performCreateClass (l : Locals) (s : State) : Performed :=
  match s.registration with
  | some h =>
    .moved { l with classHandle := h } ((s.tick 0).askRegistration (.createDeviceClass s.params.className (some h)))
  | none => .fault .registrationFailed (s.askRegistration (.createDeviceClass s.params.className none))

/-- `createDeviceNode(classHandle, "lcd", 0666)`. -/
def performCreateNode (l : Locals) (s : State) : Performed :=
  match s.registration with
  | some _ => .moved l ((s.tick 0).askRegistration (.createDeviceNode l.classHandle nodeName nodeMode true))
  | none => .fault .registrationFailed (s.askRegistration (.createDeviceNode l.classHandle nodeName nodeMode false))

/-- Perform one line of a request's expansion, for agent `a`. -/
def perform (a : Nat) (m : MicroStep) (l : Locals) (s : State) : Performed :=
  match m.act with
  | .require c => if c.passes a s then .pass l s else .fault c.code s
  | .beginInit => .pass l { s with initDone := true }
  | .request g got => performRequest g got l s
  | .claim g => .moved l ((s.tick 0).claim g)
  | .direct g => .moved l ((s.tick 0).driveLow g)
  | .giveBack g => .moved l ((s.tick 0).drop g)
  | .release g => performRelease g l s
  | .unclaim g => performUnclaim g l s
  | .write g v => .moved l ((s.tick 0).writeLevel g v)
  | .wait n => .moved l (s.tick n)
  | .lock => performLock a l s
  | .unlock => performUnlock a l s
  | .setAcquired b => .moved l { s.tick 0 with linesAcquired := b }
  | .registerDevice => performRegisterDevice l s
  | .createClass => performCreateClass l s
  | .createNode => performCreateNode l s
  | .setReg => .moved l { s.tick 0 with reg := some l.handle }
  | .setLoaded => .moved l { s.tick 0 with loaded := .loaded }
  | .destroyNode => .moved l ((s.tick 0).call .destroyDeviceNode)
  | .destroyClass => .moved l ((s.tick 0).call .destroyDeviceClass)
  | .unregister => .moved l ((s.tick 0).call (.unregisterDevice s.reg))
  | .clearLoad => .moved l { s.tick 0 with reg := none, loaded := .unloaded, initDone := false }
  | .ifLast sid => if s.openCount = 1 then .pass l s else .branch (closeTail sid) s
  | .sessOpen sid => .moved l { s.tick 0 with sess := setInsert sid s.sess }
  | .sessClose sid => .moved l { s.tick 0 with sess := setErase sid s.sess }

/-- The agent stands before the rest of its request; with nothing left, the request is over. -/
def settle (a : Nat) (t : Task) (s : State) : State :=
  match t.rest with
  | [] => s.finish a t.req t.result
  | _ :: _ => s.park a t

/-- One micro-step further in the request (10_state.md R35). -/
def Locals.step (l : Locals) : Locals := { l with k := l.k + 1 }

/-- A line of request `req` raises a fault: the entry names the operation the line belongs to and its place there, and
the agent stays at the request's own position (60_exceptions.md R178, R180; notes/assumptions/12.md). -/
def State.raiseAt (a : Nat) (req : Op) (l : Locals) (m : MicroStep) (c : FaultCode) (s : State) : State :=
  s.raise a { op := req, k := l.k } (m.inner.getD { op := req, k := l.k }) c

/-- One micro-step of an agent in the middle of a request: the lines that take no step pass, then one line is
performed; `onBranch` says what happens where a branch replaces the rest. An agent that is blocked stays where it is
(60_exceptions.md R181). -/
def advanceWith (onBranch : Task → State → State) (a : Nat) (req : Op) (result : Option Result) :
    List MicroStep → Locals → State → State
  | [], _, s => s.finish a req result
  | m :: ms, l, s =>
    match perform a m l s with
    | .pass l' s' => advanceWith onBranch a req result ms l' s'
    | .moved l' s' => settle a { req := req, result := result, loc := l'.step, rest := ms } s'
    | .jump rest result' s' => settle a { req := req, result := result', loc := l.step, rest := rest } s'
    | .branch rest s' => onBranch { req := req, result := result, loc := l, rest := rest } s'
    | .blocked => s.park a { req := req, result := result, loc := l, rest := m :: ms }
    | .fault c s' => s'.raiseAt a req l m c

/-- What is left after a branch holds no second one (it is the end of EV_CLOSE); were there one, the agent would stand
before it. -/
def advanceRest (a : Nat) (t : Task) (s : State) : State :=
  advanceWith (settle a) a t.req t.result t.rest t.loc s

/-- One micro-step of an agent executing this request. -/
def advance (a : Nat) (t : Task) (s : State) : State :=
  advanceWith (advanceRest a) a t.req t.result t.rest t.loc s

/-- An agent's micro-steps one after the other with no other agent in between, until the request is over, faults, or
blocks at a LOCK; `onJump` says what happens where the rest of the expansion is replaced. -/
def runWith (onJump : Task → State → State) (a : Nat) (req : Op) (result : Option Result) :
    List MicroStep → Locals → State → State
  | [], _, s => s.finish a req result
  | m :: ms, l, s =>
    match perform a m l s with
    | .pass l' s' => runWith onJump a req result ms l' s'
    | .moved l' s' => runWith onJump a req result ms l'.step s'
    | .jump rest result' s' => onJump { req := req, result := result', loc := l.step, rest := rest } s'
    | .branch rest s' => onJump { req := req, result := result, loc := l, rest := rest } s'
    | .blocked => s.park a { req := req, result := result, loc := l, rest := m :: ms }
    | .fault c s' => s'.raiseAt a req l m c

/-- What is left after the rest was replaced is not replaced again (it is a rollback, or the end of EV_CLOSE); were it,
the agent would stand before it. -/
def runRest (a : Nat) (t : Task) (s : State) : State :=
  runWith (settle a) a t.req t.result t.rest t.loc s

/-- A whole request, run by its agent (41_protocol_engine.md R123; notes/assumptions/13.md). -/
def runTask (a : Nat) (t : Task) (s : State) : State :=
  runWith (runRest a) a t.req t.result t.rest t.loc s

/-- What issuing a request comes to: a breach of a host duty is refused (43_session_lifecycle.md R165), anything else
is a task for the agent. -/
inductive Admission where
  | refuse (r : RefusalReason)
  | run (t : Task)

/-- A task at its first micro-step. -/
def Admission.task (req : Op) (result : Option Result) (rest : List MicroStep) : Admission :=
  .run { req := req, result := result, loc := Locals.start, rest := rest }

/-- The request issued and run to its end by the executing agent. An agent that is not idle takes no step here
(notes/assumptions/10.md). -/
def runAdmitted (ad : Admission) (s : State) : Host.Outcome State Fault Refusal :=
  match ad with
  | .refuse r => .next (s.refuse r)
  | .run t =>
    match s.agentState s.self with
    | none => .next (runTask s.self t s)
    | some (.running _) => .fault .agentBusy
    | some (.faulted _) => .fault .agentQuiescent

/-- The request issued, its agent standing at the first micro-step. -/
def beginAdmitted (ad : Admission) (s : State) : Host.Outcome State Fault Refusal :=
  match ad with
  | .refuse r => .next (s.refuse r)
  | .run t =>
    match s.agentState s.self with
    | none => .next (settle s.self t s)
    | some (.running _) => .fault .agentBusy
    | some (.faulted _) => .fault .agentQuiescent

end Sys2Proof.Machine
end

