-- ==== Sys2Proof/Machine/Guard.lean ====
section
/-! DEFINITION. LOCK and UNLOCK of the ConcurrencyGuard (43_session_lifecycle.md section 1). -/

namespace Sys2Proof.Machine

/-- The one micro-step of LOCK (43_session_lifecycle.md R145). -/
def lockSteps : List MicroStep := checked .lock [] [.lock]

/-- The one micro-step of UNLOCK (43_session_lifecycle.md R146). -/
def unlockSteps : List MicroStep := checked .unlock [] [.unlock]

/-- LOCK returns nothing (43_session_lifecycle.md R145). -/
def admitLock (_s : State) : Admission := .task .lock none lockSteps

/-- UNLOCK returns nothing (43_session_lifecycle.md R146). -/
def admitUnlock (_s : State) : Admission := .task .unlock none unlockSteps

/-- LOCK (43_session_lifecycle.md R145). -/
def execLock (s : State) : Host.Outcome State Fault Refusal := runAdmitted (admitLock s) s

/-- UNLOCK (43_session_lifecycle.md R146). -/
def execUnlock (s : State) : Host.Outcome State Fault Refusal := runAdmitted (admitUnlock s) s

end Sys2Proof.Machine
end

