-- ==== Sys2Proof/Machine/PinController.lean ====
section
/-! DEFINITION. ACQUIRE, RELEASE and SETLEVEL (40_pin_controller.md). -/

namespace Sys2Proof.Machine

/-- The requests of ACQUIRE in order, each with the signals claimed before it and followed by its own claim
(40_pin_controller.md R91). -/
def requestActs (got : List Sig) : List Sig → List Act
  | [] => []
  | g :: gs => .request g got :: .claim g :: requestActs (got ++ [g]) gs

/-- ACQUIRE(mask): every request first, then every direction (40_pin_controller.md R91, R92). It has no check (R99). -/
def acquireSteps (p : Params) (mask : BitVec 7) : List MicroStep :=
  numbered .acquire 0 (requestActs [] (chosen p mask) ++ (chosen p mask).map Act.direct)

/-- The two lines of RELEASE for each of these signals (40_pin_controller.md R94). -/
def releaseActs (gs : List Sig) : List Act := gs.flatMap fun g => [.release g, .unclaim g]

/-- RELEASE(mask): the guard check, then the masked lines (40_pin_controller.md R94). -/
def releaseSteps (p : Params) (mask : BitVec 7) : List MicroStep :=
  checked .release [.guarded] (releaseActs (chosen p mask))

/-- SETLEVEL(s, v): two checks and one WRITE (40_pin_controller.md R96, R97). -/
def setlevelSteps (g : Sig) (v : Bool) : List MicroStep :=
  checked .setlevel [.guarded, .driven g] [.write g v]

/-- ACQUIRE returns Ok, or ResourceUnavailable after a rollback (40_pin_controller.md R91, R93). -/
def admitAcquire (mask : BitVec 7) (s : State) : Admission :=
  .task .acquire (some .ok) (acquireSteps s.params mask)

/-- RELEASE returns nothing (40_pin_controller.md R94). -/
def admitRelease (mask : BitVec 7) (s : State) : Admission :=
  .task .release none (releaseSteps s.params mask)

/-- SETLEVEL returns nothing (40_pin_controller.md R96). -/
def admitSetlevel (g : Sig) (v : Bool) (_s : State) : Admission :=
  .task .setlevel none (setlevelSteps g v)

/-- ACQUIRE (40_pin_controller.md R91). -/
def execAcquire (mask : BitVec 7) (s : State) : Host.Outcome State Fault Refusal :=
  runAdmitted (admitAcquire mask s) s

/-- RELEASE (40_pin_controller.md R94). -/
def execRelease (mask : BitVec 7) (s : State) : Host.Outcome State Fault Refusal :=
  runAdmitted (admitRelease mask s) s

/-- SETLEVEL (40_pin_controller.md R96). -/
def execSetlevel (g : Sig) (v : Bool) (s : State) : Host.Outcome State Fault Refusal :=
  runAdmitted (admitSetlevel g v s) s

end Sys2Proof.Machine
end

