-- ==== Sys2Proof/Machine/ProtocolEngine.lean ====
section
/-! DEFINITION. TRANSMIT, DELAY_US and DELAY_MS (41_protocol_engine.md). -/

namespace Sys2Proof.Machine

/-- `PULSE()` (41_protocol_engine.md R111). -/
def pulseActs (p : Params) : List Act :=
  [.write .e true, .wait p.tEH, .write .e false, .wait p.tEL]

/-- The sixteen micro-steps of TRANSMIT: the high nibble and a pulse, the low nibble and a pulse
(41_protocol_engine.md R111, R112). -/
def transmitActs (p : Params) (w : Byte) : List Act :=
  nibbleWrites (hi w) ++ pulseActs p ++ nibbleWrites (lo w) ++ pulseActs p

/-- TRANSMIT(w): the guard check, the ownership check, the sixteen micro-steps (41_protocol_engine.md R111). -/
def transmitSteps (p : Params) (w : Byte) : List MicroStep :=
  checked .transmit [.guarded, .acquired] (transmitActs p w)

/-- TRANSMIT returns nothing (41_protocol_engine.md R111). -/
def admitTransmit (w : Byte) (s : State) : Admission :=
  .task .transmit none (transmitSteps s.params w)

/-- DELAY_US has no check and one wait (41_protocol_engine.md R114). -/
def admitDelayUs (n : BitVec 12) (_s : State) : Admission :=
  .task .delayUs none (checked .delayUs [] [.wait (us n)])

/-- DELAY_MS has no check and one wait (41_protocol_engine.md R115). -/
def admitDelayMs (n : BitVec 12) (_s : State) : Admission :=
  .task .delayMs none (checked .delayMs [] [.wait (ms n)])

/-- TRANSMIT (41_protocol_engine.md R111). -/
def execTransmit (w : Byte) (s : State) : Host.Outcome State Fault Refusal :=
  runAdmitted (admitTransmit w s) s

/-- DELAY_US (41_protocol_engine.md R114). -/
def execDelayUs (n : BitVec 12) (s : State) : Host.Outcome State Fault Refusal :=
  runAdmitted (admitDelayUs n s) s

/-- DELAY_MS (41_protocol_engine.md R115). -/
def execDelayMs (n : BitVec 12) (s : State) : Host.Outcome State Fault Refusal :=
  runAdmitted (admitDelayMs n s) s

end Sys2Proof.Machine
end

