-- ==== Sys2Proof/Machine/InitSequencer.lean ====
section
/-! DEFINITION. INIT_RUN, the power-on sequence (42_init_sequencer.md). -/

namespace Sys2Proof.Machine

/-- A wait of INIT_RUN at its step `k` (42_init_sequencer.md R130). -/
def initWait (k n : Nat) : List MicroStep := numbered .initRun k [.wait n]

/-- TRANSMIT of a table word (42_init_sequencer.md R130, R132). -/
def initTx (p : Params) (c : CmdName) : List MicroStep := transmitSteps p (p.rom.get c)

/-- The extra wait after the TRANSMIT at step `k` of init steps 3 and 4; with `T_CMD_GAP = 0` there is none
(42_init_sequencer.md R130; notes/assumptions/26.md). -/
def initGap (p : Params) (k : Nat) : List MicroStep := if p.tCmdGap = 0 then [] else initWait k p.tCmdGap

/-- Steps k = 3 to 10 of INIT_RUN: the startup pair, unmerged, and six commands (42_init_sequencer.md R130, R134). -/
def initCommands : List (Nat × CmdName) :=
  [(3, .startup1), (4, .startup2), (5, .functionset), (6, .displayoff), (7, .clear), (8, .entrymode), (9, .displayon),
    (10, .home)]

/-- The sixteen steps of INIT_RUN, k = 0 to 15 (42_init_sequencer.md R130). -/
def initSequence (p : Params) : List MicroStep :=
  initWait 0 p.tPON ++ initTx p .reset ++ initWait 2 p.tRST ++
    initCommands.flatMap (fun c => initTx p c.2 ++ initGap p c.1) ++
    setlevelSteps .rs true ++ initWait 12 p.tDPRE ++ initTx p .char ++ initWait 14 p.tDPOST ++ setlevelSteps .rs false

/-- INIT_RUN: the two checks, `initDone <- 1`, the sixteen steps (42_init_sequencer.md R130, R131). -/
def initRunSteps (p : Params) : List MicroStep :=
  checked .initRun [.guarded, .initFresh] [] ++ numbered .initRun 0 [.beginInit] ++ initSequence p

/-- INIT_RUN returns nothing (42_init_sequencer.md R133). -/
def admitInitRun (s : State) : Admission :=
  .task .initRun none (initRunSteps s.params)

/-- INIT_RUN (42_init_sequencer.md R130). -/
def execInitRun (s : State) : Host.Outcome State Fault Refusal :=
  runAdmitted (admitInitRun s) s

end Sys2Proof.Machine
end

