-- ==== Sys2Proof/Machine/Lifecycle.lean ====
section
/-! DEFINITION. The five host events (43_session_lifecycle.md sections 2 and 3). -/

namespace Sys2Proof.Machine

/-- Lines of an EV_* step list's own (43_session_lifecycle.md R150, R152, R155, R157, R160). -/
def eventLines (acts : List Act) : List MicroStep := acts.map fun x => { inner := none, act := x }

/-- EV_LOAD's step list; a failed ACQUIRE replaces all of it by the rollback (43_session_lifecycle.md R150 to R152). -/
def evLoadSteps (p : Params) : List MicroStep :=
  acquireSteps p allSignals ++ eventLines [.setAcquired true] ++ lockSteps ++ initRunSteps p ++ unlockSteps ++
    eventLines [.registerDevice, .createClass, .createNode, .setReg, .setLoaded]

/-- EV_UNLOAD's step list (43_session_lifecycle.md R155, R157). -/
def evUnloadSteps (p : Params) : List MicroStep :=
  lockSteps ++ transmitSteps p (p.rom.get .clear) ++ releaseSteps p allSignals ++
    eventLines [.setAcquired false] ++ unlockSteps ++ eventLines [.destroyNode, .destroyClass, .unregister, .clearLoad]

/-- The release of EV_CLOSE: every line, and `linesAcquired <- 0` (43_session_lifecycle.md R160). -/
def closeRelease (p : Params) : List MicroStep :=
  releaseSteps p allSignals ++ eventLines [.setAcquired false]

/-- EV_CLOSE's step list, by CLOSE_POLICY (43_session_lifecycle.md R160, R162). No line of it reads `linesAcquired`: the
table of 10_state.md R46 names EV_CLOSE (refcount) among its readers and the pseudocode of R160 tests `openCount` alone,
and the model follows the pseudocode, a DESIGN CHOICE (notes/assumptions/33.md). -/
def evCloseSteps (p : Params) (sid : Nat) : List MicroStep :=
  match p.closePolicy with
  | .reference => lockSteps ++ closeRelease p ++ closeTail sid
  | .refcount => lockSteps ++ eventLines [.ifLast sid] ++ closeRelease p ++ closeTail sid
  | .shutdownOnly => eventLines [.sessClose sid]

/-- The event if the host duty it rests on is kept, a refusal if not (43_session_lifecycle.md R165). -/
def underDuty (kept : Bool) (op : Op) (result : Option Result) (rest : List MicroStep) : Admission :=
  if kept then .task op result rest else .refuse (.hostDuty op)

/-- EV_LOAD is issued only while Unloaded; it returns Ok or ResourceUnavailable (43_session_lifecycle.md R150, R165). -/
def admitEvLoad (s : State) : Admission :=
  underDuty (s.loaded == .unloaded) .evLoad (some .ok) (evLoadSteps s.params)

/-- EV_UNLOAD is issued only while Loaded with every session Closed; it returns no error (R155, R165). -/
def admitEvUnload (s : State) : Admission :=
  underDuty (s.loaded == .loaded && s.openCount == 0) .evUnload none (evUnloadSteps s.params)

/-- EV_OPEN is issued only while Loaded, of a Closed session; it always succeeds, without the guard (R158, R165). An
identifier outside 0 to MAX_SESSIONS - 1 names no session, so none that is Closed (notes/assumptions/25.md). -/
def admitEvOpen (sid : Byte) (s : State) : Admission :=
  underDuty (s.loaded == .loaded && s.isSession (sidOf sid) && !s.isOpen (sidOf sid)) .evOpen (some .ok)
    (eventLines [.sessOpen (sidOf sid)])

/-- EV_CLOSE is issued only while Loaded, of an Open session (R160, R165). -/
def admitEvClose (sid : Byte) (s : State) : Admission :=
  underDuty (s.loaded == .loaded && s.isOpen (sidOf sid)) .evClose (some .ok) (evCloseSteps s.params (sidOf sid))

/-- EV_CONTROL is issued only while Loaded; it returns InvalidArgument, always, and does nothing else (R163, R164). -/
def admitEvControl (_sid : Byte) (s : State) : Admission :=
  underDuty (s.loaded == .loaded) .evControl (some (.err .invalidArgument)) []

/-- EV_LOAD (43_session_lifecycle.md R150). -/
def execEvLoad (s : State) : Host.Outcome State Fault Refusal := runAdmitted (admitEvLoad s) s

/-- EV_UNLOAD (43_session_lifecycle.md R155). -/
def execEvUnload (s : State) : Host.Outcome State Fault Refusal := runAdmitted (admitEvUnload s) s

/-- EV_OPEN (43_session_lifecycle.md R158). -/
def execEvOpen (sid : Byte) (s : State) : Host.Outcome State Fault Refusal := runAdmitted (admitEvOpen sid s) s

/-- EV_CLOSE (43_session_lifecycle.md R160). -/
def execEvClose (sid : Byte) (s : State) : Host.Outcome State Fault Refusal := runAdmitted (admitEvClose sid s) s

/-- EV_CONTROL (43_session_lifecycle.md R163). -/
def execEvControl (sid : Byte) (s : State) : Host.Outcome State Fault Refusal := runAdmitted (admitEvControl sid s) s

end Sys2Proof.Machine
end

