-- ==== Sys2Proof/Machine/ReservedRows.lean ====
section
/-! DEFINITION. The two reserved rows of the table (30_encoding.md R84): the request is refused and has no step. -/

namespace Sys2Proof.Machine

/-- Reserved(op) (30_encoding.md R81, 60_exceptions.md R182). -/
def admitReserved0 (_low : BitVec 12) (_s : State) : Admission := .refuse (.reserved .op)

/-- Reserved(op) (30_encoding.md R81, 60_exceptions.md R182). -/
def admitReservedF (_low : BitVec 12) (_s : State) : Admission := .refuse (.reserved .op)

/-- RESERVED_0: `refused` is set, no step (30_encoding.md R84). -/
def execReserved0 (low : BitVec 12) (s : State) : Host.Outcome State Fault Refusal :=
  runAdmitted (admitReserved0 low s) s

/-- RESERVED_F: `refused` is set, no step (30_encoding.md R84). -/
def execReservedF (low : BitVec 12) (s : State) : Host.Outcome State Fault Refusal :=
  runAdmitted (admitReservedF low s) s

end Sys2Proof.Machine
end

