-- ==== Sys2Proof/Machine/Admit.lean ====
section
/-! DEFINITION. Issuing a request of any kind: what each instruction's meaning starts from, for an agent whose
micro-steps may interleave with those of others. -/

namespace Sys2Proof.Machine

/-- What issuing the request comes to. -/
def admission (i : Instr) (s : State) : Admission :=
  match i with
  | .acquire mask => admitAcquire mask s
  | .release mask => admitRelease mask s
  | .setlevel g v => admitSetlevel g v s
  | .transmit w => admitTransmit w s
  | .delayUs n => admitDelayUs n s
  | .delayMs n => admitDelayMs n s
  | .lock => admitLock s
  | .unlock => admitUnlock s
  | .initRun => admitInitRun s
  | .evLoad => admitEvLoad s
  | .evUnload => admitEvUnload s
  | .evOpen sid => admitEvOpen sid s
  | .evClose sid => admitEvClose sid s
  | .evControl sid => admitEvControl sid s
  | .reserved0 low => admitReserved0 low s
  | .reservedF low => admitReservedF low s

/-- The request issued, its agent standing at the first micro-step (10_state.md R35: `k` starts at 0). -/
def begin (i : Instr) (s : State) : Host.Outcome State Fault Refusal :=
  beginAdmitted (admission i s) s

end Sys2Proof.Machine
end

