-- ==== Sys2Proof/Machine/Dispatch.lean ====
section
/-! DEFINITION. The one dispatch from an instruction to its meaning. -/

namespace Sys2Proof.Machine

def exec (i : Instr) (s : State) : Host.Outcome State Fault Refusal :=
  match i with
  | .acquire mask => Sys2Proof.Machine.execAcquire mask s
  | .release mask => Sys2Proof.Machine.execRelease mask s
  | .setlevel g v => Sys2Proof.Machine.execSetlevel g v s
  | .transmit w => Sys2Proof.Machine.execTransmit w s
  | .delayUs n => Sys2Proof.Machine.execDelayUs n s
  | .delayMs n => Sys2Proof.Machine.execDelayMs n s
  | .lock => Sys2Proof.Machine.execLock s
  | .unlock => Sys2Proof.Machine.execUnlock s
  | .initRun => Sys2Proof.Machine.execInitRun s
  | .evLoad => Sys2Proof.Machine.execEvLoad s
  | .evUnload => Sys2Proof.Machine.execEvUnload s
  | .evOpen sid => Sys2Proof.Machine.execEvOpen sid s
  | .evClose sid => Sys2Proof.Machine.execEvClose sid s
  | .evControl sid => Sys2Proof.Machine.execEvControl sid s
  | .reserved0 low => Sys2Proof.Machine.execReserved0 low s
  | .reservedF low => Sys2Proof.Machine.execReservedF low s

end Sys2Proof.Machine
end

