-- ==== Sys2Proof/Machine/Fetch.lean ====
section
/-! DEFINITION. Who moves next, fetching a pending request, one micro-step of an agent, and a change of foreign
owners. -/

namespace Sys2Proof.Machine

/-- Who moves at this step. -/
def State.turn (s : State) : Turn := s.turns.head Config.freeTurn

/-- The state with this step's turn taken from the schedule. -/
def State.afterTurn (s : State) : State := { s with turns := s.turns.advance }

/-- The pending request that can be issued now: the next one, when its agent is idle (00_scope.md R17). -/
def State.nextRequest (s : State) : Option Request :=
  match s.requests with
  | [] => none
  | r :: _ => if s.idle r.agent then some r else none

/-- The request is taken from the pending ones and its agent is the executing one. -/
def State.issue (r : Request) (s : State) : State :=
  { s with requests := s.requests.tail, self := r.agent }

/-- Decode the request's word and hand it to its meaning; a reserved word is refused and has no step
(30_encoding.md R84, 60_exceptions.md R182). -/
def runRequest (meaning : Instr → State → Host.Outcome State Fault Refusal) (r : Request) (s : State) :
    Host.Outcome State Fault Refusal :=
  match decode r.word with
  | .instr i => meaning i (s.issue r)
  | .reserved why => .next ((s.issue r).refuse (.reserved why))

/-- One turn for the next pending request; with none to issue, the turn passes (notes/assumptions/10.md). -/
def requestTurn (meaning : Instr → State → Host.Outcome State Fault Refusal) (s : State) :
    Host.Outcome State Fault Refusal :=
  match s.nextRequest with
  | some r => runRequest meaning r s
  | none => .next s

/-- One turn of an agent: a micro-step if it is in the middle of a request, nothing if it is idle or quiescent. -/
def agentTurn (a : Nat) (s : State) : State :=
  match s.agentState a with
  | some (.running t) => advance a t s
  | some (.faulted _) => s
  | none => s

/-- The environment takes or gives back a line the block does not own (10_state.md R40). -/
def foreignTurn (n : Nat) (held : Bool) (s : State) : State :=
  if s.ownsLine n then s
  else { s with foreign := if held then setInsert n s.foreign else setErase n s.foreign }

/-- What the turn does. -/
def takeTurn (t : Turn) (s : State) : Host.Outcome State Fault Refusal :=
  match t with
  | .whole => requestTurn exec s
  | .begin => requestTurn begin s
  | .agent a => .next (agentTurn a s)
  | .foreign n held => .next (foreignTurn n held s)

/-- The word of the table's `nbits` bits `w`, every higher bit 0 (30_encoding.md R70). -/
def tableWord (nbits w : Nat) : Word := BitVec.ofNat 16 (w % 2 ^ nbits)

/-- An agent that can be given a request: the executing one if it is idle, else one past every agent there is. -/
def State.freeAgent (s : State) : Nat :=
  if s.idle s.self then s.self else (s.agents.map Prod.fst).foldr max 0 + 1

/-- Put a request where the next step takes it, and the turn that issues it. -/
def State.placeRequest (q : Word) (s : State) : State :=
  { s with
    requests := { agent := s.freeAgent, word := q, arg := 0 } :: s.requests
    turns := { given := .whole :: s.turns.given, drawn := s.turns.drawn } }

end Sys2Proof.Machine
end

