-- ==== Sys2Proof/Machine/Step.lean ====
section
/-! DEFINITION. The step of the machine. -/

namespace Sys2Proof.Machine

/-- One step: the schedule says who moves, and that one moves (60_exceptions.md R183). -/
def step (s : State) : Host.Outcome State Fault Refusal :=
  takeTurn s.turn s.afterTurn

/-- The state whose very next step runs the instruction of the table's `nbits` bits `w`: a pending request with that
word, and the turn that issues it (notes/assumptions/16.md). -/
def State.withFetchWord (s : State) (nbits w : Nat) : State :=
  s.placeRequest (tableWord nbits w)

end Sys2Proof.Machine
end

