-- ==== Sys2Proof/Machine/Observe.lean ====
section
/-! DEFINITION. What is read off the pin trace: the levels and holdings it leaves, and the latched-nibble sequence
(10_state.md R45). -/

namespace Sys2Proof.Machine

/-- What the events so far leave at the pins, and the time of the last E rise if no E event followed it. -/
structure Wire where
  own : PerSig Bool
  lvl : PerSig Level
  rise : Option Nat
deriving DecidableEq, Repr

/-- Before the first event: nothing held, nothing driven. -/
def Wire.start : Wire := { own := PerSig.of fun _ => false, lvl := PerSig.of fun _ => .z, rise := none }

/-- The E rise pending after a Drive event (10_state.md R45). -/
def Wire.riseAfter (w : Wire) (t : Nat) (s : Sig) (v : Bool) : Option Nat :=
  if s = .e then (if v then some t else none) else w.rise

/-- The pins after one more event (10_state.md R43). -/
def Wire.after (w : Wire) : Event → Wire
  | .own _ s => { w with own := w.own.set s true }
  | .drive t s v => { w with lvl := w.lvl.set s (Level.ofBit v), rise := w.riseAfter t s v }
  | .free _ s => { w with own := w.own.set s false, lvl := w.lvl.set s .z }

/-- The pins after a run of events. -/
def Wire.afterAll (w : Wire) (evs : List Event) : Wire := evs.foldl Wire.after w

/-- One latch: its time, the levels on RS, RW and DB7 to DB4, and the E-high duration (10_state.md R45,
30_encoding.md R69). A level the block does not drive is recorded as Z. -/
structure Latch where
  t : Nat
  rs : Level
  rw : Level
  db7 : Level
  db6 : Level
  db5 : Level
  db4 : Level
  high : Nat
deriving DecidableEq, Repr

/-- The latch at time `t` of the levels that stand, E high since `up`. -/
def Wire.latch (w : Wire) (t up : Nat) : Latch :=
  { t := t, rs := w.lvl.get .rs, rw := w.lvl.get .rw, db7 := w.lvl.get .db7, db6 := w.lvl.get .db6,
    db5 := w.lvl.get .db5, db4 := w.lvl.get .db4, high := t - up }

/-- A falling edge of E latches (10_state.md R45; notes/assumptions/18.md). -/
def Wire.latched (w : Wire) : Event → List Latch
  | .drive t .e false =>
    match w.rise with
    | some up => [w.latch t up]
    | none => []
  | .drive _ _ _ => []
  | .own _ _ => []
  | .free _ _ => []

/-- The latches of a run of events that starts at these pins. -/
def Wire.latches (w : Wire) : List Event → List Latch
  | [] => []
  | ev :: evs => w.latched ev ++ (w.after ev).latches evs

/-- `latches(trace)` (10_state.md R45). -/
def latches (trace : List Event) : List Latch := Wire.start.latches trace

/-- The latch sequence of the state's trace. -/
def State.latches (s : State) : List Latch := Machine.latches s.trace

/-- What the controller is sent by one latch, apart from its times: `(rs, n)` of 30_encoding.md R69, with RW. -/
structure Nibble where
  rs : Level
  rw : Level
  db7 : Level
  db6 : Level
  db5 : Level
  db4 : Level
deriving DecidableEq, Repr

/-- A latch without its times. -/
def Latch.nibble (l : Latch) : Nibble :=
  { rs := l.rs, rw := l.rw, db7 := l.db7, db6 := l.db6, db5 := l.db5, db4 := l.db4 }

/-- The latch of a nibble under given RS and RW levels (30_encoding.md R66, R69). -/
def nibbleAt (rs rw : Level) (n : BitVec 4) : Nibble :=
  { rs := rs, rw := rw, db7 := Level.ofBit (n.getLsbD 3), db6 := Level.ofBit (n.getLsbD 2),
    db5 := Level.ofBit (n.getLsbD 1), db4 := Level.ofBit (n.getLsbD 0) }

/-- The two bus transfers of a CommandWord (30_encoding.md R69). -/
def wordNibbles (rs rw : Level) (w : Byte) : List Nibble := [nibbleAt rs rw (hi w), nibbleAt rs rw (lo w)]

/-- The time of an event. -/
def Event.time : Event → Nat
  | .own t _ => t
  | .drive t _ _ => t
  | .free t _ => t

/-- An event apart from its time. -/
inductive Edge where
  | own (s : Sig)
  | drive (s : Sig) (v : Bool)
  | free (s : Sig)
deriving DecidableEq, Repr

/-- Take the time off an event. -/
def Event.edge : Event → Edge
  | .own _ s => .own s
  | .drive _ s v => .drive s v
  | .free _ s => .free s

/-- The pin events in order, without their times. -/
def State.edges (s : State) : List Edge := s.trace.map Event.edge

end Sys2Proof.Machine
end

