-- ==== Sys2Proof/Safety.lean ====
section
/-! DEFINITION. What counts as a consistent state, a safe and successful end, and the words the statements use. -/

namespace Sys2Proof.Machine

/-! ### Consistency of the state -/

/-- 10_state.md R25 and R26, for one line: a level is presented exactly on an owned line set to output. -/
abbrev Line.Consistent (l : Line) : Prop :=
  (l.own = false → l.dir = .unset) ∧ (l.dir = .unset → l.lvl = .z) ∧ (l.dir = .output → l.lvl ≠ .z)

/-- 10_state.md R26, for all seven lines. -/
def State.LinesConsistent (s : State) : Prop := ∀ g, (s.line g).Consistent

/-- The pins the trace leaves are the state's own (10_state.md R43). -/
def State.TraceAccounts (s : State) : Prop :=
  (∀ g, (Wire.start.afterAll s.trace).own.get g = (s.line g).own) ∧
    ∀ g, (Wire.start.afterAll s.trace).lvl.get g = (s.line g).lvl

/-- Pin events stand in the order of their times, none later than `now` (10_state.md R36, 20_memory.md R58). -/
def State.TimesOrdered (s : State) : Prop :=
  (s.trace.map Event.time).Pairwise (· ≤ ·) ∧ ∀ ev ∈ s.trace, ev.time ≤ s.now

/-- The sets and the agent map are in their one canonical form, and every session that is open, or that a request in
progress is about to open, has an identifier below MAX_SESSIONS (notes/assumptions/17.md). -/
def State.Canonical (s : State) : Prop :=
  setWf s.sess ∧ setWf s.foreign ∧ mapWf s.agents ∧ (∀ n ∈ s.sess, n < s.params.maxSessions) ∧
    ∀ a t, (a, .running t) ∈ s.agents → ∀ m ∈ t.rest, ∀ n, m.act = .sessOpen n → n < s.params.maxSessions

/-- The rest of a request keeps the guard rule of 43_session_lifecycle.md R147: with `held` saying whether the agent
holds the guard now, every level write, release of a line and start of INIT_RUN stands where the guard is held. -/
def guardOk : Bool → List MicroStep → Bool
  | _, [] => true
  | held, m :: ms =>
    match m.act with
    | .require .guarded => guardOk true ms
    | .lock => guardOk true ms
    | .unlock => guardOk false ms
    | .write _ _ => held && guardOk held ms
    | .release _ => held && guardOk held ms
    | .unclaim _ => held && guardOk held ms
    | .beginInit => held && guardOk held ms
    | _ => guardOk held ms

/-- Every agent in the middle of a request holds the guard where its rest needs it (20_memory.md R59). -/
def State.GuardDiscipline (s : State) : Prop :=
  mapWf s.agents ∧ ∀ a t, (a, .running t) ∈ s.agents → guardOk (s.holdsGuard a) t.rest = true

/-- All seven lines are owned and output. -/
def State.AllDriven (s : State) : Prop := ∀ g, (s.line g).presents = true

/-- No line is owned. -/
def State.NoneOwned (s : State) : Prop := ∀ g, (s.line g).own = false

/-- Invariants I1 and I2 outside an executing ACQUIRE or RELEASE (10_state.md R28, R29): the seven lines are held as
one group, and `linesAcquired` is set only while they are. -/
def State.GroupHeld (s : State) : Prop :=
  (s.AllDriven ∨ s.NoneOwned) ∧ (s.linesAcquired = true → s.AllDriven)

/-! ### Ends of a run -/

/-- The agent stands at a LOCK (43_session_lifecycle.md R145). -/
def State.atLock (s : State) (a : Nat) : Bool :=
  match s.agentState a with
  | some (.running t) =>
    match t.rest with
    | m :: _ => m.act == .lock
    | [] => false
  | some (.faulted _) => false
  | none => false

/-- An agent that is not idle and has no enabled step: it stands at a LOCK while the guard is held
(60_exceptions.md R181). -/
def State.stuck (s : State) (a : Nat) : Bool := s.atLock a && s.lockOwner.isSome

/-- The successful end of a run (60_exceptions.md R193). An agent is done when it is idle; whether a request that is still
pending, and so not issued, keeps its agent from being done the spec leaves open, and here it does not, a DESIGN CHOICE
(notes/assumptions/34.md). -/
def State.successfulEnd (s : State) : Bool :=
  s.agents.isEmpty && s.faults.isEmpty && !s.refused && s.lockOwner.isNone

/-- The operation a request executes; the reserved rows have none (30_encoding.md R79, R84). -/
def requestOp : Instr → Option Op
  | .acquire _ => some .acquire
  | .release _ => some .release
  | .setlevel _ _ => some .setlevel
  | .transmit _ => some .transmit
  | .delayUs _ => some .delayUs
  | .delayMs _ => some .delayMs
  | .lock => some .lock
  | .unlock => some .unlock
  | .initRun => some .initRun
  | .evLoad => some .evLoad
  | .evUnload => some .evUnload
  | .evOpen _ => some .evOpen
  | .evClose _ => some .evClose
  | .evControl _ => some .evControl
  | .reserved0 _ => none
  | .reservedF _ => none

/-! ### Runs and their fairness -/

/-- The states of an endless run, one step after the other. -/
def IsRun (r : Nat → State) : Prop := ∀ n, step (r n) = .next (r (n + 1))

/-- The agent's LOCK is enabled: it stands at one and the guard is free (43_session_lifecycle.md R145). -/
def State.lockEnabled (s : State) (a : Nat) : Bool := s.atLock a && s.lockOwner.isNone

/-- What 20_memory.md R62 assumes of the scheduler, and all it assumes: an agent whose LOCK is enabled infinitely often
eventually takes it. It bounds no wait. It is a property of an endless run, so it is a premise a statement about such
runs takes and no rule of the step (notes/assumptions/29.md). -/
def WeaklyFair (r : Nat → State) : Prop :=
  ∀ a, (∀ n, ∃ m, n ≤ m ∧ (r m).lockEnabled a = true) →
    ∀ n, ∃ m, n ≤ m ∧ (r m).lockEnabled a = true ∧ (r (m + 1)).lockOwner = some a

/-! ### Premises -/

/-- The executing agent can run its request: it is idle. -/
def State.Ready (s : State) : Prop := s.agentState s.self = none

/-- The executing agent holds the guard. -/
def State.Guarded (s : State) : Prop := s.lockOwner = some s.self

/-- The host accepts the next `n` level writes (10_state.md R42). -/
def State.Accepting (s : State) (n : Nat) : Prop := ∀ k, k < n → s.answers.nth Config.freeAnswer k = true

/-- The host grants the three registration calls (43_session_lifecycle.md R153). -/
def State.Registering (s : State) : Prop := ∀ k, k < 3 → (s.registrations.nth Config.freeRegistration k).isSome = true

/-- Every line of the mask can be claimed: no foreign owner holds it, and the block neither owns it nor has it granted to
a request in progress (10_state.md R41). -/
def State.Claimable (s : State) (mask : BitVec 7) : Prop :=
  ∀ g, selects mask g = true → s.pin g ∉ s.foreign ∧ (s.line g).held = false

/-- The lines carry levels the block presents, with RS, RW and E as given. -/
def State.Levels (s : State) (rs rw e : Level) : Prop :=
  (s.line .rs).lvl = rs ∧ (s.line .rw).lvl = rw ∧ (s.line .e).lvl = e

/-! ### Frames -/

/-- The driver's fields apart from the guard are unchanged. -/
def SameDriver (s t : State) : Prop :=
  t.linesAcquired = s.linesAcquired ∧ t.reg = s.reg ∧ t.loaded = s.loaded ∧ t.initDone = s.initDone ∧ t.sess = s.sess

/-- What no request writes at all: the launch state, the refusals, and the inputs other than the draws. -/
def SameLaunch (s t : State) : Prop :=
  t.foreign = s.foreign ∧ t.params = s.params ∧ t.self = s.self ∧ t.requests = s.requests ∧ t.turns = s.turns

/-- Nothing of the line but its level has changed. -/
def SameButLevel (l m : Line) : Prop := m = { l with lvl := m.lvl }

/-- The lines and their trace are unchanged. -/
def SamePins (s t : State) : Prop := t.lines = s.lines ∧ t.trace = s.trace

/-- No agent but `a` has changed. -/
def SameOthers (a : Nat) (s t : State) : Prop := ∀ b, b ≠ a → t.agentState b = s.agentState b

/-- No fault, no refusal and no result has been added, and the free draws other than durations are as they were. -/
def SameLogs (s t : State) : Prop :=
  t.faults = s.faults ∧ t.refusals = s.refusals ∧ t.results = s.results

/-- Everything but the lines, the trace, the clock, the host calls and the draws is unchanged: what an operation of the
pin controller or the protocol engine leaves alone, whatever it does at the pins. -/
def SameApartFromPins (s t : State) : Prop :=
  SameDriver s t ∧ SameLogs s t ∧ SameLaunch s t ∧ t.lockOwner = s.lockOwner ∧ t.agents = s.agents

/-- A call about a line, not about registration. -/
def HostCall.isLineCall : HostCall → Bool
  | .requestLine _ _ _ => true
  | .releaseLine _ => true
  | .setDirection _ => true
  | .setLevel _ _ _ => true
  | _ => false

/-- The fault an operation of this agent has just recorded: one entry more, at the present time, and the agent is
quiescent at its own position `pc`; `site` is the operation and micro-step that raised it (60_exceptions.md R178, R180). -/
def FaultsAt (s t : State) (code : FaultCode) (pc site : Pc) : Prop :=
  t.faults = s.faults ++ [{ code := code, agent := s.self, pc := site, now := t.now }] ∧
    t.agentState s.self = some (.faulted pc)

/-- The event is a Drive of a data line. -/
def Event.isData : Event → Bool
  | .drive _ g _ => g == .db7 || g == .db6 || g == .db5 || g == .db4
  | .own _ _ => false
  | .free _ _ => false

/-- E rose for this latch at `n` or later: its E-high time fits between `n` and its fall (10_state.md R45). -/
def Latch.RisesFrom (l : Latch) (n : Nat) : Prop := n + l.high ≤ l.t

/-- The two latches of a CommandWord keep the floor of 41_protocol_engine.md R120: E high at least T_EH in each pulse, and
the second rise at least T_EL after the first fall. -/
def PulseFloor (p : Params) (w : Latch × Latch) : Prop :=
  p.tEH ≤ w.1.high ∧ p.tEH ≤ w.2.high ∧ w.2.RisesFrom (w.1.t + p.tEL)

/-- The four data lines with the nibble's bits, in the order they are written (41_protocol_engine.md R112). -/
def nibbleLevels (n : BitVec 4) : List (Sig × Bool) :=
  [(.db7, n.getLsbD 3), (.db6, n.getLsbD 2), (.db5, n.getLsbD 1), (.db4, n.getLsbD 0)]

/-- The twelve level writes of a TRANSMIT (41_protocol_engine.md R112). -/
def transmitLevels (w : Byte) : List (Sig × Bool) :=
  nibbleLevels (hi w) ++ [(.e, true), (.e, false)] ++ nibbleLevels (lo w) ++ [(.e, true), (.e, false)]

/-- HostSetLevel calls with these levels, in order, each with the answer drawn for it on a line the block presents a
level on (10_state.md R42; notes/assumptions/4.md, 8.md). -/
def State.levelCalls (s : State) (ws : List (Sig × Bool)) : List HostCall :=
  ws.mapIdx fun j w =>
    .setLevel (s.pin w.1) w.2 (s.answers.nth Config.freeAnswer j && (s.line w.1).presents)

/-- The lines ACQUIRE claims before the first request that fails: none are left when no request fails. -/
def State.claimedBefore (s : State) (mask : BitVec 7) : List Sig :=
  (chosen s.params mask).takeWhile fun g => !s.lineTaken (s.pin g)

/-- The trace has grown by events with these edges. -/
def GainsEdges (s t : State) (es : List Edge) : Prop := t.edges = s.edges ++ es

end Sys2Proof.Machine
end

