-- ==== Sys2Proof/Certificates/Slice0/Obligations.lean ====
section
/-! DEFINITION. The statements for the provers. -/

open Sys2Proof Sys2Proof.Machine

/-! ### Decoding and encoding -/

/-- 30_encoding.md R71, R79, R81: decoding an instruction's word gives the instruction back, with every operand. -/
def Obligations.DecodeEncodeGivesInstrBack : Prop :=
  ∀ i : Instr, decode (encode i) = .instr i

/-- 30_encoding.md R79, R81: a word that decodes to an instruction is that instruction's only word. -/
def Obligations.EncodeDecodeGivesWordBack : Prop :=
  ∀ (q : Word) (i : Instr), decode q = .instr i → encode i = q

/-- 30_encoding.md R80: a word whose opcode selects a row but which sets a must-be-zero bit is reserved. -/
def Obligations.MustBeZeroBitsAreReserved : Prop :=
  ∀ (q : Word) (o : Op), q.extractLsb' 12 4 = o.code → q &&& o.rowMask ≠ o.rowMatch → decode q = .reserved .mbz

/-- 30_encoding.md R79, R81, R84: a word decodes to a legal request exactly when its opcode selects a row, no
must-be-zero bit is set, and a SETLEVEL does not name signal 7. -/
def Obligations.LegalWordsAreTheRows : Prop :=
  ∀ q : Word,
    (∃ i, decode q = .instr i ∧ i.wellFormed = true) ↔
      ∃ o : Op, q.extractLsb' 12 4 = o.code ∧ q &&& o.rowMask = o.rowMatch ∧
        (o = .setlevel → q.extractLsb' 8 3 ≠ 7#3)

/-- 30_encoding.md R79: words written out from the opcode map decode to what they stand for. -/
def Obligations.SpecWordsDecode : Prop :=
  decode 0b0001000001111111#16 = .instr (.acquire 0x7F#7) ∧
    decode 0b0010000000000100#16 = .instr (.release 0x04#7) ∧
    decode 0b0011011000000001#16 = .instr (.setlevel .db7 true) ∧
    decode 0b0100000010100101#16 = .instr (.transmit 0xA5#8) ∧
    decode 0b0110000000100011#16 = .instr (.delayMs 35#12) ∧
    decode 0b0111000000000000#16 = .instr .lock ∧
    decode 0b1001000000000000#16 = .instr .initRun ∧
    decode 0b1101000000000111#16 = .instr (.evClose 7#8) ∧
    decode 0b0011011100000000#16 = .reserved .sig7

/-- 30_encoding.md R84, 60_exceptions.md R182: a request whose word is reserved sets `refused` with its reason and has
no step: nothing else changes but that the turn and the request are taken; and the meaning of the two reserved rows is
the refusal Reserved(op) in every state, and nothing else. The rows as constructors and the refusal as a next state are
the model's (notes/assumptions/11.md, 20.md). -/
def Obligations.ReservedRequestsAreRefused : Prop :=
  (∀ (s : State) (r : Request) (why : Reserved), s.turn = .whole ∨ s.turn = .begin →
    s.afterTurn.nextRequest = some r →
    (decode r.word = .reserved why ∨ (∃ i, decode r.word = .instr i ∧ i.wellFormed = false) ∧ why = .op) →
    step s = .next ((s.afterTurn.issue r).refuse (.reserved why)) ∧
      ((s.afterTurn.issue r).refuse (.reserved why)).refused = true) ∧
  ∀ (s : State) (low : BitVec 12),
    exec (.reserved0 low) s = .next { s with refusals := s.refusals ++ [.reserved .op] } ∧
      exec (.reservedF low) s = .next { s with refusals := s.refusals ++ [.reserved .op] }

/-! ### The step -/

/-- A turn for the next pending request runs the instruction its word decodes to, as its agent, after the turn and the
request have been taken; a `begin` turn leaves the agent at the first micro-step instead. The turns are the model's
form of 60_exceptions.md R183 (notes/assumptions/6.md, 13.md). -/
def Obligations.StepRunsDecodedInstruction : Prop :=
  ∀ (s : State) (r : Request) (i : Instr), s.afterTurn.nextRequest = some r → decode r.word = .instr i →
    (s.turn = .whole → step s = exec i (s.afterTurn.issue r)) ∧
      (s.turn = .begin → step s = begin i (s.afterTurn.issue r))

/-- notes/assumptions/16.md: a placed table word is what the very next step runs, in the state otherwise unchanged but
for the executing agent. -/
def Obligations.PlacedWordRunsNext : Prop :=
  ∀ (s : State) (nbits w : Nat) (i : Instr), decodeTableWord nbits w = some i →
    step (s.withFetchWord nbits w) = exec i { s with self := s.freeAgent } ∧ s.idle s.freeAgent = true

/-- 10_state.md R35, notes/assumptions/13.md: a request run whole is its agent's micro-steps, one after the other: from
the state in which the agent stands at the first one, some number of turns of that agent gives the same state, and
before the turn number j, counted from 0, the agent stands at k = j of the request. -/
def Obligations.WholeRunIsItsMicroSteps : Prop :=
  ∀ (i : Instr) (s t : State), s.Ready → exec i s = .next t →
    ∃ u n, begin i s = .next u ∧ (agentTurn s.self)^[n] u = t ∧
      ∀ j, j < n → ((agentTurn s.self)^[j] u).pcOf s.self = (requestOp i).map fun op => { op := op, k := j }

/-- 10_state.md R35: whatever turn is taken, an agent in the middle of a request moves only at its own, and there k
advances by exactly 1 and the request stays the same, unless the request ends (the agent is idle), faults where it
stands, or the agent waits at a LOCK that does not let it on (60_exceptions.md R181). That k counts the micro-steps of
the whole request, the operations it is made of included, is the model's reading (notes/assumptions/12.md). -/
def Obligations.PositionAdvancesByOne : Prop :=
  ∀ (s t : State) (a : Nat) (task : Task),
    mapWf s.agents → s.agentState a = some (.running task) → step s = .next t →
    (s.turn ≠ .agent a → t.agentState a = s.agentState a) ∧
      (s.turn = .agent a →
        t.pcOf a = some { op := task.req, k := task.loc.k + 1 } ∨ t.agentState a = none ∨
          t.agentState a = some (.faulted task.pc) ∨ t.stuck a = true ∧ t.pcOf a = s.pcOf a)

/-- 60_exceptions.md R180: a faulted agent takes no further step, whatever turn it is given. A turn given to it passes
(notes/assumptions/10.md). -/
def Obligations.FaultedAgentTakesNoStep : Prop :=
  ∀ (s : State) (a : Nat) (pc : Pc), s.agentState a = some (.faulted pc) →
    (s.turn = .agent a → step s = .next s.afterTurn) ∧
      ∀ r rs, s.requests = r :: rs → r.agent = a → s.turn = .whole ∨ s.turn = .begin → step s = .next s.afterTurn

/-- 10_state.md R40: the environment's turn changes who holds a line only when the block does not own it, and nothing
else. That this is a turn of its own and takes no time is the model's choice (notes/assumptions/32.md). -/
def Obligations.ForeignOwnersChangeOnlyUnownedLines : Prop :=
  ∀ (s : State) (n : Nat) (held : Bool), setWf s.foreign → s.turn = .foreign n held →
    ∃ f, step s = .next { s.afterTurn with foreign := f } ∧
      ∀ k, k ∈ f ↔ if k = n ∧ s.ownsLine n = false then held = true else k ∈ s.foreign

/-! ### ACQUIRE -/

/-- 40_pin_controller.md R91, R92: when every masked line can be claimed, ACQUIRE returns Ok; every masked line is owned,
output and low; all are claimed in ACQ_ORDER before the first is driven; nothing else changes. -/
def Obligations.AcquireClaimsAndDrivesLow : Prop :=
  ∀ (s : State) (mask : BitVec 7), s.params.wf = true → s.Ready → s.Claimable mask →
    ∃ t, exec (.acquire mask) s = .next t ∧
      (∀ g, t.line g = if selects mask g then Line.driven else s.line g) ∧
      GainsEdges s t
        ((chosen s.params mask).map Edge.own ++ (chosen s.params mask).map fun g => Edge.drive g false) ∧
      t.results = s.results ++ [{ agent := s.self, op := .acquire, result := .ok }] ∧
      SameDriver s t ∧ t.lockOwner = s.lockOwner ∧ t.agents = s.agents ∧ t.faults = s.faults

/-- 40_pin_controller.md R98 (P1): when some masked line cannot be claimed, ACQUIRE returns ResourceUnavailable and no
line of the attempt stays held: every line is as it was, and the trace shows the claims and, in reverse order, their
release. -/
def Obligations.FailedAcquireHoldsNothing : Prop :=
  ∀ (s : State) (mask : BitVec 7), s.params.wf = true → s.Ready → s.LinesConsistent → ¬ s.Claimable mask →
    ∃ t, exec (.acquire mask) s = .next t ∧ t.lines = s.lines ∧
      t.results = s.results ++ [{ agent := s.self, op := .acquire, result := .err .resourceUnavailable }] ∧
      GainsEdges s t ((s.claimedBefore mask).map Edge.own ++ (s.claimedBefore mask).reverse.map Edge.free) ∧
      SameDriver s t ∧ t.lockOwner = s.lockOwner ∧ t.agents = s.agents ∧ t.faults = s.faults

/-! ### RELEASE -/

/-- 40_pin_controller.md R94: RELEASE of owned lines under the guard frees each of them, in ACQ_ORDER, and changes
nothing else: `linesAcquired` and the guard stay as they are. -/
def Obligations.ReleaseFreesOwnedLines : Prop :=
  ∀ (s : State) (mask : BitVec 7), s.params.wf = true → s.Ready → s.Guarded →
    (∀ g, selects mask g = true → (s.line g).own = true) →
    ∃ t, exec (.release mask) s = .next t ∧
      (∀ g, t.line g = if selects mask g then Line.free else s.line g) ∧
      GainsEdges s t ((chosen s.params mask).map Edge.free) ∧ SameApartFromPins s t

/-- 40_pin_controller.md R95, 60_exceptions.md R177, R179: under RELEASE_UNOWNED = fault, the first masked line in
ACQ_ORDER that is not owned faults; the lines before it are already freed, two micro-steps each (40_pin_controller.md
R90), and no other. -/
def Obligations.ReleaseOfUnownedLineFaults : Prop :=
  ∀ (s : State) (mask : BitVec 7) (pre post : List Sig) (g : Sig), s.params.wf = true → s.Ready → s.Guarded →
    s.params.releaseUnowned = .fault → chosen s.params mask = pre ++ g :: post →
    (∀ h ∈ pre, (s.line h).own = true) → (s.line g).own = false →
    ∃ t, exec (.release mask) s = .next t ∧ FaultsAt s t .releaseUnowned { op := .release, k := 2 * pre.length }
        { op := .release, k := 2 * pre.length } ∧
      (∀ h, t.line h = if h ∈ pre then Line.free else s.line h) ∧ GainsEdges s t (pre.map Edge.free) ∧
      SameDriver s t ∧ t.lockOwner = s.lockOwner ∧ t.results = s.results

/-- 40_pin_controller.md R95: under RELEASE_UNOWNED = noop, a masked line that is not owned is skipped. -/
def Obligations.ReleaseOfUnownedLineSkips : Prop :=
  ∀ (s : State) (mask : BitVec 7), s.params.wf = true → s.Ready → s.Guarded → s.params.releaseUnowned = .noop →
    ∃ t, exec (.release mask) s = .next t ∧
      (∀ g, t.line g = if selects mask g && (s.line g).own then Line.free else s.line g) ∧
      GainsEdges s t (((chosen s.params mask).filter fun g => (s.line g).own).map Edge.free) ∧ SameApartFromPins s t

/-- 40_pin_controller.md R91, R94: what ACQUIRE and RELEASE leave unchanged, whatever they come to: the lines outside the
mask, the driver's fields, the guard, the launch state, the refusals and the other agents; ACQUIRE adds no fault and
RELEASE returns no result. -/
def Obligations.LineGroupFrame : Prop :=
  ∀ (s t : State) (mask : BitVec 7) (i : Instr), i ∈ [Instr.acquire mask, .release mask] → exec i s = .next t →
    (∀ g, selects mask g = false → t.line g = s.line g) ∧ SameDriver s t ∧ SameLaunch s t ∧
      t.lockOwner = s.lockOwner ∧ SameOthers s.self s t ∧ t.refusals = s.refusals ∧ t.answers = s.answers ∧
      t.registrations = s.registrations ∧ (i = .acquire mask → t.faults = s.faults ∧ t.agents = s.agents) ∧
      (i = .release mask → t.results = s.results)

/-! ### SETLEVEL -/

/-- 40_pin_controller.md R96, 10_state.md R42, R43: under the guard, on a line owned and set to output, SETLEVEL makes
the one host call; an accepted write sets the level and is an event if it changes it; a rejected one changes nothing,
and neither returns an error. Whether a write is accepted is drawn (notes/assumptions/4.md). -/
def Obligations.SetlevelWritesOneLevel : Prop :=
  ∀ (s : State) (g : Sig) (v : Bool), s.Ready → s.Guarded → (s.line g).presents = true →
    ∃ t, exec (.setlevel g v) s = .next t ∧
      (∀ h, t.line h =
        if h = g ∧ s.answers.head Config.freeAnswer = true then { s.line g with lvl := Level.ofBit v }
        else s.line h) ∧
      GainsEdges s t
        (if s.answers.head Config.freeAnswer = true ∧ (s.line g).lvl ≠ Level.ofBit v then [Edge.drive g v] else []) ∧
      t.hostCalls = s.hostCalls ++ [.setLevel (s.pin g) v (s.answers.head Config.freeAnswer)] ∧
      SameApartFromPins s t

/-- 40_pin_controller.md R97: SETLEVEL on a line that is not owned, or not set to output, faults and gives no level. -/
def Obligations.SetlevelOnUnownedLineFaults : Prop :=
  ∀ (s : State) (g : Sig) (v : Bool), s.Ready → s.Guarded → (s.line g).own = false ∨ (s.line g).dir ≠ .output →
    ∃ t, exec (.setlevel g v) s = .next t ∧
      FaultsAt s t .setLevelUnowned { op := .setlevel, k := 0 } { op := .setlevel, k := 0 } ∧
      SamePins s t ∧ t.hostCalls = s.hostCalls ∧ t.answers = s.answers

/-! ### TRANSMIT and the waits -/

/-- 41_protocol_engine.md R113 (P2): with every write accepted and E low on entry, TRANSMIT adds exactly two latches,
the high nibble and then the low nibble, under the RS (and RW) level that stands. The lines it writes are the block's,
and the trace accounts for the pins (an invariant, stated below). -/
def Obligations.TransmitLatchesHighThenLow : Prop :=
  ∀ (s : State) (w : Byte), s.Ready → s.Guarded → s.linesAcquired = true →
    (∀ g ∈ [Sig.e, .db7, .db6, .db5, .db4], (s.line g).presents = true) → s.TraceAccounts →
    (s.line .e).lvl = .low → s.Accepting 12 →
    ∃ t, exec (.transmit w) s = .next t ∧
      t.latches.map Latch.nibble = s.latches.map Latch.nibble ++ wordNibbles (s.line .rs).lvl (s.line .rw).lvl w

/-- 41_protocol_engine.md R111, R117: on lines the block drives and with every write accepted, TRANSMIT ends with E = 0
and the data lines holding the low nibble; RS and RW are as they were. -/
def Obligations.TransmitEndsWithLowNibble : Prop :=
  ∀ (s : State) (w : Byte), s.Ready → s.Guarded → s.linesAcquired = true →
    (∀ g ∈ [Sig.e, .db7, .db6, .db5, .db4], (s.line g).presents = true) → s.Accepting 12 →
    ∃ t, exec (.transmit w) s = .next t ∧ (t.line .e).lvl = .low ∧
      (t.line .db7).lvl = Level.ofBit ((lo w).getLsbD 3) ∧ (t.line .db6).lvl = Level.ofBit ((lo w).getLsbD 2) ∧
      (t.line .db5).lvl = Level.ofBit ((lo w).getLsbD 1) ∧ (t.line .db4).lvl = Level.ofBit ((lo w).getLsbD 0) ∧
      t.line .rs = s.line .rs ∧ t.line .rw = s.line .rw

/-- 41_protocol_engine.md R120 (P3), R121: with every write accepted and E low on entry, TRANSMIT adds to the trace data
writes, a pulse, data writes, a pulse; E is held high at least T_EH in each pulse; the low nibble's data writes and the
second rise come at least T_EL after the first fall, and the end at least T_EL after the second. Between the last data
write of a nibble and the end of its pulse nothing else happens at the pins. -/
def Obligations.TransmitPulsesKeepTheFloor : Prop :=
  ∀ (s : State) (w : Byte), s.Ready → s.Guarded → s.linesAcquired = true →
    (∀ g ∈ [Sig.e, .db7, .db6, .db5, .db4], (s.line g).presents = true) → s.TraceAccounts →
    (s.line .e).lvl = .low → s.Accepting 12 →
    ∃ t l₁ l₂ d₁ d₂, exec (.transmit w) s = .next t ∧ t.latches = s.latches ++ [l₁, l₂] ∧
      t.trace = s.trace ++ d₁ ++ [.drive (l₁.t - l₁.high) .e true, .drive l₁.t .e false] ++ d₂ ++
        [.drive (l₂.t - l₂.high) .e true, .drive l₂.t .e false] ∧
      (∀ ev ∈ d₁ ++ d₂, ev.isData = true) ∧ s.params.tEH ≤ l₁.high ∧ s.params.tEH ≤ l₂.high ∧
      s.now + l₁.high ≤ l₁.t ∧ (∀ ev ∈ d₂, l₁.t + s.params.tEL ≤ ev.time) ∧
      l₁.t + s.params.tEL + l₂.high ≤ l₂.t ∧ l₂.t + s.params.tEL ≤ t.now

/-- 41_protocol_engine.md R112, R118, R122, R123: once its checks pass, TRANSMIT runs to its end whatever the host answers,
returns no error, faults nowhere, and lasts at least 2 (T_EH + T_EL); its calls to the host are the twelve HostSetLevel
of R112 in order: DB7 to DB4 with the high nibble, E 1, E 0, DB7 to DB4 with the low nibble, E 1, E 0. -/
def Obligations.TransmitCompletesWhateverTheAnswers : Prop :=
  ∀ (s : State) (w : Byte), s.Ready → s.Guarded → s.linesAcquired = true →
    ∃ t, exec (.transmit w) s = .next t ∧ s.now + 2 * (s.params.tEH + s.params.tEL) ≤ t.now ∧
      t.hostCalls = s.hostCalls ++ s.levelCalls (transmitLevels w) ∧ SameApartFromPins s t

/-- 40_pin_controller.md R96, 41_protocol_engine.md R111, R117: what SETLEVEL and TRANSMIT leave unchanged, rejected
writes and faults included: all of every line but its level, every level but that of the line SETLEVEL names or those of E
and DB7 to DB4 for TRANSMIT, the driver's fields, the guard, the launch state, the results, the refusals and the other
agents. -/
def Obligations.LevelWriteFrame : Prop :=
  ∀ (s t : State) (g : Sig) (v : Bool) (w : Byte) (i : Instr), i ∈ [Instr.setlevel g v, .transmit w] →
    exec i s = .next t →
    (∀ h, SameButLevel (s.line h) (t.line h)) ∧
      (i = .setlevel g v → ∀ h, h ≠ g → t.line h = s.line h) ∧
      (i = .transmit w → t.line .rs = s.line .rs ∧ t.line .rw = s.line .rw) ∧ SameDriver s t ∧ SameLaunch s t ∧
      t.lockOwner = s.lockOwner ∧ SameOthers s.self s t ∧ t.refusals = s.refusals ∧ t.results = s.results ∧
      t.registrations = s.registrations

/-- 41_protocol_engine.md R114, R115, 00_scope.md R12: DELAY_US n and DELAY_MS n advance `now` by n us or n ms and a
drawn extra, need no guard, and change nothing else. The extra is a free value (notes/assumptions/3.md). -/
def Obligations.DelaysOnlyAdvanceTime : Prop :=
  ∀ (s : State) (n : BitVec 12), s.Ready →
    exec (.delayUs n) s =
        .next { s with
          now := s.now + n.toNat * 1000 + s.delays.head Config.freeDelay
          delays := s.delays.advance } ∧
      exec (.delayMs n) s =
        .next { s with
          now := s.now + n.toNat * 1000000 + s.delays.head Config.freeDelay
          delays := s.delays.advance }

/-! ### The guard -/

/-- 43_session_lifecycle.md R145: LOCK takes a free guard for the executing agent, in one step. The time the step
takes is a free value (notes/assumptions/3.md). -/
def Obligations.LockTakesFreeGuard : Prop :=
  ∀ s : State, s.Ready → s.lockOwner = none →
    exec .lock s =
      .next { s with
        lockOwner := some s.self
        now := s.now + s.delays.head Config.freeDelay
        delays := s.delays.advance }

/-- 43_session_lifecycle.md R145, 60_exceptions.md R181: a LOCK while the guard is held, by whomever, takes no step: the
agent stands at it, stuck; and in every state in which an agent is stuck, a turn given to it, or to a request of it,
changes nothing but that the turn is taken. -/
def Obligations.LockOfHeldGuardWaits : Prop :=
  (∀ (s : State) (b : Nat), s.Ready → s.lockOwner = some b →
    ∃ t, exec .lock s = .next t ∧ SamePins s t ∧ SameDriver s t ∧ SameLogs s t ∧ SameOthers s.self s t ∧
      t.lockOwner = s.lockOwner ∧ t.now = s.now ∧ t.pcOf s.self = some { op := .lock, k := 0 } ∧
      t.stuck s.self = true) ∧
  ∀ (s : State) (a : Nat), mapWf s.agents → s.stuck a = true →
    (s.turn = .agent a → step s = .next s.afterTurn) ∧
      ∀ r rs, s.requests = r :: rs → r.agent = a → s.turn = .whole ∨ s.turn = .begin → step s = .next s.afterTurn

/-- 20_memory.md R62: in a run that keeps the weak fairness R62 assumes of the scheduler, an agent that stands at a LOCK
for ever does so because, from some moment on, the guard is never free. The fairness is a premise on the run
(notes/assumptions/29.md). -/
def Obligations.FairRunsStarveNoLock : Prop :=
  ∀ (r : Nat → State) (a n : Nat), IsRun r → WeaklyFair r → (∀ m, n ≤ m → (r m).atLock a = true) →
    ∃ m, n ≤ m ∧ ∀ k, m ≤ k → (r k).lockOwner ≠ none

/-- 43_session_lifecycle.md R146: UNLOCK by the holder frees the guard; UNLOCK by anyone else faults and leaves it.
The times are free values, and a fault is a next state (notes/assumptions/3.md, 9.md). -/
def Obligations.UnlockFreesOnlyOnesOwnGuard : Prop :=
  ∀ s : State, s.Ready →
    (s.Guarded →
      exec .unlock s =
        .next { s with
          lockOwner := none
          now := s.now + s.delays.head Config.freeDelay
          delays := s.delays.advance }) ∧
      (¬ s.Guarded →
        exec .unlock s = .next (s.raise s.self { op := .unlock, k := 0 } { op := .unlock, k := 0 } .unlockNotOwner))

/-- 43_session_lifecycle.md R147, 60_exceptions.md R179: RELEASE, SETLEVEL, TRANSMIT and INIT_RUN by an agent that
does not hold the guard fault with Unguarded, before any other check and any effect. A fault is a next state
(notes/assumptions/9.md). -/
def Obligations.UnguardedOperationsFault : Prop :=
  ∀ s : State, s.Ready → ¬ s.Guarded →
    let faults (op : Op) : State := s.raise s.self { op := op, k := 0 } { op := op, k := 0 } .unguarded
    (∀ mask, exec (.release mask) s = .next (faults .release)) ∧
      (∀ g v, exec (.setlevel g v) s = .next (faults .setlevel)) ∧
      (∀ w, exec (.transmit w) s = .next (faults .transmit)) ∧ exec .initRun s = .next (faults .initRun)

/-! ### INIT_RUN -/

/-- 42_init_sequencer.md R135 (P4), R134: with every write accepted, RS and E low on entry, INIT_RUN adds exactly the
twenty latches of the nine commands and then the data byte under RS = 1, in that order. -/
def Obligations.InitRunSendsTheFixedSequence : Prop :=
  ∀ s : State, s.Ready → s.Guarded → s.initDone = false → s.linesAcquired = true → s.AllDriven → s.TraceAccounts →
    (s.line .rs).lvl = .low → (s.line .e).lvl = .low → s.Accepting 122 →
    ∃ t, exec .initRun s = .next t ∧
      t.latches.map Latch.nibble =
        s.latches.map Latch.nibble ++
          ([CmdName.reset, .startup1, .startup2, .functionset, .displayoff, .clear, .entrymode, .displayon,
              .home].flatMap fun c => wordNibbles .low (s.line .rw).lvl (s.params.rom.get c)) ++
          wordNibbles .high (s.line .rw).lvl (s.params.rom.get .char)

/-- 42_init_sequencer.md R130, R138: on lines the block drives and with every write accepted, INIT_RUN ends with RS = 0,
E = 0, the data lines holding the low nibble of CW_CHAR, and the level of RW as it was. -/
def Obligations.InitRunEndsInCommandMode : Prop :=
  ∀ s : State, s.Ready → s.Guarded → s.initDone = false → s.linesAcquired = true → s.AllDriven → s.Accepting 122 →
    ∃ t, exec .initRun s = .next t ∧ t.Levels .low (s.line .rw).lvl .low ∧
      (t.line .db7).lvl = Level.ofBit ((lo s.params.rom.char).getLsbD 3) ∧
      (t.line .db6).lvl = Level.ofBit ((lo s.params.rom.char).getLsbD 2) ∧
      (t.line .db5).lvl = Level.ofBit ((lo s.params.rom.char).getLsbD 1) ∧
      (t.line .db4).lvl = Level.ofBit ((lo s.params.rom.char).getLsbD 0)

/-- 42_init_sequencer.md R130, R133, R136: INIT_RUN sets `initDone` and runs to its end whatever the host answers; it
returns no error, faults nowhere, and lasts at least the sum of its waits and pulses. With every write accepted, RS and E
low on entry, it latches ten words and its only events of RS are a rise before and a fall after the last word, and the
waits stand where R136 says: the first E rise at least T_PON after the start; startup1's at least T_EL + T_RST after
reset's last fall; each of the next seven commands' at least T_EL + T_CMD_GAP after the one before; RS rises at least
T_EL + T_CMD_GAP after home's last fall; char's first rise comes at least T_DPRE after that; RS falls at least
T_EL + T_DPOST after char's last fall. Every word keeps the floor of 41_protocol_engine.md R120. -/
def Obligations.InitRunIsBestEffort : Prop :=
  ∀ s : State, s.Ready → s.Guarded → s.initDone = false → s.linesAcquired = true → (s.line .rs).presents = true →
    ∃ t, exec .initRun s = .next t ∧ t.initDone = true ∧
      s.now + s.params.tPON + s.params.tRST + s.params.tDPRE + s.params.tDPOST +
          20 * (s.params.tEH + s.params.tEL) + 8 * s.params.tCmdGap ≤ t.now ∧
      SameLogs s t ∧ SameLaunch s t ∧ t.lockOwner = s.lockOwner ∧ t.agents = s.agents ∧
      t.hostCalls.length = s.hostCalls.length + 122 ∧
      (s.AllDriven → s.TraceAccounts → (s.line .rs).lvl = .low → (s.line .e).lvl = .low → s.Accepting 122 →
        ∃ (w : Nat → Latch × Latch) (up down : Nat) (d₁ d₂ : List Event),
          t.latches = s.latches ++ (List.range 10).flatMap (fun k => [(w k).1, (w k).2]) ∧
          t.trace = s.trace ++ d₁ ++ [.drive up .rs true] ++ d₂ ++ [.drive down .rs false] ∧
          (Machine.latches (s.trace ++ d₁) = s.latches ++ (List.range 9).flatMap fun k => [(w k).1, (w k).2]) ∧
          (∀ ev ∈ d₁ ++ d₂, ∀ n v, ev ≠ .drive n .rs v) ∧ (∀ k, k < 10 → PulseFloor s.params (w k)) ∧
          (w 0).1.RisesFrom (s.now + s.params.tPON) ∧
          (w 1).1.RisesFrom ((w 0).2.t + s.params.tEL + s.params.tRST) ∧
          (∀ k, 1 ≤ k → k < 8 → (w (k + 1)).1.RisesFrom ((w k).2.t + s.params.tEL + s.params.tCmdGap)) ∧
          (w 8).2.t + s.params.tEL + s.params.tCmdGap ≤ up ∧ (w 9).1.RisesFrom (up + s.params.tDPRE) ∧
          (w 9).2.t + s.params.tEL + s.params.tDPOST ≤ down)

/-- 10_state.md R29, 41_protocol_engine.md R111, 42_init_sequencer.md R131: under the guard, TRANSMIT with
`linesAcquired = 0` and a second INIT_RUN in one load fault before their first micro-step, with no other effect. A
fault is a next state (notes/assumptions/9.md). -/
def Obligations.UnownedTransmitAndSecondInitFault : Prop :=
  ∀ s : State, s.Ready → s.Guarded →
    (s.linesAcquired = false →
      ∀ w, exec (.transmit w) s =
        .next (s.raise s.self { op := .transmit, k := 0 } { op := .transmit, k := 0 } .transmitUnowned)) ∧
      (s.initDone = true →
        exec .initRun s = .next (s.raise s.self { op := .initRun, k := 0 } { op := .initRun, k := 0 } .initTwice))

/-- 42_init_sequencer.md R130: what INIT_RUN leaves unchanged, rejected writes and faults included. -/
def Obligations.InitRunFrame : Prop :=
  ∀ s t : State, exec .initRun s = .next t →
    t.line .rw = s.line .rw ∧ (∀ g, SameButLevel (s.line g) (t.line g)) ∧
      t.linesAcquired = s.linesAcquired ∧ t.reg = s.reg ∧ t.loaded = s.loaded ∧ t.sess = s.sess ∧ SameLaunch s t ∧
      t.lockOwner = s.lockOwner ∧ SameOthers s.self s t ∧ t.refusals = s.refusals ∧ t.results = s.results ∧
      t.registrations = s.registrations

/-! ### The host events -/

/-- 43_session_lifecycle.md R165: an event that breaks a host duty is refused: `refused` is set with its reason and the
event has no step. -/
def Obligations.HostDutiesAreRefused : Prop :=
  ∀ (s : State) (sid : Byte),
    (s.loaded = .loaded → exec .evLoad s = .next (s.refuse (.hostDuty .evLoad))) ∧
      (s.loaded = .unloaded ∨ s.sess ≠ [] → exec .evUnload s = .next (s.refuse (.hostDuty .evUnload))) ∧
      (s.loaded = .unloaded ∨ sid.toNat ∈ s.sess →
        exec (.evOpen sid) s = .next (s.refuse (.hostDuty .evOpen))) ∧
      (s.loaded = .unloaded ∨ sid.toNat ∉ s.sess →
        exec (.evClose sid) s = .next (s.refuse (.hostDuty .evClose))) ∧
      (s.loaded = .unloaded → exec (.evControl sid) s = .next (s.refuse (.hostDuty .evControl))) ∧
      ∀ r, (s.refuse r).refused = true

/-- 43_session_lifecycle.md R150, R152: with all seven lines claimable, the guard free and the registration calls
granted, EV_LOAD returns Ok whatever the level writes are answered: the lines are held, `linesAcquired`, `initDone` and
`loaded` are set, and the guard is free again. The last three calls to the host, after the calls about lines, are
registerDevice, createDeviceClass and createDeviceNode of "lcd" with mode 0666 under the class's handle, and `reg` is
the handle registerDevice returned. -/
def Obligations.LoadBringsTheBlockUp : Prop :=
  ∀ s : State, s.params.wf = true → s.Ready → s.loaded = .unloaded → s.initDone = false → s.lockOwner = none →
    s.Claimable allSignals → s.Registering →
    ∃ t cs h₁ h₂, exec .evLoad s = .next t ∧ t.AllDriven ∧ t.linesAcquired = true ∧ t.initDone = true ∧
      t.loaded = .loaded ∧ t.lockOwner = none ∧ t.sess = s.sess ∧ t.faults = s.faults ∧
      t.refusals = s.refusals ∧ t.agents = s.agents ∧ SameLaunch s t ∧
      s.registrations.nth Config.freeRegistration 0 = some h₁ ∧
      s.registrations.nth Config.freeRegistration 1 = some h₂ ∧ t.reg = some h₁ ∧
      (∀ c ∈ cs, c.isLineCall = true) ∧
      t.hostCalls = s.hostCalls ++ cs ++
        [.registerDevice s.params.deviceName [.onOpen, .onClose, .onControl] (some h₁),
          .createDeviceClass s.params.className (some h₂), .createDeviceNode h₂ "lcd" 0o666 true] ∧
      t.results = s.results ++ [{ agent := s.self, op := .evLoad, result := .ok }]

/-- 43_session_lifecycle.md R154: after a successful EV_LOAD with every write accepted, RS = 0, RW = 0, E = 0 and the
data lines hold the low nibble of CW_CHAR. -/
def Obligations.LoadLeavesCommandModeLevels : Prop :=
  ∀ s : State, s.params.wf = true → s.Ready → s.loaded = .unloaded → s.initDone = false → s.lockOwner = none →
    s.Claimable allSignals → s.Registering → s.Accepting 122 →
    ∃ t, exec .evLoad s = .next t ∧ t.AllDriven ∧ t.Levels .low .low .low ∧
      (t.line .db7).lvl = Level.ofBit ((lo s.params.rom.char).getLsbD 3) ∧
      (t.line .db6).lvl = Level.ofBit ((lo s.params.rom.char).getLsbD 2) ∧
      (t.line .db5).lvl = Level.ofBit ((lo s.params.rom.char).getLsbD 1) ∧
      (t.line .db4).lvl = Level.ofBit ((lo s.params.rom.char).getLsbD 0)

/-- 43_session_lifecycle.md R151, 10_state.md R41, 40_pin_controller.md R91: when some line cannot be claimed, because
another component or the block itself holds it, EV_LOAD returns ResourceUnavailable and leaves nothing of its attempt:
every field of the driver and every line is as it was, a line the block owned before staying owned (R91), no registration
call was made, and the trace gains only the claims and their release. -/
def Obligations.FailedLoadLeavesNothing : Prop :=
  ∀ s : State, s.params.wf = true → s.Ready → s.loaded = .unloaded → s.LinesConsistent →
    ¬ s.Claimable allSignals →
    ∃ t cs, exec .evLoad s = .next t ∧ t.lines = s.lines ∧ SameDriver s t ∧ t.lockOwner = s.lockOwner ∧
      t.agents = s.agents ∧ t.faults = s.faults ∧ t.hostCalls = s.hostCalls ++ cs ∧
      (∀ c ∈ cs, c.isLineCall = true) ∧
      t.results = s.results ++ [{ agent := s.self, op := .evLoad, result := .err .resourceUnavailable }] ∧
      GainsEdges s t
        ((s.claimedBefore allSignals).map Edge.own ++ (s.claimedBefore allSignals).reverse.map Edge.free)

/-- 43_session_lifecycle.md R153: a registration call that fails faults EV_LOAD at that call; the lines stay held,
`linesAcquired` and `initDone` stay set, `reg` is as it was and the block is not Loaded. The position counts the
micro-steps of EV_LOAD before the call: 21 of ACQUIRE, one each for `linesAcquired`, LOCK and UNLOCK, the 166 of
INIT_RUN and its 8 waits T_CMD_GAP where there are any (10_state.md R35; notes/assumptions/12.md, 26.md). -/
def Obligations.FailedRegistrationFaults : Prop :=
  ∀ (s : State) (k : Nat), s.params.wf = true → s.Ready → s.loaded = .unloaded → s.initDone = false →
    s.lockOwner = none → s.Claimable allSignals → k < 3 →
    (∀ j, j < k → (s.registrations.nth Config.freeRegistration j).isSome = true) →
    s.registrations.nth Config.freeRegistration k = none →
    ∃ t, exec .evLoad s = .next t ∧ FaultsAt s t .registrationFailed
        { op := .evLoad, k := 190 + (if s.params.tCmdGap = 0 then 0 else 8) + k }
        { op := .evLoad, k := 190 + (if s.params.tCmdGap = 0 then 0 else 8) + k } ∧ t.AllDriven ∧
      t.linesAcquired = true ∧ t.initDone = true ∧ t.loaded = .unloaded ∧ t.reg = s.reg ∧ t.lockOwner = none ∧
      t.results = s.results

/-- 43_session_lifecycle.md R155, 70_reset_and_hazards.md R198: EV_UNLOAD with the lines held, whatever the level writes
are answered, returns the lines and every field of the driver to their reset values; it adds no fault, no refusal and no
result, and leaves the launch state as it is. At the pins only levels of E and DB7 to DB4 change before the seven lines
are freed in ACQ_ORDER, and with every write accepted and E low on entry what is latched there is the clear word, under
the RS and RW that stand. Its last calls to the host, after the calls about lines, are the three of UNREGISTER (R157). -/
def Obligations.UnloadReturnsToReset : Prop :=
  ∀ s : State, s.params.wf = true → s.Ready → s.loaded = .loaded → s.sess = [] → s.lockOwner = none →
    s.linesAcquired = true → (∀ g, (s.line g).own = true) →
    ∃ t es cs, exec .evUnload s = .next t ∧ (∀ g, t.line g = Line.free) ∧ t.linesAcquired = false ∧ t.reg = none ∧
      t.loaded = .unloaded ∧ t.initDone = false ∧ t.lockOwner = none ∧ t.sess = [] ∧ t.agents = s.agents ∧
      SameLogs s t ∧ SameLaunch s t ∧ GainsEdges s t (es ++ s.params.acqOrder.map Edge.free) ∧
      (∀ x ∈ es, ∃ g ∈ [Sig.e, .db7, .db6, .db5, .db4], ∃ v, x = Edge.drive g v) ∧
      (s.AllDriven → s.TraceAccounts → (s.line .e).lvl = .low → s.Accepting 12 →
        t.latches.map Latch.nibble =
          s.latches.map Latch.nibble ++ wordNibbles (s.line .rs).lvl (s.line .rw).lvl (s.params.rom.get .clear)) ∧
      t.hostCalls = s.hostCalls ++ cs ++ [.destroyDeviceNode, .destroyDeviceClass, .unregisterDevice s.reg] ∧
      ∀ c ∈ cs, c.isLineCall = true

/-- 43_session_lifecycle.md R156: EV_UNLOAD after the lines were released faults at its clear word with TransmitUnowned,
holding the guard; nothing at the pins or in the driver has changed. The entry names the TRANSMIT (60_exceptions.md
R178), and the agent stands after its LOCK. -/
def Obligations.UnloadAfterCloseFaults : Prop :=
  ∀ s : State, s.Ready → s.loaded = .loaded → s.sess = [] → s.lockOwner = none → s.linesAcquired = false →
    ∃ t, exec .evUnload s = .next t ∧ FaultsAt s t .transmitUnowned { op := .evUnload, k := 1 } { op := .transmit, k := 0 } ∧
      t.lockOwner = some s.self ∧ SamePins s t ∧ SameDriver s t

/-- 43_session_lifecycle.md R158: EV_OPEN opens the session and returns Ok, in one step, without the guard and whether
or not the lines are held; nothing else changes. An identifier outside 0 to MAX_SESSIONS - 1 names no session, and its
EV_OPEN is refused. The time the step takes is a free value, and that refusal the model's choice (notes/assumptions/3.md,
25.md). -/
def Obligations.OpenTouchesOnlyTheSession : Prop :=
  ∀ (s : State) (sid : Byte), s.Ready → s.loaded = .loaded → sid.toNat ∉ s.sess →
    (sid.toNat < s.params.maxSessions →
      exec (.evOpen sid) s =
        .next { s with
          sess := setInsert sid.toNat s.sess
          now := s.now + s.delays.head Config.freeDelay
          delays := s.delays.advance
          results := s.results ++ [{ agent := s.self, op := .evOpen, result := .ok }] }) ∧
      (s.params.maxSessions ≤ sid.toNat → exec (.evOpen sid) s = .next (s.refuse (.hostDuty .evOpen)))

/-- 43_session_lifecycle.md R160: under CLOSE_POLICY = reference, or refcount at the last open session, EV_CLOSE with the
lines held and the guard free releases all seven lines in ACQ_ORDER, clears `linesAcquired`, frees the guard, closes the
session and returns Ok. -/
def Obligations.CloseReleasesTheLines : Prop :=
  ∀ (s : State) (sid : Byte), s.params.wf = true → s.Ready → s.loaded = .loaded → sid.toNat ∈ s.sess →
    s.lockOwner = none → (∀ g, (s.line g).own = true) →
    s.params.closePolicy = .reference ∨ s.params.closePolicy = .refcount ∧ s.openCount = 1 →
    ∃ t, exec (.evClose sid) s = .next t ∧ (∀ g, t.line g = Line.free) ∧
      GainsEdges s t (s.params.acqOrder.map Edge.free) ∧ t.linesAcquired = false ∧ t.lockOwner = none ∧
      t.sess = setErase sid.toNat s.sess ∧ t.reg = s.reg ∧ t.loaded = .loaded ∧ t.initDone = s.initDone ∧
      t.agents = s.agents ∧ t.faults = s.faults ∧
      t.results = s.results ++ [{ agent := s.self, op := .evClose, result := .ok }]

/-- 43_session_lifecycle.md R162: under refcount with other sessions open, and under shutdown_only, EV_CLOSE closes the
session and returns Ok without touching the pins or `linesAcquired`. -/
def Obligations.CloseMayKeepTheLines : Prop :=
  ∀ (s : State) (sid : Byte), s.Ready → s.loaded = .loaded → sid.toNat ∈ s.sess →
    s.params.closePolicy = .refcount ∧ s.openCount ≠ 1 ∧ s.lockOwner = none ∨
      s.params.closePolicy = .shutdownOnly →
    ∃ t, exec (.evClose sid) s = .next t ∧ SamePins s t ∧ t.linesAcquired = s.linesAcquired ∧
      t.lockOwner = s.lockOwner ∧ t.sess = setErase sid.toNat s.sess ∧ t.agents = s.agents ∧ t.faults = s.faults ∧
      t.results = s.results ++ [{ agent := s.self, op := .evClose, result := .ok }]

/-- 43_session_lifecycle.md R160, R161, 60_exceptions.md R184: under CLOSE_POLICY = reference, or refcount at the last open
session, EV_CLOSE when no line is owned faults at the first line of its RELEASE when RELEASE_UNOWNED = fault, the guard
held and the session still Open; when it is noop, it returns Ok with no event. The entry names the RELEASE
(60_exceptions.md R178), and the agent stands after its LOCK. That EV_CLOSE under refcount reaches its RELEASE with
`linesAcquired = 0` too is the model's choice (notes/assumptions/33.md). -/
def Obligations.SecondCloseReleasesUnowned : Prop :=
  ∀ (s : State) (sid : Byte), s.params.wf = true → s.Ready → s.loaded = .loaded → sid.toNat ∈ s.sess →
    s.lockOwner = none → s.NoneOwned →
    s.params.closePolicy = .reference ∨ s.params.closePolicy = .refcount ∧ s.openCount = 1 →
    ∃ t, exec (.evClose sid) s = .next t ∧ SamePins s t ∧
      (s.params.releaseUnowned = .fault →
        FaultsAt s t .releaseUnowned { op := .evClose, k := 1 } { op := .release, k := 0 } ∧
          t.lockOwner = some s.self ∧ t.sess = s.sess) ∧
      (s.params.releaseUnowned = .noop →
        t.faults = s.faults ∧ t.lockOwner = none ∧ t.sess = setErase sid.toNat s.sess ∧
          t.results = s.results ++ [{ agent := s.self, op := .evClose, result := .ok }])

/-- 43_session_lifecycle.md R163, R164 (P6): while the device node exists, EV_CONTROL returns InvalidArgument for every
session identifier in every state, and changes nothing else: not even time passes (notes/assumptions/21.md). -/
def Obligations.ControlReturnsInvalidArgument : Prop :=
  ∀ (s : State) (sid : Byte), s.Ready → s.loaded = .loaded →
    exec (.evControl sid) s =
      .next { s with
        results := s.results ++ [{ agent := s.self, op := .evControl, result := .err .invalidArgument }] }

/-- 30_encoding.md R78: the opaque argument of a request is never read: two steps that differ in it are equal. -/
def Obligations.ControlArgumentIsNeverRead : Prop :=
  ∀ (s : State) (r : Request) (rs : List Request) (arg : Nat), s.requests = r :: rs → s.idle r.agent = true →
    s.turn = .whole ∨ s.turn = .begin → step { s with requests := { r with arg := arg } :: rs } = step s

/-- 43_session_lifecycle.md R150, R155, R160: what EV_LOAD, EV_UNLOAD and EV_CLOSE leave unchanged, faults included: the
launch state and the other agents; EV_LOAD and EV_UNLOAD the sessions; EV_UNLOAD and EV_CLOSE each line but for being
freed or, for EV_UNLOAD and a line other than RS and RW (41_protocol_engine.md R117), having its level written; EV_CLOSE
every other session, the registration and the load state. -/
def Obligations.HostEventFrame : Prop :=
  ∀ (s t : State) (sid : Byte) (i : Instr), i ∈ [Instr.evLoad, .evUnload, .evClose sid] → exec i s = .next t →
    SameLaunch s t ∧ SameOthers s.self s t ∧ (i ≠ .evClose sid → t.sess = s.sess) ∧
      (i = .evUnload →
        t.registrations = s.registrations ∧ ∀ g, t.line g = Line.free ∨ t.line g = s.line g ∨
          g ≠ .rs ∧ g ≠ .rw ∧ SameButLevel (s.line g) (t.line g)) ∧
      (i = .evClose sid →
        t.reg = s.reg ∧ t.loaded = s.loaded ∧ t.initDone = s.initDone ∧ t.answers = s.answers ∧
          t.registrations = s.registrations ∧ (∀ g, t.line g = Line.free ∨ t.line g = s.line g) ∧
          (setWf s.sess → ∀ n, n ≠ sid.toNat → (n ∈ t.sess ↔ n ∈ s.sess)))

/-- 10_state.md R28 (I1), R29 (I2): every host event, whatever it comes to, leaves the seven lines held as one group, and
`linesAcquired` set only while they are, if they were so before. -/
def Obligations.HostEventsKeepTheGroup : Prop :=
  ∀ (s t : State) (sid : Byte) (i : Instr), i ∈ [Instr.evLoad, .evUnload, .evOpen sid, .evClose sid, .evControl sid] →
    s.params.wf = true → s.LinesConsistent → s.GroupHeld → exec i s = .next t → t.GroupHeld

/-- 30_encoding.md R68: no host event drives RW high: RW is never 1 after one if it was not 1 before. -/
def Obligations.HostEventsNeverRaiseRW : Prop :=
  ∀ (s t : State) (sid : Byte) (i : Instr), i ∈ [Instr.evLoad, .evUnload, .evOpen sid, .evClose sid, .evControl sid] →
    (s.line .rw).lvl ≠ .high → exec i s = .next t → (t.line .rw).lvl ≠ .high

/-! ### Reset and invariants -/

/-- 70_reset_and_hazards.md R195: every field of 10_state.md R46 at reset. -/
def Obligations.ResetIsTheSpecs : Prop :=
  (∀ g, State.reset.line g = { granted := false, own := false, dir := .unset, lvl := .z }) ∧
    State.reset.linesAcquired = false ∧
    State.reset.reg = none ∧ State.reset.loaded = .unloaded ∧ State.reset.initDone = false ∧
    State.reset.lockOwner = none ∧ (∀ sid, State.reset.isOpen sid = false) ∧ (∀ a, State.reset.pcOf a = none) ∧
    State.reset.now = 0 ∧ State.reset.faults = [] ∧ State.reset.refused = false ∧ State.reset.trace = []

/-- 10_state.md R26: at every step boundary, an unowned line has no direction and presents Z, and a line set to output is
owned and presents 0 or 1. -/
def Obligations.LinesStayConsistent : Prop :=
  ∀ s t : State, s.LinesConsistent → step s = .next t → t.LinesConsistent

/-- 10_state.md R43: every step keeps the trace an account of the pins: the ownership and levels the events leave are the
state's own. -/
def Obligations.TraceStaysAnAccountOfThePins : Prop :=
  ∀ s t : State, s.TraceAccounts → step s = .next t → t.TraceAccounts

/-- 10_state.md R36, 20_memory.md R58: every step keeps the pin events in the order of their times, none after `now`. -/
def Obligations.EventTimesStayOrdered : Prop :=
  ∀ s t : State, s.TimesOrdered → step s = .next t → t.TimesOrdered

/-- 20_memory.md R59, 43_session_lifecycle.md R147: every step, of any agent, keeps the rule that an agent in the middle
of a request holds the guard wherever what remains of it writes a level or releases a line. -/
def Obligations.GuardDisciplineIsKept : Prop :=
  ∀ s t : State, s.GuardDiscipline → step s = .next t → t.GuardDiscipline

/-- notes/assumptions/17.md: every step keeps the sets and the agent map in canonical form, with session identifiers
below MAX_SESSIONS. -/
def Obligations.CanonicalFormIsKept : Prop :=
  ∀ s t : State, s.Canonical → step s = .next t → t.Canonical

/-- 00_scope.md R8, 10_state.md R22: the five invariants that every step keeps, and the seven lines held as one group,
hold at reset; and the launch parameters, which no step changes, are as required there whatever the OPEN ones are: E on
line 18, the other six signals one to one on the six lines, E last in an acquisition order of all seven. -/
def Obligations.InvariantsHoldAtReset : Prop :=
  State.reset.LinesConsistent ∧ State.reset.TraceAccounts ∧ State.reset.TimesOrdered ∧ State.reset.GuardDiscipline ∧
    State.reset.Canonical ∧ State.reset.GroupHeld ∧ State.reset.params.wf = true

/-- 10_state.md R36, R37, R38, R43, 70_reset_and_hazards.md R199: no step takes time back, removes a fault, a refusal, an
event, a call or a result, or changes the launch parameters. -/
def Obligations.StickyFieldsOnlyGrow : Prop :=
  ∀ s t : State, step s = .next t →
    s.now ≤ t.now ∧ s.faults <+: t.faults ∧ s.refusals <+: t.refusals ∧ s.trace <+: t.trace ∧
      s.hostCalls <+: t.hostCalls ∧ s.results <+: t.results ∧ t.params = s.params
end

