-- ==== Sys2Proof/Laws/State.lean ====
section
/-! SUPPORT. Beside the state: what each named operation leaves in each field. -/

namespace Sys2Proof.Machine

/-! ### State.tick -/

@[simp] theorem State.tick_lines (n : Nat) (s : State) : (s.tick n).lines = s.lines := rfl

@[simp] theorem State.tick_linesAcquired (n : Nat) (s : State) : (s.tick n).linesAcquired = s.linesAcquired := rfl

@[simp] theorem State.tick_reg (n : Nat) (s : State) : (s.tick n).reg = s.reg := rfl

@[simp] theorem State.tick_loaded (n : Nat) (s : State) : (s.tick n).loaded = s.loaded := rfl

@[simp] theorem State.tick_initDone (n : Nat) (s : State) : (s.tick n).initDone = s.initDone := rfl

@[simp] theorem State.tick_lockOwner (n : Nat) (s : State) : (s.tick n).lockOwner = s.lockOwner := rfl

@[simp] theorem State.tick_sess (n : Nat) (s : State) : (s.tick n).sess = s.sess := rfl

@[simp] theorem State.tick_agents (n : Nat) (s : State) : (s.tick n).agents = s.agents := rfl

@[simp] theorem State.tick_now (n : Nat) (s : State) : (s.tick n).now = s.now + n + s.delays.head Config.freeDelay := rfl

@[simp] theorem State.tick_faults (n : Nat) (s : State) : (s.tick n).faults = s.faults := rfl

@[simp] theorem State.tick_refusals (n : Nat) (s : State) : (s.tick n).refusals = s.refusals := rfl

@[simp] theorem State.tick_trace (n : Nat) (s : State) : (s.tick n).trace = s.trace := rfl

@[simp] theorem State.tick_hostCalls (n : Nat) (s : State) : (s.tick n).hostCalls = s.hostCalls := rfl

@[simp] theorem State.tick_results (n : Nat) (s : State) : (s.tick n).results = s.results := rfl

@[simp] theorem State.tick_foreign (n : Nat) (s : State) : (s.tick n).foreign = s.foreign := rfl

@[simp] theorem State.tick_params (n : Nat) (s : State) : (s.tick n).params = s.params := rfl

@[simp] theorem State.tick_self (n : Nat) (s : State) : (s.tick n).self = s.self := rfl

@[simp] theorem State.tick_requests (n : Nat) (s : State) : (s.tick n).requests = s.requests := rfl

@[simp] theorem State.tick_turns (n : Nat) (s : State) : (s.tick n).turns = s.turns := rfl

@[simp] theorem State.tick_delays (n : Nat) (s : State) : (s.tick n).delays = s.delays.advance := rfl

@[simp] theorem State.tick_answers (n : Nat) (s : State) : (s.tick n).answers = s.answers := rfl

@[simp] theorem State.tick_registrations (n : Nat) (s : State) : (s.tick n).registrations = s.registrations := rfl

/-! ### State.setLine -/

@[simp] theorem State.setLine_lines (g : Sig) (l : Line) (s : State) : (s.setLine g l).lines = s.lines.set g l := rfl

@[simp] theorem State.setLine_linesAcquired (g : Sig) (l : Line) (s : State) : (s.setLine g l).linesAcquired = s.linesAcquired := rfl

@[simp] theorem State.setLine_reg (g : Sig) (l : Line) (s : State) : (s.setLine g l).reg = s.reg := rfl

@[simp] theorem State.setLine_loaded (g : Sig) (l : Line) (s : State) : (s.setLine g l).loaded = s.loaded := rfl

@[simp] theorem State.setLine_initDone (g : Sig) (l : Line) (s : State) : (s.setLine g l).initDone = s.initDone := rfl

@[simp] theorem State.setLine_lockOwner (g : Sig) (l : Line) (s : State) : (s.setLine g l).lockOwner = s.lockOwner := rfl

@[simp] theorem State.setLine_sess (g : Sig) (l : Line) (s : State) : (s.setLine g l).sess = s.sess := rfl

@[simp] theorem State.setLine_agents (g : Sig) (l : Line) (s : State) : (s.setLine g l).agents = s.agents := rfl

@[simp] theorem State.setLine_now (g : Sig) (l : Line) (s : State) : (s.setLine g l).now = s.now := rfl

@[simp] theorem State.setLine_faults (g : Sig) (l : Line) (s : State) : (s.setLine g l).faults = s.faults := rfl

@[simp] theorem State.setLine_refusals (g : Sig) (l : Line) (s : State) : (s.setLine g l).refusals = s.refusals := rfl

@[simp] theorem State.setLine_trace (g : Sig) (l : Line) (s : State) : (s.setLine g l).trace = s.trace := rfl

@[simp] theorem State.setLine_hostCalls (g : Sig) (l : Line) (s : State) : (s.setLine g l).hostCalls = s.hostCalls := rfl

@[simp] theorem State.setLine_results (g : Sig) (l : Line) (s : State) : (s.setLine g l).results = s.results := rfl

@[simp] theorem State.setLine_foreign (g : Sig) (l : Line) (s : State) : (s.setLine g l).foreign = s.foreign := rfl

@[simp] theorem State.setLine_params (g : Sig) (l : Line) (s : State) : (s.setLine g l).params = s.params := rfl

@[simp] theorem State.setLine_self (g : Sig) (l : Line) (s : State) : (s.setLine g l).self = s.self := rfl

@[simp] theorem State.setLine_requests (g : Sig) (l : Line) (s : State) : (s.setLine g l).requests = s.requests := rfl

@[simp] theorem State.setLine_turns (g : Sig) (l : Line) (s : State) : (s.setLine g l).turns = s.turns := rfl

@[simp] theorem State.setLine_delays (g : Sig) (l : Line) (s : State) : (s.setLine g l).delays = s.delays := rfl

@[simp] theorem State.setLine_answers (g : Sig) (l : Line) (s : State) : (s.setLine g l).answers = s.answers := rfl

@[simp] theorem State.setLine_registrations (g : Sig) (l : Line) (s : State) : (s.setLine g l).registrations = s.registrations := rfl

/-! ### State.emit -/

@[simp] theorem State.emit_lines (ev : Event) (s : State) : (s.emit ev).lines = s.lines := rfl

@[simp] theorem State.emit_linesAcquired (ev : Event) (s : State) : (s.emit ev).linesAcquired = s.linesAcquired := rfl

@[simp] theorem State.emit_reg (ev : Event) (s : State) : (s.emit ev).reg = s.reg := rfl

@[simp] theorem State.emit_loaded (ev : Event) (s : State) : (s.emit ev).loaded = s.loaded := rfl

@[simp] theorem State.emit_initDone (ev : Event) (s : State) : (s.emit ev).initDone = s.initDone := rfl

@[simp] theorem State.emit_lockOwner (ev : Event) (s : State) : (s.emit ev).lockOwner = s.lockOwner := rfl

@[simp] theorem State.emit_sess (ev : Event) (s : State) : (s.emit ev).sess = s.sess := rfl

@[simp] theorem State.emit_agents (ev : Event) (s : State) : (s.emit ev).agents = s.agents := rfl

@[simp] theorem State.emit_now (ev : Event) (s : State) : (s.emit ev).now = s.now := rfl

@[simp] theorem State.emit_faults (ev : Event) (s : State) : (s.emit ev).faults = s.faults := rfl

@[simp] theorem State.emit_refusals (ev : Event) (s : State) : (s.emit ev).refusals = s.refusals := rfl

@[simp] theorem State.emit_trace (ev : Event) (s : State) : (s.emit ev).trace = s.trace ++ [ev] := rfl

@[simp] theorem State.emit_hostCalls (ev : Event) (s : State) : (s.emit ev).hostCalls = s.hostCalls := rfl

@[simp] theorem State.emit_results (ev : Event) (s : State) : (s.emit ev).results = s.results := rfl

@[simp] theorem State.emit_foreign (ev : Event) (s : State) : (s.emit ev).foreign = s.foreign := rfl

@[simp] theorem State.emit_params (ev : Event) (s : State) : (s.emit ev).params = s.params := rfl

@[simp] theorem State.emit_self (ev : Event) (s : State) : (s.emit ev).self = s.self := rfl

@[simp] theorem State.emit_requests (ev : Event) (s : State) : (s.emit ev).requests = s.requests := rfl

@[simp] theorem State.emit_turns (ev : Event) (s : State) : (s.emit ev).turns = s.turns := rfl

@[simp] theorem State.emit_delays (ev : Event) (s : State) : (s.emit ev).delays = s.delays := rfl

@[simp] theorem State.emit_answers (ev : Event) (s : State) : (s.emit ev).answers = s.answers := rfl

@[simp] theorem State.emit_registrations (ev : Event) (s : State) : (s.emit ev).registrations = s.registrations := rfl

/-! ### State.call -/

@[simp] theorem State.call_lines (c : HostCall) (s : State) : (s.call c).lines = s.lines := rfl

@[simp] theorem State.call_linesAcquired (c : HostCall) (s : State) : (s.call c).linesAcquired = s.linesAcquired := rfl

@[simp] theorem State.call_reg (c : HostCall) (s : State) : (s.call c).reg = s.reg := rfl

@[simp] theorem State.call_loaded (c : HostCall) (s : State) : (s.call c).loaded = s.loaded := rfl

@[simp] theorem State.call_initDone (c : HostCall) (s : State) : (s.call c).initDone = s.initDone := rfl

@[simp] theorem State.call_lockOwner (c : HostCall) (s : State) : (s.call c).lockOwner = s.lockOwner := rfl

@[simp] theorem State.call_sess (c : HostCall) (s : State) : (s.call c).sess = s.sess := rfl

@[simp] theorem State.call_agents (c : HostCall) (s : State) : (s.call c).agents = s.agents := rfl

@[simp] theorem State.call_now (c : HostCall) (s : State) : (s.call c).now = s.now := rfl

@[simp] theorem State.call_faults (c : HostCall) (s : State) : (s.call c).faults = s.faults := rfl

@[simp] theorem State.call_refusals (c : HostCall) (s : State) : (s.call c).refusals = s.refusals := rfl

@[simp] theorem State.call_trace (c : HostCall) (s : State) : (s.call c).trace = s.trace := rfl

@[simp] theorem State.call_hostCalls (c : HostCall) (s : State) : (s.call c).hostCalls = s.hostCalls ++ [c] := rfl

@[simp] theorem State.call_results (c : HostCall) (s : State) : (s.call c).results = s.results := rfl

@[simp] theorem State.call_foreign (c : HostCall) (s : State) : (s.call c).foreign = s.foreign := rfl

@[simp] theorem State.call_params (c : HostCall) (s : State) : (s.call c).params = s.params := rfl

@[simp] theorem State.call_self (c : HostCall) (s : State) : (s.call c).self = s.self := rfl

@[simp] theorem State.call_requests (c : HostCall) (s : State) : (s.call c).requests = s.requests := rfl

@[simp] theorem State.call_turns (c : HostCall) (s : State) : (s.call c).turns = s.turns := rfl

@[simp] theorem State.call_delays (c : HostCall) (s : State) : (s.call c).delays = s.delays := rfl

@[simp] theorem State.call_answers (c : HostCall) (s : State) : (s.call c).answers = s.answers := rfl

@[simp] theorem State.call_registrations (c : HostCall) (s : State) : (s.call c).registrations = s.registrations := rfl

/-! ### State.grant -/

@[simp] theorem State.grant_lines (g : Sig) (s : State) : (s.grant g).lines = s.lines.set g { s.line g with granted := true } := rfl

@[simp] theorem State.grant_linesAcquired (g : Sig) (s : State) : (s.grant g).linesAcquired = s.linesAcquired := rfl

@[simp] theorem State.grant_reg (g : Sig) (s : State) : (s.grant g).reg = s.reg := rfl

@[simp] theorem State.grant_loaded (g : Sig) (s : State) : (s.grant g).loaded = s.loaded := rfl

@[simp] theorem State.grant_initDone (g : Sig) (s : State) : (s.grant g).initDone = s.initDone := rfl

@[simp] theorem State.grant_lockOwner (g : Sig) (s : State) : (s.grant g).lockOwner = s.lockOwner := rfl

@[simp] theorem State.grant_sess (g : Sig) (s : State) : (s.grant g).sess = s.sess := rfl

@[simp] theorem State.grant_agents (g : Sig) (s : State) : (s.grant g).agents = s.agents := rfl

@[simp] theorem State.grant_now (g : Sig) (s : State) : (s.grant g).now = s.now := rfl

@[simp] theorem State.grant_faults (g : Sig) (s : State) : (s.grant g).faults = s.faults := rfl

@[simp] theorem State.grant_refusals (g : Sig) (s : State) : (s.grant g).refusals = s.refusals := rfl

@[simp] theorem State.grant_trace (g : Sig) (s : State) : (s.grant g).trace = s.trace := rfl

@[simp] theorem State.grant_hostCalls (g : Sig) (s : State) : (s.grant g).hostCalls = s.hostCalls ++ [.requestLine (s.pin g) (s.params.label.get g) true] := rfl

@[simp] theorem State.grant_results (g : Sig) (s : State) : (s.grant g).results = s.results := rfl

@[simp] theorem State.grant_foreign (g : Sig) (s : State) : (s.grant g).foreign = s.foreign := rfl

@[simp] theorem State.grant_params (g : Sig) (s : State) : (s.grant g).params = s.params := rfl

@[simp] theorem State.grant_self (g : Sig) (s : State) : (s.grant g).self = s.self := rfl

@[simp] theorem State.grant_requests (g : Sig) (s : State) : (s.grant g).requests = s.requests := rfl

@[simp] theorem State.grant_turns (g : Sig) (s : State) : (s.grant g).turns = s.turns := rfl

@[simp] theorem State.grant_delays (g : Sig) (s : State) : (s.grant g).delays = s.delays := rfl

@[simp] theorem State.grant_answers (g : Sig) (s : State) : (s.grant g).answers = s.answers := rfl

@[simp] theorem State.grant_registrations (g : Sig) (s : State) : (s.grant g).registrations = s.registrations := rfl

/-! ### State.claim -/

@[simp] theorem State.claim_lines (g : Sig) (s : State) : (s.claim g).lines = s.lines.set g { s.line g with granted := false, own := true } := rfl

@[simp] theorem State.claim_linesAcquired (g : Sig) (s : State) : (s.claim g).linesAcquired = s.linesAcquired := rfl

@[simp] theorem State.claim_reg (g : Sig) (s : State) : (s.claim g).reg = s.reg := rfl

@[simp] theorem State.claim_loaded (g : Sig) (s : State) : (s.claim g).loaded = s.loaded := rfl

@[simp] theorem State.claim_initDone (g : Sig) (s : State) : (s.claim g).initDone = s.initDone := rfl

@[simp] theorem State.claim_lockOwner (g : Sig) (s : State) : (s.claim g).lockOwner = s.lockOwner := rfl

@[simp] theorem State.claim_sess (g : Sig) (s : State) : (s.claim g).sess = s.sess := rfl

@[simp] theorem State.claim_agents (g : Sig) (s : State) : (s.claim g).agents = s.agents := rfl

@[simp] theorem State.claim_now (g : Sig) (s : State) : (s.claim g).now = s.now := rfl

@[simp] theorem State.claim_faults (g : Sig) (s : State) : (s.claim g).faults = s.faults := rfl

@[simp] theorem State.claim_refusals (g : Sig) (s : State) : (s.claim g).refusals = s.refusals := rfl

@[simp] theorem State.claim_trace (g : Sig) (s : State) : (s.claim g).trace = s.trace ++ [.own s.now g] := rfl

@[simp] theorem State.claim_hostCalls (g : Sig) (s : State) : (s.claim g).hostCalls = s.hostCalls := rfl

@[simp] theorem State.claim_results (g : Sig) (s : State) : (s.claim g).results = s.results := rfl

@[simp] theorem State.claim_foreign (g : Sig) (s : State) : (s.claim g).foreign = s.foreign := rfl

@[simp] theorem State.claim_params (g : Sig) (s : State) : (s.claim g).params = s.params := rfl

@[simp] theorem State.claim_self (g : Sig) (s : State) : (s.claim g).self = s.self := rfl

@[simp] theorem State.claim_requests (g : Sig) (s : State) : (s.claim g).requests = s.requests := rfl

@[simp] theorem State.claim_turns (g : Sig) (s : State) : (s.claim g).turns = s.turns := rfl

@[simp] theorem State.claim_delays (g : Sig) (s : State) : (s.claim g).delays = s.delays := rfl

@[simp] theorem State.claim_answers (g : Sig) (s : State) : (s.claim g).answers = s.answers := rfl

@[simp] theorem State.claim_registrations (g : Sig) (s : State) : (s.claim g).registrations = s.registrations := rfl

/-! ### State.denied -/

@[simp] theorem State.denied_lines (g : Sig) (s : State) : (s.denied g).lines = s.lines := rfl

@[simp] theorem State.denied_linesAcquired (g : Sig) (s : State) : (s.denied g).linesAcquired = s.linesAcquired := rfl

@[simp] theorem State.denied_reg (g : Sig) (s : State) : (s.denied g).reg = s.reg := rfl

@[simp] theorem State.denied_loaded (g : Sig) (s : State) : (s.denied g).loaded = s.loaded := rfl

@[simp] theorem State.denied_initDone (g : Sig) (s : State) : (s.denied g).initDone = s.initDone := rfl

@[simp] theorem State.denied_lockOwner (g : Sig) (s : State) : (s.denied g).lockOwner = s.lockOwner := rfl

@[simp] theorem State.denied_sess (g : Sig) (s : State) : (s.denied g).sess = s.sess := rfl

@[simp] theorem State.denied_agents (g : Sig) (s : State) : (s.denied g).agents = s.agents := rfl

@[simp] theorem State.denied_now (g : Sig) (s : State) : (s.denied g).now = s.now := rfl

@[simp] theorem State.denied_faults (g : Sig) (s : State) : (s.denied g).faults = s.faults := rfl

@[simp] theorem State.denied_refusals (g : Sig) (s : State) : (s.denied g).refusals = s.refusals := rfl

@[simp] theorem State.denied_trace (g : Sig) (s : State) : (s.denied g).trace = s.trace := rfl

@[simp] theorem State.denied_hostCalls (g : Sig) (s : State) : (s.denied g).hostCalls = s.hostCalls ++ [.requestLine (s.pin g) (s.params.label.get g) false] := rfl

@[simp] theorem State.denied_results (g : Sig) (s : State) : (s.denied g).results = s.results := rfl

@[simp] theorem State.denied_foreign (g : Sig) (s : State) : (s.denied g).foreign = s.foreign := rfl

@[simp] theorem State.denied_params (g : Sig) (s : State) : (s.denied g).params = s.params := rfl

@[simp] theorem State.denied_self (g : Sig) (s : State) : (s.denied g).self = s.self := rfl

@[simp] theorem State.denied_requests (g : Sig) (s : State) : (s.denied g).requests = s.requests := rfl

@[simp] theorem State.denied_turns (g : Sig) (s : State) : (s.denied g).turns = s.turns := rfl

@[simp] theorem State.denied_delays (g : Sig) (s : State) : (s.denied g).delays = s.delays := rfl

@[simp] theorem State.denied_answers (g : Sig) (s : State) : (s.denied g).answers = s.answers := rfl

@[simp] theorem State.denied_registrations (g : Sig) (s : State) : (s.denied g).registrations = s.registrations := rfl

/-! ### State.driveLow -/

@[simp] theorem State.driveLow_linesAcquired (g : Sig) (s : State) : (s.driveLow g).linesAcquired = s.linesAcquired := by
  unfold State.driveLow; split <;> rfl

@[simp] theorem State.driveLow_reg (g : Sig) (s : State) : (s.driveLow g).reg = s.reg := by
  unfold State.driveLow; split <;> rfl

@[simp] theorem State.driveLow_loaded (g : Sig) (s : State) : (s.driveLow g).loaded = s.loaded := by
  unfold State.driveLow; split <;> rfl

@[simp] theorem State.driveLow_initDone (g : Sig) (s : State) : (s.driveLow g).initDone = s.initDone := by
  unfold State.driveLow; split <;> rfl

@[simp] theorem State.driveLow_lockOwner (g : Sig) (s : State) : (s.driveLow g).lockOwner = s.lockOwner := by
  unfold State.driveLow; split <;> rfl

@[simp] theorem State.driveLow_sess (g : Sig) (s : State) : (s.driveLow g).sess = s.sess := by
  unfold State.driveLow; split <;> rfl

@[simp] theorem State.driveLow_agents (g : Sig) (s : State) : (s.driveLow g).agents = s.agents := by
  unfold State.driveLow; split <;> rfl

@[simp] theorem State.driveLow_now (g : Sig) (s : State) : (s.driveLow g).now = s.now := by
  unfold State.driveLow; split <;> rfl

@[simp] theorem State.driveLow_faults (g : Sig) (s : State) : (s.driveLow g).faults = s.faults := by
  unfold State.driveLow; split <;> rfl

@[simp] theorem State.driveLow_refusals (g : Sig) (s : State) : (s.driveLow g).refusals = s.refusals := by
  unfold State.driveLow; split <;> rfl

@[simp] theorem State.driveLow_hostCalls (g : Sig) (s : State) : (s.driveLow g).hostCalls = s.hostCalls ++ [.setDirection (s.pin g)] := by
  unfold State.driveLow; split <;> rfl

@[simp] theorem State.driveLow_results (g : Sig) (s : State) : (s.driveLow g).results = s.results := by
  unfold State.driveLow; split <;> rfl

@[simp] theorem State.driveLow_foreign (g : Sig) (s : State) : (s.driveLow g).foreign = s.foreign := by
  unfold State.driveLow; split <;> rfl

@[simp] theorem State.driveLow_params (g : Sig) (s : State) : (s.driveLow g).params = s.params := by
  unfold State.driveLow; split <;> rfl

@[simp] theorem State.driveLow_self (g : Sig) (s : State) : (s.driveLow g).self = s.self := by
  unfold State.driveLow; split <;> rfl

@[simp] theorem State.driveLow_requests (g : Sig) (s : State) : (s.driveLow g).requests = s.requests := by
  unfold State.driveLow; split <;> rfl

@[simp] theorem State.driveLow_turns (g : Sig) (s : State) : (s.driveLow g).turns = s.turns := by
  unfold State.driveLow; split <;> rfl

@[simp] theorem State.driveLow_delays (g : Sig) (s : State) : (s.driveLow g).delays = s.delays := by
  unfold State.driveLow; split <;> rfl

@[simp] theorem State.driveLow_answers (g : Sig) (s : State) : (s.driveLow g).answers = s.answers := by
  unfold State.driveLow; split <;> rfl

@[simp] theorem State.driveLow_registrations (g : Sig) (s : State) : (s.driveLow g).registrations = s.registrations := by
  unfold State.driveLow; split <;> rfl

/-! ### State.unclaim -/

@[simp] theorem State.unclaim_lines (g : Sig) (s : State) : (s.unclaim g).lines = s.lines.set g Line.free := rfl

@[simp] theorem State.unclaim_linesAcquired (g : Sig) (s : State) : (s.unclaim g).linesAcquired = s.linesAcquired := rfl

@[simp] theorem State.unclaim_reg (g : Sig) (s : State) : (s.unclaim g).reg = s.reg := rfl

@[simp] theorem State.unclaim_loaded (g : Sig) (s : State) : (s.unclaim g).loaded = s.loaded := rfl

@[simp] theorem State.unclaim_initDone (g : Sig) (s : State) : (s.unclaim g).initDone = s.initDone := rfl

@[simp] theorem State.unclaim_lockOwner (g : Sig) (s : State) : (s.unclaim g).lockOwner = s.lockOwner := rfl

@[simp] theorem State.unclaim_sess (g : Sig) (s : State) : (s.unclaim g).sess = s.sess := rfl

@[simp] theorem State.unclaim_agents (g : Sig) (s : State) : (s.unclaim g).agents = s.agents := rfl

@[simp] theorem State.unclaim_now (g : Sig) (s : State) : (s.unclaim g).now = s.now := rfl

@[simp] theorem State.unclaim_faults (g : Sig) (s : State) : (s.unclaim g).faults = s.faults := rfl

@[simp] theorem State.unclaim_refusals (g : Sig) (s : State) : (s.unclaim g).refusals = s.refusals := rfl

@[simp] theorem State.unclaim_trace (g : Sig) (s : State) : (s.unclaim g).trace = s.trace ++ [.free s.now g] := rfl

@[simp] theorem State.unclaim_hostCalls (g : Sig) (s : State) : (s.unclaim g).hostCalls = s.hostCalls := rfl

@[simp] theorem State.unclaim_results (g : Sig) (s : State) : (s.unclaim g).results = s.results := rfl

@[simp] theorem State.unclaim_foreign (g : Sig) (s : State) : (s.unclaim g).foreign = s.foreign := rfl

@[simp] theorem State.unclaim_params (g : Sig) (s : State) : (s.unclaim g).params = s.params := rfl

@[simp] theorem State.unclaim_self (g : Sig) (s : State) : (s.unclaim g).self = s.self := rfl

@[simp] theorem State.unclaim_requests (g : Sig) (s : State) : (s.unclaim g).requests = s.requests := rfl

@[simp] theorem State.unclaim_turns (g : Sig) (s : State) : (s.unclaim g).turns = s.turns := rfl

@[simp] theorem State.unclaim_delays (g : Sig) (s : State) : (s.unclaim g).delays = s.delays := rfl

@[simp] theorem State.unclaim_answers (g : Sig) (s : State) : (s.unclaim g).answers = s.answers := rfl

@[simp] theorem State.unclaim_registrations (g : Sig) (s : State) : (s.unclaim g).registrations = s.registrations := rfl

/-! ### State.drop -/

@[simp] theorem State.drop_lines (g : Sig) (s : State) : (s.drop g).lines = s.lines.set g Line.free := rfl

@[simp] theorem State.drop_linesAcquired (g : Sig) (s : State) : (s.drop g).linesAcquired = s.linesAcquired := rfl

@[simp] theorem State.drop_reg (g : Sig) (s : State) : (s.drop g).reg = s.reg := rfl

@[simp] theorem State.drop_loaded (g : Sig) (s : State) : (s.drop g).loaded = s.loaded := rfl

@[simp] theorem State.drop_initDone (g : Sig) (s : State) : (s.drop g).initDone = s.initDone := rfl

@[simp] theorem State.drop_lockOwner (g : Sig) (s : State) : (s.drop g).lockOwner = s.lockOwner := rfl

@[simp] theorem State.drop_sess (g : Sig) (s : State) : (s.drop g).sess = s.sess := rfl

@[simp] theorem State.drop_agents (g : Sig) (s : State) : (s.drop g).agents = s.agents := rfl

@[simp] theorem State.drop_now (g : Sig) (s : State) : (s.drop g).now = s.now := rfl

@[simp] theorem State.drop_faults (g : Sig) (s : State) : (s.drop g).faults = s.faults := rfl

@[simp] theorem State.drop_refusals (g : Sig) (s : State) : (s.drop g).refusals = s.refusals := rfl

@[simp] theorem State.drop_trace (g : Sig) (s : State) : (s.drop g).trace = s.trace ++ [.free s.now g] := rfl

@[simp] theorem State.drop_hostCalls (g : Sig) (s : State) : (s.drop g).hostCalls = s.hostCalls ++ [.releaseLine (s.pin g)] := rfl

@[simp] theorem State.drop_results (g : Sig) (s : State) : (s.drop g).results = s.results := rfl

@[simp] theorem State.drop_foreign (g : Sig) (s : State) : (s.drop g).foreign = s.foreign := rfl

@[simp] theorem State.drop_params (g : Sig) (s : State) : (s.drop g).params = s.params := rfl

@[simp] theorem State.drop_self (g : Sig) (s : State) : (s.drop g).self = s.self := rfl

@[simp] theorem State.drop_requests (g : Sig) (s : State) : (s.drop g).requests = s.requests := rfl

@[simp] theorem State.drop_turns (g : Sig) (s : State) : (s.drop g).turns = s.turns := rfl

@[simp] theorem State.drop_delays (g : Sig) (s : State) : (s.drop g).delays = s.delays := rfl

@[simp] theorem State.drop_answers (g : Sig) (s : State) : (s.drop g).answers = s.answers := rfl

@[simp] theorem State.drop_registrations (g : Sig) (s : State) : (s.drop g).registrations = s.registrations := rfl

/-! ### State.askLevel -/

@[simp] theorem State.askLevel_lines (g : Sig) (v : Bool) (s : State) : (s.askLevel g v).lines = s.lines := rfl

@[simp] theorem State.askLevel_linesAcquired (g : Sig) (v : Bool) (s : State) : (s.askLevel g v).linesAcquired = s.linesAcquired := rfl

@[simp] theorem State.askLevel_reg (g : Sig) (v : Bool) (s : State) : (s.askLevel g v).reg = s.reg := rfl

@[simp] theorem State.askLevel_loaded (g : Sig) (v : Bool) (s : State) : (s.askLevel g v).loaded = s.loaded := rfl

@[simp] theorem State.askLevel_initDone (g : Sig) (v : Bool) (s : State) : (s.askLevel g v).initDone = s.initDone := rfl

@[simp] theorem State.askLevel_lockOwner (g : Sig) (v : Bool) (s : State) : (s.askLevel g v).lockOwner = s.lockOwner := rfl

@[simp] theorem State.askLevel_sess (g : Sig) (v : Bool) (s : State) : (s.askLevel g v).sess = s.sess := rfl

@[simp] theorem State.askLevel_agents (g : Sig) (v : Bool) (s : State) : (s.askLevel g v).agents = s.agents := rfl

@[simp] theorem State.askLevel_now (g : Sig) (v : Bool) (s : State) : (s.askLevel g v).now = s.now := rfl

@[simp] theorem State.askLevel_faults (g : Sig) (v : Bool) (s : State) : (s.askLevel g v).faults = s.faults := rfl

@[simp] theorem State.askLevel_refusals (g : Sig) (v : Bool) (s : State) : (s.askLevel g v).refusals = s.refusals := rfl

@[simp] theorem State.askLevel_trace (g : Sig) (v : Bool) (s : State) : (s.askLevel g v).trace = s.trace := rfl

@[simp] theorem State.askLevel_hostCalls (g : Sig) (v : Bool) (s : State) : (s.askLevel g v).hostCalls = s.hostCalls ++ [.setLevel (s.pin g) v (s.accepts g)] := rfl

@[simp] theorem State.askLevel_results (g : Sig) (v : Bool) (s : State) : (s.askLevel g v).results = s.results := rfl

@[simp] theorem State.askLevel_foreign (g : Sig) (v : Bool) (s : State) : (s.askLevel g v).foreign = s.foreign := rfl

@[simp] theorem State.askLevel_params (g : Sig) (v : Bool) (s : State) : (s.askLevel g v).params = s.params := rfl

@[simp] theorem State.askLevel_self (g : Sig) (v : Bool) (s : State) : (s.askLevel g v).self = s.self := rfl

@[simp] theorem State.askLevel_requests (g : Sig) (v : Bool) (s : State) : (s.askLevel g v).requests = s.requests := rfl

@[simp] theorem State.askLevel_turns (g : Sig) (v : Bool) (s : State) : (s.askLevel g v).turns = s.turns := rfl

@[simp] theorem State.askLevel_delays (g : Sig) (v : Bool) (s : State) : (s.askLevel g v).delays = s.delays := rfl

@[simp] theorem State.askLevel_answers (g : Sig) (v : Bool) (s : State) : (s.askLevel g v).answers = s.answers.advance := rfl

@[simp] theorem State.askLevel_registrations (g : Sig) (v : Bool) (s : State) : (s.askLevel g v).registrations = s.registrations := rfl

/-! ### State.writeLevel -/

@[simp] theorem State.writeLevel_linesAcquired (g : Sig) (v : Bool) (s : State) : (s.writeLevel g v).linesAcquired = s.linesAcquired := by
  unfold State.writeLevel; split <;> rfl

@[simp] theorem State.writeLevel_reg (g : Sig) (v : Bool) (s : State) : (s.writeLevel g v).reg = s.reg := by
  unfold State.writeLevel; split <;> rfl

@[simp] theorem State.writeLevel_loaded (g : Sig) (v : Bool) (s : State) : (s.writeLevel g v).loaded = s.loaded := by
  unfold State.writeLevel; split <;> rfl

@[simp] theorem State.writeLevel_initDone (g : Sig) (v : Bool) (s : State) : (s.writeLevel g v).initDone = s.initDone := by
  unfold State.writeLevel; split <;> rfl

@[simp] theorem State.writeLevel_lockOwner (g : Sig) (v : Bool) (s : State) : (s.writeLevel g v).lockOwner = s.lockOwner := by
  unfold State.writeLevel; split <;> rfl

@[simp] theorem State.writeLevel_sess (g : Sig) (v : Bool) (s : State) : (s.writeLevel g v).sess = s.sess := by
  unfold State.writeLevel; split <;> rfl

@[simp] theorem State.writeLevel_agents (g : Sig) (v : Bool) (s : State) : (s.writeLevel g v).agents = s.agents := by
  unfold State.writeLevel; split <;> rfl

@[simp] theorem State.writeLevel_now (g : Sig) (v : Bool) (s : State) : (s.writeLevel g v).now = s.now := by
  unfold State.writeLevel; split <;> rfl

@[simp] theorem State.writeLevel_faults (g : Sig) (v : Bool) (s : State) : (s.writeLevel g v).faults = s.faults := by
  unfold State.writeLevel; split <;> rfl

@[simp] theorem State.writeLevel_refusals (g : Sig) (v : Bool) (s : State) : (s.writeLevel g v).refusals = s.refusals := by
  unfold State.writeLevel; split <;> rfl

@[simp] theorem State.writeLevel_hostCalls (g : Sig) (v : Bool) (s : State) : (s.writeLevel g v).hostCalls = s.hostCalls ++ [.setLevel (s.pin g) v (s.accepts g)] := by
  unfold State.writeLevel; split <;> rfl

@[simp] theorem State.writeLevel_results (g : Sig) (v : Bool) (s : State) : (s.writeLevel g v).results = s.results := by
  unfold State.writeLevel; split <;> rfl

@[simp] theorem State.writeLevel_foreign (g : Sig) (v : Bool) (s : State) : (s.writeLevel g v).foreign = s.foreign := by
  unfold State.writeLevel; split <;> rfl

@[simp] theorem State.writeLevel_params (g : Sig) (v : Bool) (s : State) : (s.writeLevel g v).params = s.params := by
  unfold State.writeLevel; split <;> rfl

@[simp] theorem State.writeLevel_self (g : Sig) (v : Bool) (s : State) : (s.writeLevel g v).self = s.self := by
  unfold State.writeLevel; split <;> rfl

@[simp] theorem State.writeLevel_requests (g : Sig) (v : Bool) (s : State) : (s.writeLevel g v).requests = s.requests := by
  unfold State.writeLevel; split <;> rfl

@[simp] theorem State.writeLevel_turns (g : Sig) (v : Bool) (s : State) : (s.writeLevel g v).turns = s.turns := by
  unfold State.writeLevel; split <;> rfl

@[simp] theorem State.writeLevel_delays (g : Sig) (v : Bool) (s : State) : (s.writeLevel g v).delays = s.delays := by
  unfold State.writeLevel; split <;> rfl

@[simp] theorem State.writeLevel_answers (g : Sig) (v : Bool) (s : State) : (s.writeLevel g v).answers = s.answers.advance := by
  unfold State.writeLevel; split <;> rfl

@[simp] theorem State.writeLevel_registrations (g : Sig) (v : Bool) (s : State) : (s.writeLevel g v).registrations = s.registrations := by
  unfold State.writeLevel; split <;> rfl

/-! ### State.askRegistration -/

@[simp] theorem State.askRegistration_lines (c : HostCall) (s : State) : (s.askRegistration c).lines = s.lines := rfl

@[simp] theorem State.askRegistration_linesAcquired (c : HostCall) (s : State) : (s.askRegistration c).linesAcquired = s.linesAcquired := rfl

@[simp] theorem State.askRegistration_reg (c : HostCall) (s : State) : (s.askRegistration c).reg = s.reg := rfl

@[simp] theorem State.askRegistration_loaded (c : HostCall) (s : State) : (s.askRegistration c).loaded = s.loaded := rfl

@[simp] theorem State.askRegistration_initDone (c : HostCall) (s : State) : (s.askRegistration c).initDone = s.initDone := rfl

@[simp] theorem State.askRegistration_lockOwner (c : HostCall) (s : State) : (s.askRegistration c).lockOwner = s.lockOwner := rfl

@[simp] theorem State.askRegistration_sess (c : HostCall) (s : State) : (s.askRegistration c).sess = s.sess := rfl

@[simp] theorem State.askRegistration_agents (c : HostCall) (s : State) : (s.askRegistration c).agents = s.agents := rfl

@[simp] theorem State.askRegistration_now (c : HostCall) (s : State) : (s.askRegistration c).now = s.now := rfl

@[simp] theorem State.askRegistration_faults (c : HostCall) (s : State) : (s.askRegistration c).faults = s.faults := rfl

@[simp] theorem State.askRegistration_refusals (c : HostCall) (s : State) : (s.askRegistration c).refusals = s.refusals := rfl

@[simp] theorem State.askRegistration_trace (c : HostCall) (s : State) : (s.askRegistration c).trace = s.trace := rfl

@[simp] theorem State.askRegistration_hostCalls (c : HostCall) (s : State) : (s.askRegistration c).hostCalls = s.hostCalls ++ [c] := rfl

@[simp] theorem State.askRegistration_results (c : HostCall) (s : State) : (s.askRegistration c).results = s.results := rfl

@[simp] theorem State.askRegistration_foreign (c : HostCall) (s : State) : (s.askRegistration c).foreign = s.foreign := rfl

@[simp] theorem State.askRegistration_params (c : HostCall) (s : State) : (s.askRegistration c).params = s.params := rfl

@[simp] theorem State.askRegistration_self (c : HostCall) (s : State) : (s.askRegistration c).self = s.self := rfl

@[simp] theorem State.askRegistration_requests (c : HostCall) (s : State) : (s.askRegistration c).requests = s.requests := rfl

@[simp] theorem State.askRegistration_turns (c : HostCall) (s : State) : (s.askRegistration c).turns = s.turns := rfl

@[simp] theorem State.askRegistration_delays (c : HostCall) (s : State) : (s.askRegistration c).delays = s.delays := rfl

@[simp] theorem State.askRegistration_answers (c : HostCall) (s : State) : (s.askRegistration c).answers = s.answers := rfl

@[simp] theorem State.askRegistration_registrations (c : HostCall) (s : State) : (s.askRegistration c).registrations = s.registrations.advance := rfl

/-! ### State.park -/

@[simp] theorem State.park_lines (a : Nat) (t : Task) (s : State) : (s.park a t).lines = s.lines := rfl

@[simp] theorem State.park_linesAcquired (a : Nat) (t : Task) (s : State) : (s.park a t).linesAcquired = s.linesAcquired := rfl

@[simp] theorem State.park_reg (a : Nat) (t : Task) (s : State) : (s.park a t).reg = s.reg := rfl

@[simp] theorem State.park_loaded (a : Nat) (t : Task) (s : State) : (s.park a t).loaded = s.loaded := rfl

@[simp] theorem State.park_initDone (a : Nat) (t : Task) (s : State) : (s.park a t).initDone = s.initDone := rfl

@[simp] theorem State.park_lockOwner (a : Nat) (t : Task) (s : State) : (s.park a t).lockOwner = s.lockOwner := rfl

@[simp] theorem State.park_sess (a : Nat) (t : Task) (s : State) : (s.park a t).sess = s.sess := rfl

@[simp] theorem State.park_agents (a : Nat) (t : Task) (s : State) : (s.park a t).agents = mapPut a (.running t) s.agents := rfl

@[simp] theorem State.park_now (a : Nat) (t : Task) (s : State) : (s.park a t).now = s.now := rfl

@[simp] theorem State.park_faults (a : Nat) (t : Task) (s : State) : (s.park a t).faults = s.faults := rfl

@[simp] theorem State.park_refusals (a : Nat) (t : Task) (s : State) : (s.park a t).refusals = s.refusals := rfl

@[simp] theorem State.park_trace (a : Nat) (t : Task) (s : State) : (s.park a t).trace = s.trace := rfl

@[simp] theorem State.park_hostCalls (a : Nat) (t : Task) (s : State) : (s.park a t).hostCalls = s.hostCalls := rfl

@[simp] theorem State.park_results (a : Nat) (t : Task) (s : State) : (s.park a t).results = s.results := rfl

@[simp] theorem State.park_foreign (a : Nat) (t : Task) (s : State) : (s.park a t).foreign = s.foreign := rfl

@[simp] theorem State.park_params (a : Nat) (t : Task) (s : State) : (s.park a t).params = s.params := rfl

@[simp] theorem State.park_self (a : Nat) (t : Task) (s : State) : (s.park a t).self = s.self := rfl

@[simp] theorem State.park_requests (a : Nat) (t : Task) (s : State) : (s.park a t).requests = s.requests := rfl

@[simp] theorem State.park_turns (a : Nat) (t : Task) (s : State) : (s.park a t).turns = s.turns := rfl

@[simp] theorem State.park_delays (a : Nat) (t : Task) (s : State) : (s.park a t).delays = s.delays := rfl

@[simp] theorem State.park_answers (a : Nat) (t : Task) (s : State) : (s.park a t).answers = s.answers := rfl

@[simp] theorem State.park_registrations (a : Nat) (t : Task) (s : State) : (s.park a t).registrations = s.registrations := rfl

/-! ### State.finish -/

@[simp] theorem State.finish_lines (a : Nat) (o : Op) (r : Option Result) (s : State) : (s.finish a o r).lines = s.lines := rfl

@[simp] theorem State.finish_linesAcquired (a : Nat) (o : Op) (r : Option Result) (s : State) : (s.finish a o r).linesAcquired = s.linesAcquired := rfl

@[simp] theorem State.finish_reg (a : Nat) (o : Op) (r : Option Result) (s : State) : (s.finish a o r).reg = s.reg := rfl

@[simp] theorem State.finish_loaded (a : Nat) (o : Op) (r : Option Result) (s : State) : (s.finish a o r).loaded = s.loaded := rfl

@[simp] theorem State.finish_initDone (a : Nat) (o : Op) (r : Option Result) (s : State) : (s.finish a o r).initDone = s.initDone := rfl

@[simp] theorem State.finish_lockOwner (a : Nat) (o : Op) (r : Option Result) (s : State) : (s.finish a o r).lockOwner = s.lockOwner := rfl

@[simp] theorem State.finish_sess (a : Nat) (o : Op) (r : Option Result) (s : State) : (s.finish a o r).sess = s.sess := rfl

@[simp] theorem State.finish_agents (a : Nat) (o : Op) (r : Option Result) (s : State) : (s.finish a o r).agents = mapErase a s.agents := rfl

@[simp] theorem State.finish_now (a : Nat) (o : Op) (r : Option Result) (s : State) : (s.finish a o r).now = s.now := rfl

@[simp] theorem State.finish_faults (a : Nat) (o : Op) (r : Option Result) (s : State) : (s.finish a o r).faults = s.faults := rfl

@[simp] theorem State.finish_refusals (a : Nat) (o : Op) (r : Option Result) (s : State) : (s.finish a o r).refusals = s.refusals := rfl

@[simp] theorem State.finish_trace (a : Nat) (o : Op) (r : Option Result) (s : State) : (s.finish a o r).trace = s.trace := rfl

@[simp] theorem State.finish_hostCalls (a : Nat) (o : Op) (r : Option Result) (s : State) : (s.finish a o r).hostCalls = s.hostCalls := rfl

@[simp] theorem State.finish_foreign (a : Nat) (o : Op) (r : Option Result) (s : State) : (s.finish a o r).foreign = s.foreign := rfl

@[simp] theorem State.finish_params (a : Nat) (o : Op) (r : Option Result) (s : State) : (s.finish a o r).params = s.params := rfl

@[simp] theorem State.finish_self (a : Nat) (o : Op) (r : Option Result) (s : State) : (s.finish a o r).self = s.self := rfl

@[simp] theorem State.finish_requests (a : Nat) (o : Op) (r : Option Result) (s : State) : (s.finish a o r).requests = s.requests := rfl

@[simp] theorem State.finish_turns (a : Nat) (o : Op) (r : Option Result) (s : State) : (s.finish a o r).turns = s.turns := rfl

@[simp] theorem State.finish_delays (a : Nat) (o : Op) (r : Option Result) (s : State) : (s.finish a o r).delays = s.delays := rfl

@[simp] theorem State.finish_answers (a : Nat) (o : Op) (r : Option Result) (s : State) : (s.finish a o r).answers = s.answers := rfl

@[simp] theorem State.finish_registrations (a : Nat) (o : Op) (r : Option Result) (s : State) : (s.finish a o r).registrations = s.registrations := rfl

/-! ### State.raise -/

@[simp] theorem State.raise_lines (a : Nat) (pc site : Pc) (c : FaultCode) (s : State) : (s.raise a pc site c).lines = s.lines := rfl

@[simp] theorem State.raise_linesAcquired (a : Nat) (pc site : Pc) (c : FaultCode) (s : State) : (s.raise a pc site c).linesAcquired = s.linesAcquired := rfl

@[simp] theorem State.raise_reg (a : Nat) (pc site : Pc) (c : FaultCode) (s : State) : (s.raise a pc site c).reg = s.reg := rfl

@[simp] theorem State.raise_loaded (a : Nat) (pc site : Pc) (c : FaultCode) (s : State) : (s.raise a pc site c).loaded = s.loaded := rfl

@[simp] theorem State.raise_initDone (a : Nat) (pc site : Pc) (c : FaultCode) (s : State) : (s.raise a pc site c).initDone = s.initDone := rfl

@[simp] theorem State.raise_lockOwner (a : Nat) (pc site : Pc) (c : FaultCode) (s : State) : (s.raise a pc site c).lockOwner = s.lockOwner := rfl

@[simp] theorem State.raise_sess (a : Nat) (pc site : Pc) (c : FaultCode) (s : State) : (s.raise a pc site c).sess = s.sess := rfl

@[simp] theorem State.raise_agents (a : Nat) (pc site : Pc) (c : FaultCode) (s : State) : (s.raise a pc site c).agents = mapPut a (.faulted pc) s.agents := rfl

@[simp] theorem State.raise_now (a : Nat) (pc site : Pc) (c : FaultCode) (s : State) : (s.raise a pc site c).now = s.now + s.delays.head Config.freeDelay := rfl

@[simp] theorem State.raise_faults (a : Nat) (pc site : Pc) (c : FaultCode) (s : State) : (s.raise a pc site c).faults = s.faults ++ [{ code := c, agent := a, pc := site, now := s.now + s.delays.head Config.freeDelay }] := rfl

@[simp] theorem State.raise_refusals (a : Nat) (pc site : Pc) (c : FaultCode) (s : State) : (s.raise a pc site c).refusals = s.refusals := rfl

@[simp] theorem State.raise_trace (a : Nat) (pc site : Pc) (c : FaultCode) (s : State) : (s.raise a pc site c).trace = s.trace := rfl

@[simp] theorem State.raise_hostCalls (a : Nat) (pc site : Pc) (c : FaultCode) (s : State) : (s.raise a pc site c).hostCalls = s.hostCalls := rfl

@[simp] theorem State.raise_results (a : Nat) (pc site : Pc) (c : FaultCode) (s : State) : (s.raise a pc site c).results = s.results := rfl

@[simp] theorem State.raise_foreign (a : Nat) (pc site : Pc) (c : FaultCode) (s : State) : (s.raise a pc site c).foreign = s.foreign := rfl

@[simp] theorem State.raise_params (a : Nat) (pc site : Pc) (c : FaultCode) (s : State) : (s.raise a pc site c).params = s.params := rfl

@[simp] theorem State.raise_self (a : Nat) (pc site : Pc) (c : FaultCode) (s : State) : (s.raise a pc site c).self = s.self := rfl

@[simp] theorem State.raise_requests (a : Nat) (pc site : Pc) (c : FaultCode) (s : State) : (s.raise a pc site c).requests = s.requests := rfl

@[simp] theorem State.raise_turns (a : Nat) (pc site : Pc) (c : FaultCode) (s : State) : (s.raise a pc site c).turns = s.turns := rfl

@[simp] theorem State.raise_delays (a : Nat) (pc site : Pc) (c : FaultCode) (s : State) : (s.raise a pc site c).delays = s.delays.advance := rfl

@[simp] theorem State.raise_answers (a : Nat) (pc site : Pc) (c : FaultCode) (s : State) : (s.raise a pc site c).answers = s.answers := rfl

@[simp] theorem State.raise_registrations (a : Nat) (pc site : Pc) (c : FaultCode) (s : State) : (s.raise a pc site c).registrations = s.registrations := rfl

/-! ### State.refuse -/

@[simp] theorem State.refuse_lines (r : RefusalReason) (s : State) : (s.refuse r).lines = s.lines := rfl

@[simp] theorem State.refuse_linesAcquired (r : RefusalReason) (s : State) : (s.refuse r).linesAcquired = s.linesAcquired := rfl

@[simp] theorem State.refuse_reg (r : RefusalReason) (s : State) : (s.refuse r).reg = s.reg := rfl

@[simp] theorem State.refuse_loaded (r : RefusalReason) (s : State) : (s.refuse r).loaded = s.loaded := rfl

@[simp] theorem State.refuse_initDone (r : RefusalReason) (s : State) : (s.refuse r).initDone = s.initDone := rfl

@[simp] theorem State.refuse_lockOwner (r : RefusalReason) (s : State) : (s.refuse r).lockOwner = s.lockOwner := rfl

@[simp] theorem State.refuse_sess (r : RefusalReason) (s : State) : (s.refuse r).sess = s.sess := rfl

@[simp] theorem State.refuse_agents (r : RefusalReason) (s : State) : (s.refuse r).agents = s.agents := rfl

@[simp] theorem State.refuse_now (r : RefusalReason) (s : State) : (s.refuse r).now = s.now := rfl

@[simp] theorem State.refuse_faults (r : RefusalReason) (s : State) : (s.refuse r).faults = s.faults := rfl

@[simp] theorem State.refuse_refusals (r : RefusalReason) (s : State) : (s.refuse r).refusals = s.refusals ++ [r] := rfl

@[simp] theorem State.refuse_trace (r : RefusalReason) (s : State) : (s.refuse r).trace = s.trace := rfl

@[simp] theorem State.refuse_hostCalls (r : RefusalReason) (s : State) : (s.refuse r).hostCalls = s.hostCalls := rfl

@[simp] theorem State.refuse_results (r : RefusalReason) (s : State) : (s.refuse r).results = s.results := rfl

@[simp] theorem State.refuse_foreign (r : RefusalReason) (s : State) : (s.refuse r).foreign = s.foreign := rfl

@[simp] theorem State.refuse_params (r : RefusalReason) (s : State) : (s.refuse r).params = s.params := rfl

@[simp] theorem State.refuse_self (r : RefusalReason) (s : State) : (s.refuse r).self = s.self := rfl

@[simp] theorem State.refuse_requests (r : RefusalReason) (s : State) : (s.refuse r).requests = s.requests := rfl

@[simp] theorem State.refuse_turns (r : RefusalReason) (s : State) : (s.refuse r).turns = s.turns := rfl

@[simp] theorem State.refuse_delays (r : RefusalReason) (s : State) : (s.refuse r).delays = s.delays := rfl

@[simp] theorem State.refuse_answers (r : RefusalReason) (s : State) : (s.refuse r).answers = s.answers := rfl

@[simp] theorem State.refuse_registrations (r : RefusalReason) (s : State) : (s.refuse r).registrations = s.registrations := rfl

/-! ### State.issue -/

@[simp] theorem State.issue_lines (r : Request) (s : State) : (s.issue r).lines = s.lines := rfl

@[simp] theorem State.issue_linesAcquired (r : Request) (s : State) : (s.issue r).linesAcquired = s.linesAcquired := rfl

@[simp] theorem State.issue_reg (r : Request) (s : State) : (s.issue r).reg = s.reg := rfl

@[simp] theorem State.issue_loaded (r : Request) (s : State) : (s.issue r).loaded = s.loaded := rfl

@[simp] theorem State.issue_initDone (r : Request) (s : State) : (s.issue r).initDone = s.initDone := rfl

@[simp] theorem State.issue_lockOwner (r : Request) (s : State) : (s.issue r).lockOwner = s.lockOwner := rfl

@[simp] theorem State.issue_sess (r : Request) (s : State) : (s.issue r).sess = s.sess := rfl

@[simp] theorem State.issue_agents (r : Request) (s : State) : (s.issue r).agents = s.agents := rfl

@[simp] theorem State.issue_now (r : Request) (s : State) : (s.issue r).now = s.now := rfl

@[simp] theorem State.issue_faults (r : Request) (s : State) : (s.issue r).faults = s.faults := rfl

@[simp] theorem State.issue_refusals (r : Request) (s : State) : (s.issue r).refusals = s.refusals := rfl

@[simp] theorem State.issue_trace (r : Request) (s : State) : (s.issue r).trace = s.trace := rfl

@[simp] theorem State.issue_hostCalls (r : Request) (s : State) : (s.issue r).hostCalls = s.hostCalls := rfl

@[simp] theorem State.issue_results (r : Request) (s : State) : (s.issue r).results = s.results := rfl

@[simp] theorem State.issue_foreign (r : Request) (s : State) : (s.issue r).foreign = s.foreign := rfl

@[simp] theorem State.issue_params (r : Request) (s : State) : (s.issue r).params = s.params := rfl

@[simp] theorem State.issue_self (r : Request) (s : State) : (s.issue r).self = r.agent := rfl

@[simp] theorem State.issue_requests (r : Request) (s : State) : (s.issue r).requests = s.requests.tail := rfl

@[simp] theorem State.issue_turns (r : Request) (s : State) : (s.issue r).turns = s.turns := rfl

@[simp] theorem State.issue_delays (r : Request) (s : State) : (s.issue r).delays = s.delays := rfl

@[simp] theorem State.issue_answers (r : Request) (s : State) : (s.issue r).answers = s.answers := rfl

@[simp] theorem State.issue_registrations (r : Request) (s : State) : (s.issue r).registrations = s.registrations := rfl

/-! ### State.afterTurn -/

@[simp] theorem State.afterTurn_lines (s : State) : s.afterTurn.lines = s.lines := rfl

@[simp] theorem State.afterTurn_linesAcquired (s : State) : s.afterTurn.linesAcquired = s.linesAcquired := rfl

@[simp] theorem State.afterTurn_reg (s : State) : s.afterTurn.reg = s.reg := rfl

@[simp] theorem State.afterTurn_loaded (s : State) : s.afterTurn.loaded = s.loaded := rfl

@[simp] theorem State.afterTurn_initDone (s : State) : s.afterTurn.initDone = s.initDone := rfl

@[simp] theorem State.afterTurn_lockOwner (s : State) : s.afterTurn.lockOwner = s.lockOwner := rfl

@[simp] theorem State.afterTurn_sess (s : State) : s.afterTurn.sess = s.sess := rfl

@[simp] theorem State.afterTurn_agents (s : State) : s.afterTurn.agents = s.agents := rfl

@[simp] theorem State.afterTurn_now (s : State) : s.afterTurn.now = s.now := rfl

@[simp] theorem State.afterTurn_faults (s : State) : s.afterTurn.faults = s.faults := rfl

@[simp] theorem State.afterTurn_refusals (s : State) : s.afterTurn.refusals = s.refusals := rfl

@[simp] theorem State.afterTurn_trace (s : State) : s.afterTurn.trace = s.trace := rfl

@[simp] theorem State.afterTurn_hostCalls (s : State) : s.afterTurn.hostCalls = s.hostCalls := rfl

@[simp] theorem State.afterTurn_results (s : State) : s.afterTurn.results = s.results := rfl

@[simp] theorem State.afterTurn_foreign (s : State) : s.afterTurn.foreign = s.foreign := rfl

@[simp] theorem State.afterTurn_params (s : State) : s.afterTurn.params = s.params := rfl

@[simp] theorem State.afterTurn_self (s : State) : s.afterTurn.self = s.self := rfl

@[simp] theorem State.afterTurn_requests (s : State) : s.afterTurn.requests = s.requests := rfl

@[simp] theorem State.afterTurn_turns (s : State) : s.afterTurn.turns = s.turns.advance := rfl

@[simp] theorem State.afterTurn_delays (s : State) : s.afterTurn.delays = s.delays := rfl

@[simp] theorem State.afterTurn_answers (s : State) : s.afterTurn.answers = s.answers := rfl

@[simp] theorem State.afterTurn_registrations (s : State) : s.afterTurn.registrations = s.registrations := rfl

/-! ### results of a finished request -/

@[simp] theorem State.finish_results_some (a : Nat) (o : Op) (r : Result) (s : State) :
    (s.finish a o (some r)).results = s.results ++ [{ agent := a, op := o, result := r }] := rfl

@[simp] theorem State.finish_results_none (a : Nat) (o : Op) (s : State) : (s.finish a o none).results = s.results := rfl

end Sys2Proof.Machine
end

