-- ==== Sys2Proof/Laws/Basic.lean ====
section
/-! SUPPORT. Values per signal, canonical sets and maps, and streams of free values. -/

namespace Sys2Proof

@[simp] theorem PerSig.get_set_self {α : Type} (p : PerSig α) (g : Sig) (v : α) : (p.set g v).get g = v := by
  cases g <;> rfl

theorem PerSig.get_set_other {α : Type} (p : PerSig α) {g h : Sig} (v : α) (ne : h ≠ g) :
    (p.set g v).get h = p.get h := by
  cases g <;> cases h <;> first | rfl | exact absurd rfl ne

theorem PerSig.get_set {α : Type} (p : PerSig α) (g h : Sig) (v : α) :
    (p.set g v).get h = if h = g then v else p.get h := by
  by_cases e : h = g
  · subst e; simp
  · rw [if_neg e, PerSig.get_set_other p v e]

@[simp] theorem PerSig.get_of {α : Type} (f : Sig → α) (g : Sig) : (PerSig.of f).get g = f g := by cases g <;> rfl

theorem PerSig.ext_get {α : Type} {p q : PerSig α} (h : ∀ g, p.get g = q.get g) : p = q := by
  cases p; cases q
  simp only [PerSig.mk.injEq]
  exact ⟨h .rs, h .rw, h .e, h .db4, h .db5, h .db6, h .db7⟩

@[simp] theorem PerSig.set_get {α : Type} (p : PerSig α) (g : Sig) : p.set g (p.get g) = p := by
  cases g <;> rfl

@[simp] theorem PerSig.set_set {α : Type} (p : PerSig α) (g : Sig) (v w : α) : (p.set g v).set g w = p.set g w := by
  cases g <;> rfl

end Sys2Proof

namespace Sys2Proof.Machine

/-! ### Sets -/

theorem mem_setInsert (n k : Nat) (l : List Nat) : k ∈ setInsert n l ↔ k = n ∨ k ∈ l := by
  induction l with
  | nil => simp [setInsert]
  | cons m ms ih =>
    unfold setInsert
    split
    · simp
    · split
      · next h => subst h; simp
      · simp only [List.mem_cons, ih]; tauto

theorem setInsert_wf (n : Nat) {l : List Nat} (h : setWf l) : setWf (setInsert n l) := by
  induction l with
  | nil => simp [setInsert, setWf]
  | cons m ms ih =>
    obtain ⟨hm, hms⟩ := List.pairwise_cons.mp h
    unfold setInsert
    split
    · next lt =>
      refine List.pairwise_cons.mpr ⟨fun k hk => ?_, h⟩
      rcases List.mem_cons.mp hk with rfl | hk
      · exact lt
      · exact lt_trans lt (hm k hk)
    · split
      · exact h
      · next nlt ne =>
        refine List.pairwise_cons.mpr ⟨fun k hk => ?_, ih hms⟩
        rcases (mem_setInsert n k ms).mp hk with rfl | hk
        · omega
        · exact hm k hk

theorem setErase_sublist (n : Nat) (l : List Nat) : (setErase n l).Sublist l := by
  induction l with
  | nil => exact List.Sublist.slnil
  | cons m ms ih =>
    unfold setErase
    split
    · exact List.sublist_cons_self m ms
    · exact ih.cons_cons m

theorem setErase_wf (n : Nat) {l : List Nat} (h : setWf l) : setWf (setErase n l) :=
  h.sublist (setErase_sublist n l)

theorem mem_setErase (n k : Nat) {l : List Nat} (h : setWf l) : k ∈ setErase n l ↔ k ∈ l ∧ k ≠ n := by
  induction l with
  | nil => simp [setErase]
  | cons m ms ih =>
    obtain ⟨hm, hms⟩ := List.pairwise_cons.mp h
    unfold setErase
    split
    · next e =>
      subst e
      constructor
      · intro hk
        have := hm k hk
        exact ⟨List.mem_cons_of_mem _ hk, by omega⟩
      · rintro ⟨hk, ne⟩
        exact (List.mem_cons.mp hk).resolve_left ne
    · next ne =>
      simp only [List.mem_cons, ih hms]
      constructor
      · rintro (rfl | ⟨hk, kn⟩)
        · exact ⟨Or.inl rfl, fun e => ne e.symm⟩
        · exact ⟨Or.inr hk, kn⟩
      · rintro ⟨rfl | hk, kn⟩
        · exact Or.inl rfl
        · exact Or.inr ⟨hk, kn⟩

theorem setOf_wf (l : List Nat) : setWf (setOf l) := by
  induction l with
  | nil => simp [setOf, setWf]
  | cons m ms ih => exact setInsert_wf m ih

/-! ### Maps -/

section
variable {α : Type}

@[simp] theorem mapGet_mapPut_self (k : Nat) (v : α) (m : List (Nat × α)) : mapGet k (mapPut k v m) = some v := by
  induction m with
  | nil => simp [mapPut, mapGet]
  | cons p m ih =>
    obtain ⟨j, w⟩ := p
    unfold mapPut
    split
    · simp [mapGet]
    · split
      · simp [mapGet]
      · next ne => simp [mapGet, ne, ih]

theorem mapGet_mapPut_other {k i : Nat} (v : α) (m : List (Nat × α)) (ne : i ≠ k) :
    mapGet i (mapPut k v m) = mapGet i m := by
  induction m with
  | nil => simp [mapPut, mapGet, ne]
  | cons p m ih =>
    obtain ⟨j, w⟩ := p
    unfold mapPut
    split
    · simp [mapGet, ne]
    · split
      · next e => subst e; simp [mapGet, ne]
      · simp only [mapGet, ih]

theorem mem_mapPut {k : Nat} {v : α} {p : Nat × α} {m : List (Nat × α)} (h : p ∈ mapPut k v m) :
    p = (k, v) ∨ p ∈ m := by
  induction m with
  | nil => simpa [mapPut] using h
  | cons q m ih =>
    obtain ⟨j, w⟩ := q
    unfold mapPut at h
    split at h
    · simpa using h
    · split at h
      · rcases List.mem_cons.mp h with h | h
        · exact Or.inl h
        · exact Or.inr (List.mem_cons_of_mem _ h)
      · rcases List.mem_cons.mp h with h | h
        · exact Or.inr (h ▸ List.mem_cons_self)
        · exact (ih h).imp_right (List.mem_cons_of_mem _)

theorem mapErase_sublist (k : Nat) (m : List (Nat × α)) : (mapErase k m).Sublist m := by
  induction m with
  | nil => exact List.Sublist.slnil
  | cons q m ih =>
    obtain ⟨j, w⟩ := q
    unfold mapErase
    split
    · exact List.sublist_cons_self _ m
    · exact ih.cons_cons _

theorem mapErase_wf (k : Nat) {m : List (Nat × α)} (h : mapWf m) : mapWf (mapErase k m) :=
  h.sublist ((mapErase_sublist k m).map Prod.fst)

theorem mapPut_wf (k : Nat) (v : α) {m : List (Nat × α)} (h : mapWf m) : mapWf (mapPut k v m) := by
  induction m with
  | nil => simp [mapPut, mapWf]
  | cons q m ih =>
    obtain ⟨j, w⟩ := q
    simp only [mapWf, List.map_cons] at h
    obtain ⟨hj, hm⟩ := List.pairwise_cons.mp h
    unfold mapPut
    split
    · next lt =>
      simp only [mapWf, List.map_cons]
      refine List.pairwise_cons.mpr ⟨fun i hi => ?_, h⟩
      rcases List.mem_cons.mp hi with rfl | hi
      · exact lt
      · exact lt_trans lt (hj i hi)
    · split
      · next e => subst e; simpa [mapWf] using h
      · next nlt ne =>
        simp only [mapWf, List.map_cons]
        refine List.pairwise_cons.mpr ⟨fun i hi => ?_, ih hm⟩
        obtain ⟨p, hp, rfl⟩ := List.mem_map.mp hi
        rcases mem_mapPut hp with rfl | hp
        · omega
        · exact hj _ (List.mem_map_of_mem hp)

theorem mapGet_mem {k : Nat} {v : α} {m : List (Nat × α)} (h : mapGet k m = some v) : (k, v) ∈ m := by
  induction m with
  | nil => simp [mapGet] at h
  | cons q m ih =>
    obtain ⟨j, w⟩ := q
    unfold mapGet at h
    split at h
    · next e => subst e; cases h; exact List.mem_cons_self
    · exact List.mem_cons_of_mem _ (ih h)

@[simp] theorem mapPut_mapPut (k : Nat) (v w : α) (m : List (Nat × α)) :
    mapPut k v (mapPut k w m) = mapPut k v m := by
  induction m with
  | nil => simp [mapPut]
  | cons q m ih =>
    obtain ⟨j, x⟩ := q
    by_cases lt : k < j
    · simp [mapPut, lt]
    · by_cases e : k = j
      · simp [mapPut, e]
      · simp [mapPut, lt, e, ih]

/-- A key the map lacks stays lacking after it is put in and taken out again. -/
theorem mapErase_mapPut {k : Nat} (v : α) {m : List (Nat × α)} (h : mapGet k m = none) :
    mapErase k (mapPut k v m) = m := by
  induction m with
  | nil => simp [mapPut, mapErase]
  | cons q m ih =>
    obtain ⟨j, x⟩ := q
    unfold mapGet at h
    split at h
    · cases h
    · next ne =>
      by_cases lt : k < j
      · simp [mapPut, lt, mapErase]
      · simp [mapPut, lt, ne, mapErase, ih h]

/-- Taking a key out leaves the other keys as they are. -/
theorem mapGet_mapErase_other {k i : Nat} (m : List (Nat × α)) (ne : i ≠ k) :
    mapGet i (mapErase k m) = mapGet i m := by
  induction m with
  | nil => rfl
  | cons q m ih =>
    obtain ⟨j, x⟩ := q
    unfold mapErase
    split
    · next e => subst e; simp [mapGet, ne]
    · simp only [mapGet, ih]

/-- No key below the first one of a canonical map is in it. -/
theorem mapGet_none_of_lt {k : Nat} {m : List (Nat × α)} (h : ∀ i ∈ m.map Prod.fst, k < i) : mapGet k m = none := by
  induction m with
  | nil => rfl
  | cons q m ih =>
    obtain ⟨j, x⟩ := q
    simp only [List.map_cons, List.mem_cons, forall_eq_or_imp] at h
    simp [mapGet, h.1.ne, ih h.2]

/-- A key taken out of a canonical map is not in it. -/
theorem mapGet_mapErase_self (k : Nat) {m : List (Nat × α)} (h : mapWf m) : mapGet k (mapErase k m) = none := by
  induction m with
  | nil => rfl
  | cons q m ih =>
    obtain ⟨j, x⟩ := q
    simp only [mapWf, List.map_cons] at h
    obtain ⟨hj, hm⟩ := List.pairwise_cons.mp h
    unfold mapErase
    split
    · next e => subst e; exact mapGet_none_of_lt hj
    · next ne => simp [mapGet, ne, ih hm]

/-- Putting back the value a canonical map holds changes nothing. -/
theorem mapPut_self {k : Nat} {v : α} {m : List (Nat × α)} (h : mapWf m) (e : mapGet k m = some v) :
    mapPut k v m = m := by
  induction m with
  | nil => cases e
  | cons q m ih =>
    obtain ⟨j, x⟩ := q
    simp only [mapWf, List.map_cons] at h
    obtain ⟨hj, hm⟩ := List.pairwise_cons.mp h
    by_cases ek : k = j
    · subst ek
      simp only [mapGet, if_true, Option.some.injEq] at e
      simp [mapPut, e]
    · have nlt : ¬ k < j := fun lt => by
        rw [mapGet, if_neg ek, mapGet_none_of_lt fun i hi => lt_trans lt (hj i hi)] at e
        cases e
      rw [mapGet, if_neg ek] at e
      simp [mapPut, nlt, ek, ih hm e]

theorem mapErase_of_none {k : Nat} {m : List (Nat × α)} (h : mapGet k m = none) : mapErase k m = m := by
  induction m with
  | nil => rfl
  | cons q m ih =>
    obtain ⟨j, x⟩ := q
    unfold mapGet at h
    split at h
    · cases h
    · next ne => simp [mapErase, ne, ih h]

end

/-! ### Streams -/

section
variable {α : Type}

@[simp] theorem Stream.nth_zero (free : Nat → α) (st : Stream α) : st.nth free 0 = st.head free := rfl

@[simp] theorem Stream.nth_advance (free : Nat → α) (st : Stream α) (k : Nat) :
    st.advance.nth free k = st.nth free (k + 1) := rfl

/-- Dropping the first `n` values of a stream. -/
def Stream.skip (st : Stream α) : Nat → Stream α
  | 0 => st
  | n + 1 => st.advance.skip n

@[simp] theorem Stream.nth_skip (free : Nat → α) (st : Stream α) (n k : Nat) :
    (st.skip n).nth free k = st.nth free (n + k) := by
  induction n generalizing st with
  | zero => simp [Stream.skip]
  | succ n ih => rw [Stream.skip, ih, Stream.nth_advance]; congr 1; omega

end

end Sys2Proof.Machine
end

