-- ==== Sys2Proof/Laws/Micro.lean ====
section
/-! SUPPORT. What a level write can do, and how a request's run follows from its micro-steps: straight-line runs,
composition, and one induction for every relation the micro-steps keep. -/

namespace Sys2Proof.Machine

/-! ### Lines under the named operations -/

@[simp] theorem State.line_tick (n : Nat) (s : State) (g : Sig) : (s.tick n).line g = s.line g := rfl

theorem State.line_setLine (g h : Sig) (l : Line) (s : State) :
    (s.setLine g l).line h = if h = g then l else s.line h := PerSig.get_set s.lines g h l

theorem State.line_drop (g h : Sig) (s : State) : (s.drop g).line h = if h = g then Line.free else s.line h :=
  PerSig.get_set s.lines g h _

theorem State.line_grant (g h : Sig) (s : State) :
    (s.grant g).line h = if h = g then { s.line g with granted := true } else s.line h :=
  PerSig.get_set s.lines g h _

theorem State.line_claim (g h : Sig) (s : State) :
    (s.claim g).line h = if h = g then { s.line g with granted := false, own := true } else s.line h :=
  PerSig.get_set s.lines g h _

@[simp] theorem State.line_call (c : HostCall) (s : State) (g : Sig) : (s.call c).line g = s.line g := rfl

theorem State.line_unclaim (g h : Sig) (s : State) :
    (s.unclaim g).line h = if h = g then Line.free else s.line h :=
  PerSig.get_set s.lines g h _

/-- A direction call drives an owned line low and leaves an unowned one as it is. -/
theorem State.line_driveLow (g h : Sig) (s : State) :
    (s.driveLow g).line h = if h = g ∧ (s.line g).own = true then Line.driven else s.line h := by
  unfold State.driveLow
  split
  · next own => simp [State.emit, State.call, State.setLine, State.line, PerSig.get_set, show (s.lines.get g).own = true from own]
  · next own => simp [State.call, State.line, show (s.lines.get g).own = false by simpa [State.line] using own]

/-- A level write leaves every line as it is but for the level of an accepted one. -/
theorem State.line_writeLevel (g h : Sig) (v : Bool) (s : State) :
    (s.writeLevel g v).line h =
      if h = g ∧ s.accepts g = true then { s.line g with lvl := Level.ofBit v } else s.line h := by
  unfold State.writeLevel
  by_cases acc : s.accepts g = true
  · by_cases hg : h = g
    · subst hg
      by_cases same : (s.line h).lvl = Level.ofBit v
      · simp only [acc, same, bne_self_eq_false, Bool.and_false, and_self, if_true]
        simp only [State.line, State.askLevel] at same ⊢
        rw [← same]; rfl
      · have ne : (s.lines.get h).lvl ≠ Level.ofBit v := same
        simp [acc, ne, State.emit, State.setLine, State.line, State.askLevel]
    · split <;> simp [hg, State.emit, State.setLine, State.line, State.askLevel, PerSig.get_set]
  · simp [acc, State.line, State.askLevel]

/-- The events of a level write: one Drive when it is accepted and changes the level (10_state.md R43). -/
theorem State.trace_writeLevel (g : Sig) (v : Bool) (s : State) :
    (s.writeLevel g v).trace =
      s.trace ++ if s.accepts g = true ∧ (s.line g).lvl ≠ Level.ofBit v then [.drive s.now g v] else [] := by
  unfold State.writeLevel
  by_cases acc : s.accepts g = true
  · by_cases same : (s.line g).lvl = Level.ofBit v
    · simp [acc, same, State.askLevel]
    · simp [acc, same, State.emit, State.setLine, State.askLevel]
  · simp [acc, State.askLevel]

theorem State.trace_driveLow (g : Sig) (s : State) :
    (s.driveLow g).trace = s.trace ++ if (s.line g).own = true then [.drive s.now g false] else [] := by
  unfold State.driveLow
  split <;> simp_all [State.emit, State.call, State.setLine]

/-! ### The agent's own position -/

/-- That many micro-steps further in the request (10_state.md R35). -/
def Locals.steps (n : Nat) (l : Locals) : Locals := { l with k := l.k + n }

@[simp] theorem Locals.steps_k (n : Nat) (l : Locals) : (l.steps n).k = l.k + n := rfl

@[simp] theorem Locals.steps_releasing (n : Nat) (l : Locals) : (l.steps n).releasing = l.releasing := rfl

@[simp] theorem Locals.steps_zero (l : Locals) : l.steps 0 = l := rfl

theorem Locals.step_eq (l : Locals) : l.step = l.steps 1 := rfl

@[simp] theorem Locals.steps_steps (m n : Nat) (l : Locals) : (l.steps m).steps n = l.steps (m + n) := by
  simp [Locals.steps, Nat.add_assoc]

/-! ### Straight-line runs -/

/-- The locals and the state after micro-steps that neither block, nor fault, nor jump; none if one does. -/
def runOn (a : Nat) : List MicroStep → Locals → State → Option (Locals × State)
  | [], l, s => some (l, s)
  | m :: ms, l, s =>
    match perform a m l s with
    | .pass l' s' => runOn a ms l' s'
    | .moved l' s' => runOn a ms l'.step s'
    | _ => none

theorem runOn_append {a : Nat} {ms ns : List MicroStep} {l l' : Locals} {s s' : State}
    (h : runOn a ms l s = some (l', s')) : runOn a (ms ++ ns) l s = runOn a ns l' s' := by
  induction ms generalizing l s with
  | nil => simp only [runOn, Option.some.injEq, Prod.mk.injEq] at h; obtain ⟨rfl, rfl⟩ := h; rfl
  | cons m ms ih =>
    cases e : perform a m l s <;> simp only [runOn, List.cons_append, e] at h ⊢ <;> first | exact ih h | cases h

/-- A run goes on after a straight-line part of it. -/
theorem runWith_append {J : Task → State → State} {a : Nat} {r : Op} {x : Option Result} {ms ns : List MicroStep}
    {l l' : Locals} {s s' : State} (h : runOn a ms l s = some (l', s')) :
    runWith J a r x (ms ++ ns) l s = runWith J a r x ns l' s' := by
  induction ms generalizing l s with
  | nil => simp only [runOn, Option.some.injEq, Prod.mk.injEq] at h; obtain ⟨rfl, rfl⟩ := h; rfl
  | cons m ms ih =>
    cases e : perform a m l s <;> simp only [runOn, runWith, List.cons_append, e] at h ⊢ <;>
      first | exact ih h | cases h

/-- A request whose expansion is a straight line ends with its result. -/
theorem runWith_straight {J : Task → State → State} {a : Nat} {r : Op} {x : Option Result} {ms : List MicroStep}
    {l l' : Locals} {s s' : State} (h : runOn a ms l s = some (l', s')) :
    runWith J a r x ms l s = s'.finish a r x := by
  have := runWith_append (J := J) (r := r) (x := x) (ns := []) h
  rwa [List.append_nil] at this

/-! ### Relations kept by a run -/

/-- What performing an action may come to under a relation kept by every action in `ok`. -/
def Performed.Keeps (R : State → State → Prop) (ok : MicroStep → Prop) (s : State) : Performed → Prop
  | .pass _ s' => R s s'
  | .moved _ s' => R s s'
  | .jump rest _ s' => R s s' ∧ ∀ m ∈ rest, ok m
  | .branch rest s' => R s s' ∧ ∀ m ∈ rest, ok m
  | .blocked => True
  | .fault _ s' => R s s'

/-- A relation that every action of the expansion keeps, and with it faulting, parking and finishing, holds between the
ends of a run. -/
theorem runWith_keeps {R : State → State → Prop} {ok : MicroStep → Prop} {J : Task → State → State} {a : Nat} {r : Op}
    (trans : ∀ {s t u}, R s t → R t u → R s u)
    (act : ∀ m l s, ok m → (perform a m l s).Keeps R ok s)
    (raise : ∀ pc site c s, R s (s.raise a pc site c)) (park : ∀ t s, R s (s.park a t))
    (finish : ∀ x s, R s (s.finish a r x))
    (jump : ∀ t s, t.req = r → (∀ m ∈ t.rest, ok m) → R s (J t s)) {x : Option Result} {ms : List MicroStep}
    {l : Locals} {s : State} (hms : ∀ m ∈ ms, ok m) : R s (runWith J a r x ms l s) := by
  induction ms generalizing l s with
  | nil => exact finish _ _
  | cons m ms ih =>
    have hm := act m l s (hms m List.mem_cons_self)
    have rest : ∀ m ∈ ms, ok m := fun m h => hms m (List.mem_cons_of_mem _ h)
    cases e : perform a m l s <;> simp only [runWith, e] <;> rw [e] at hm
    · exact trans hm (ih rest)
    · exact trans hm (ih rest)
    · exact trans hm.1 (jump _ _ rfl hm.2)
    · exact trans hm.1 (jump _ _ rfl hm.2)
    · exact park _ _
    · exact trans hm (raise _ _ _ _)

/-- The same for a whole request. -/
theorem runTask_keeps {R : State → State → Prop} {ok : MicroStep → Prop} {a : Nat} {t : Task}
    (trans : ∀ {s t u}, R s t → R t u → R s u)
    (act : ∀ m l s, ok m → (perform a m l s).Keeps R ok s)
    (raise : ∀ pc site c s, R s (s.raise a pc site c)) (park : ∀ t s, R s (s.park a t))
    (finish : ∀ x s, R s (s.finish a t.req x)) {s : State} (hms : ∀ m ∈ t.rest, ok m) : R s (runTask a t s) := by
  have settled : ∀ u s, u.req = t.req → (∀ m ∈ u.rest, ok m) → R s (settle a u s) := by
    intro u s hr _
    unfold settle
    split
    · exact hr ▸ finish _ _
    · exact park _ _
  refine runWith_keeps (R := R) (ok := ok) (r := t.req) trans act raise park finish ?_ hms
  intro u s hr hu
  unfold runRest
  rw [hr]
  exact runWith_keeps (R := R) (ok := ok) (r := t.req) trans act raise park finish settled hu

/-- The same for one micro-step of an agent, whatever is done at a branch. -/
theorem advanceWith_keeps {R : State → State → Prop} {ok : MicroStep → Prop} {J : Task → State → State} {a : Nat}
    {r : Op} (trans : ∀ {s t u}, R s t → R t u → R s u)
    (act : ∀ m l s, ok m → (perform a m l s).Keeps R ok s)
    (raise : ∀ pc site c s, R s (s.raise a pc site c)) (park : ∀ t s, R s (s.park a t))
    (finish : ∀ x s, R s (s.finish a r x))
    (branch : ∀ t s, t.req = r → (∀ m ∈ t.rest, ok m) → R s (J t s)) {x : Option Result} {ms : List MicroStep}
    {l : Locals} {s : State} (hms : ∀ m ∈ ms, ok m) : R s (advanceWith J a r x ms l s) := by
  have settled : ∀ u s, u.req = r → R s (settle a u s) := by
    intro u s hr
    unfold settle
    split
    · exact hr ▸ finish _ _
    · exact park _ _
  induction ms generalizing l s with
  | nil => exact finish _ _
  | cons m ms ih =>
    have hm := act m l s (hms m List.mem_cons_self)
    cases e : perform a m l s <;> simp only [advanceWith, e] <;> rw [e] at hm
    · exact trans hm (ih fun m h => hms m (List.mem_cons_of_mem _ h))
    · exact trans hm (settled _ _ rfl)
    · exact trans hm.1 (settled _ _ rfl)
    · exact trans hm.1 (branch _ _ rfl hm.2)
    · exact park _ _
    · exact trans hm (raise _ _ _ _)

/-- The same for one micro-step of an agent. -/
theorem advance_keeps {R : State → State → Prop} {ok : MicroStep → Prop} {a : Nat} {t : Task}
    (trans : ∀ {s t u}, R s t → R t u → R s u)
    (act : ∀ m l s, ok m → (perform a m l s).Keeps R ok s)
    (raise : ∀ pc site c s, R s (s.raise a pc site c)) (park : ∀ t s, R s (s.park a t))
    (finish : ∀ x s, R s (s.finish a t.req x)) {s : State} (hms : ∀ m ∈ t.rest, ok m) : R s (advance a t s) := by
  refine advanceWith_keeps (R := R) (ok := ok) (r := t.req) trans act raise park finish ?_ hms
  intro u s hr hu
  unfold advanceRest
  rw [hr]
  refine advanceWith_keeps (R := R) (ok := ok) (r := t.req) trans act raise park finish ?_ hu
  intro v s hv _
  unfold settle
  split
  · exact hv ▸ finish _ _
  · exact park _ _

end Sys2Proof.Machine
end

