-- ==== Sys2Proof/Laws/Observe.lean ====
section
/-! SUPPORT. Reading a trace that has grown. -/

namespace Sys2Proof.Machine

@[simp] theorem Wire.afterAll_nil (w : Wire) : w.afterAll [] = w := rfl

@[simp] theorem Wire.afterAll_cons (w : Wire) (ev : Event) (evs : List Event) :
    w.afterAll (ev :: evs) = (w.after ev).afterAll evs := rfl

theorem Wire.afterAll_append (w : Wire) (xs ys : List Event) :
    w.afterAll (xs ++ ys) = (w.afterAll xs).afterAll ys := by
  simp [Wire.afterAll]

theorem Wire.latches_append (w : Wire) (xs ys : List Event) :
    w.latches (xs ++ ys) = w.latches xs ++ (w.afterAll xs).latches ys := by
  induction xs generalizing w with
  | nil => rfl
  | cons x xs ih => simp [Wire.latches, ih]

/-- The latches of a trace that has grown are the earlier ones and those of the new events, read from the pins the
earlier events left. -/
theorem latches_append (xs ys : List Event) :
    latches (xs ++ ys) = latches xs ++ (Wire.start.afterAll xs).latches ys := Wire.latches_append _ xs ys

@[simp] theorem Event.edge_own (t : Nat) (g : Sig) : (Event.own t g).edge = .own g := rfl

@[simp] theorem Event.edge_drive (t : Nat) (g : Sig) (v : Bool) : (Event.drive t g v).edge = .drive g v := rfl

@[simp] theorem Event.edge_free (t : Nat) (g : Sig) : (Event.free t g).edge = .free g := rfl

theorem GainsEdges.refl (s : State) : GainsEdges s s [] := by simp [GainsEdges]

theorem GainsEdges.trans {s t u : State} {xs ys : List Edge} (h : GainsEdges s t xs) (k : GainsEdges t u ys) :
    GainsEdges s u (xs ++ ys) := by
  simp only [GainsEdges] at *
  rw [k, h, List.append_assoc]

theorem GainsEdges.of_trace {s t : State} {evs : List Event} (h : t.trace = s.trace ++ evs) :
    GainsEdges s t (evs.map Event.edge) := by
  simp [GainsEdges, State.edges, h]

end Sys2Proof.Machine
end

