-- ==== Sys2Proof/Laws/Params.lean ====
section
/-! SUPPORT. What well-formed launch parameters give: each signal its own line, and an acquisition order that names each
signal once. -/

namespace Sys2Proof

theorem Params.wf_iff (p : Params) :
    p.wf = true ↔
      p.pin.e = 18 ∧ (sixSigs.map p.pin.get).Perm sixLines ∧ p.acqOrder.dropLast.Perm sixSigs ∧
        p.acqOrder.getLast? = some .e := by
  simp only [Params.wf, Bool.and_eq_true, beq_iff_eq, List.isPerm_iff, and_assoc]

/-- The acquisition order is the six signals in some order and then E (00_scope.md R8). -/
theorem Params.acqOrder_split {p : Params} (h : p.wf = true) : ∃ six, six.Perm sixSigs ∧ p.acqOrder = six ++ [.e] := by
  obtain ⟨-, -, hp, hl⟩ := p.wf_iff.mp h
  exact ⟨_, hp, (List.dropLast_append_getLast? _ hl).symm⟩

theorem Params.acqOrder_perm {p : Params} (h : p.wf = true) :
    p.acqOrder.Perm [Sig.rs, .rw, .db4, .db5, .db6, .db7, .e] := by
  obtain ⟨six, hp, he⟩ := Params.acqOrder_split h
  rw [he]
  exact hp.append_right _

theorem Params.acqOrder_nodup {p : Params} (h : p.wf = true) : p.acqOrder.Nodup :=
  (Params.acqOrder_perm h).nodup_iff.mpr (by decide)

theorem Params.mem_acqOrder {p : Params} (h : p.wf = true) (g : Sig) : g ∈ p.acqOrder :=
  (Params.acqOrder_perm h).mem_iff.mpr (by cases g <;> decide)

/-- Each signal is on a line of its own (10_state.md R22). -/
theorem Params.pin_injective {p : Params} (h : p.wf = true) {g k : Sig} (e : p.pin.get g = p.pin.get k) : g = k := by
  obtain ⟨he, hp, -, -⟩ := p.wf_iff.mp h
  have nd : (Sig.e :: sixSigs |>.map p.pin.get).Nodup := by
    have hc : (p.pin.get .e :: sixSigs.map p.pin.get).Perm (18 :: sixLines) := by
      rw [show p.pin.get .e = 18 from he]
      exact hp.cons _
    exact hc.nodup_iff.mpr (by decide)
  exact List.inj_on_of_nodup_map nd (by cases g <;> decide) (by cases k <;> decide) e

end Sys2Proof

namespace Sys2Proof.Machine

@[simp] theorem selects_allSignals (g : Sig) : selects allSignals g = true := by cases g <;> decide

@[simp] theorem chosen_allSignals (p : Params) : chosen p allSignals = p.acqOrder := by
  simp [chosen]

theorem mem_chosen {p : Params} (h : p.wf = true) (mask : BitVec 7) (g : Sig) :
    g ∈ chosen p mask ↔ selects mask g = true := by
  simp [chosen, Params.mem_acqOrder h]

theorem selects_of_mem_chosen {p : Params} {mask : BitVec 7} {g : Sig} (h : g ∈ chosen p mask) :
    selects mask g = true := (List.mem_filter.mp h).2

theorem chosen_nodup {p : Params} (h : p.wf = true) (mask : BitVec 7) : (chosen p mask).Nodup :=
  (Params.acqOrder_nodup h).filter _

/-- The block holds line `n` exactly when it holds a signal on it. -/
theorem State.ownsLine_iff (s : State) (n : Nat) : s.ownsLine n = true ↔ ∃ g, (s.line g).held = true ∧ s.pin g = n := by
  simp only [State.ownsLine, List.any_eq_true, Bool.and_eq_true, beq_iff_eq]
  constructor
  · rintro ⟨g, -, h⟩; exact ⟨g, h⟩
  · rintro ⟨g, h⟩; exact ⟨g, by cases g <;> simp, h⟩

/-- With each signal on a line of its own, a request of a signal's line fails exactly when a foreign owner holds the
line or the block already owns the signal (10_state.md R41). -/
theorem State.lineTaken_iff {s : State} (h : s.params.wf = true) (g : Sig) :
    s.lineTaken (s.pin g) = true ↔ s.pin g ∈ s.foreign ∨ (s.line g).held = true := by
  simp only [State.lineTaken, Bool.or_eq_true, List.contains_iff_mem, State.ownsLine_iff]
  refine or_congr_right ⟨?_, fun own => ⟨g, own, rfl⟩⟩
  rintro ⟨k, own, e⟩
  exact Params.pin_injective h e ▸ own

end Sys2Proof.Machine
end

