-- ==== Sys2Proof/Laws/Perform.lean ====
section
/-! SUPPORT. What performing one action never does, what a level write and a wait do, and runs made of these alone. -/

namespace Sys2Proof.Machine

/-! ### What no action writes -/

/-- The fields no action writes: who is at what, the logs that only a fault, a refusal or an end of a request grows, the
launch state and the inputs. -/
def Steady (s t : State) : Prop :=
  t.agents = s.agents ∧ SameLogs s t ∧ SameLaunch s t

theorem Steady.refl (s : State) : Steady s s := ⟨rfl, ⟨rfl, rfl, rfl⟩, rfl, rfl, rfl, rfl, rfl⟩

theorem Steady.trans {s t u : State} (h : Steady s t) (k : Steady t u) : Steady s u := by
  obtain ⟨a, ⟨b, c, d⟩, e, f, g, i, j⟩ := h
  obtain ⟨a', ⟨b', c', d'⟩, e', f', g', i', j'⟩ := k
  exact ⟨a'.trans a, ⟨b'.trans b, c'.trans c, d'.trans d⟩, e'.trans e, f'.trans f, g'.trans g, i'.trans i, j'.trans j⟩

theorem Steady.agentState {s t : State} (h : Steady s t) (a : Nat) : t.agentState a = s.agentState a := by
  simp only [State.agentState, h.1]

theorem steady_tick (n : Nat) (s : State) : Steady s (s.tick n) := Steady.refl s

theorem steady_writeLevel (g : Sig) (v : Bool) (s : State) : Steady s (s.writeLevel g v) := by
  unfold State.writeLevel
  split <;> exact Steady.refl s

theorem steady_driveLow (g : Sig) (s : State) : Steady s (s.driveLow g) := by
  unfold State.driveLow
  split <;> exact Steady.refl s

/-- Performing an action leaves those fields as they are, a fault's entry and a request's end apart. -/
theorem perform_steady (a : Nat) (m : MicroStep) (l : Locals) (s : State) :
    (perform a m l s).Keeps Steady (fun _ => True) s := by
  unfold perform
  cases m.act with
  | require c => simp only; split <;> exact Steady.refl s
  | request g got =>
    simp only [performRequest]
    split
    · exact ⟨Steady.refl s, fun _ _ => trivial⟩
    · exact Steady.refl s
  | direct g => exact (steady_tick 0 s).trans (steady_driveLow g _)
  | release g =>
    simp only [performRelease]
    split
    · exact Steady.refl s
    · split <;> exact Steady.refl s
  | unclaim g => simp only [performUnclaim]; split <;> exact Steady.refl s
  | write g v => exact (steady_tick 0 s).trans (steady_writeLevel g v _)
  | lock =>
    simp only [performLock]
    split
    · exact Steady.refl s
    · trivial
  | unlock =>
    simp only [performUnlock]
    split <;> exact Steady.refl s
  | registerDevice => simp only [performRegisterDevice]; split <;> exact Steady.refl s
  | createClass => simp only [performCreateClass]; split <;> exact Steady.refl s
  | createNode => simp only [performCreateNode]; split <;> exact Steady.refl s
  | ifLast sid =>
    simp only
    split
    · exact Steady.refl s
    · exact ⟨Steady.refl s, fun _ _ => trivial⟩
  | beginInit | claim | giveBack | wait | setAcquired | setReg | setLoaded | destroyNode | destroyClass | unregister
  | clearLoad | sessOpen | sessClose => exact Steady.refl s

/-- A straight-line run leaves them as they are too. -/
theorem runOn_steady {a : Nat} {ms : List MicroStep} {l l' : Locals} {s s' : State}
    (h : runOn a ms l s = some (l', s')) : Steady s s' := by
  induction ms generalizing l s with
  | nil => cases h; exact Steady.refl _
  | cons m ms ih =>
    have k := perform_steady a m l s
    cases e : perform a m l s <;> rw [e] at k <;> simp only [runOn, e] at h
    · exact k.trans (ih h)
    · exact k.trans (ih h)
    all_goals cases h

/-- The state with the result a finished request returns, if it returns one. -/
def State.returning (a : Nat) (t : Task) (s : State) : State :=
  { s with
    results :=
      match t.result with
      | some r => s.results ++ [{ agent := a, op := t.req, result := r }]
      | none => s.results }

/-- A request of an idle agent whose expansion is a straight line ends with its result, the agent idle again. -/
theorem runTask_straight {a : Nat} {t : Task} {l : Locals} {s s' : State} (idle : s.agentState a = none)
    (h : runOn a t.rest t.loc s = some (l, s')) : runTask a t s = s'.returning a t := by
  have e : mapErase a s'.agents = s'.agents := by
    rw [(runOn_steady h).1]
    exact mapErase_of_none idle
  rw [runTask, runWith_straight h]
  cases r : t.result <;> simp only [State.finish, State.returning, e, r]

/-- Every meaning is its request issued and run. -/
theorem exec_eq_runAdmitted (i : Instr) (s : State) : exec i s = runAdmitted (admission i s) s := by cases i <;> rfl

theorem runAdmitted_ready {t : Task} {s : State} (ready : s.Ready) :
    runAdmitted (.run t) s = .next (runTask s.self t s) := by
  simp only [runAdmitted, show s.agentState s.self = none from ready]

/-- A request issued to an idle agent whose expansion is a straight line. -/
theorem runAdmitted_straight {t : Task} {l : Locals} {s s' : State} (ready : s.Ready)
    (h : runOn s.self t.rest t.loc s = some (l, s')) :
    runAdmitted (.run t) s = .next (s'.returning s.self t) := by
  rw [runAdmitted_ready ready, runTask_straight ready h]

/-! ### Level writes and waits -/

/-- A level write or a wait. -/
def Act.plain : Act → Bool
  | .write _ _ => true
  | .wait _ => true
  | _ => false

/-- What a level write or a wait does. -/
def Act.apply (a : Act) (s : State) : State :=
  match a with
  | .write g v => (s.tick 0).writeLevel g v
  | .wait n => s.tick n
  | _ => s

/-- What level writes and waits one after the other do. -/
def applyAll (acts : List Act) (s : State) : State := acts.foldl (fun s a => a.apply s) s

@[simp] theorem applyAll_nil (s : State) : applyAll [] s = s := rfl

@[simp] theorem applyAll_cons (x : Act) (xs : List Act) (s : State) : applyAll (x :: xs) s = applyAll xs (x.apply s) := rfl

theorem applyAll_append (xs ys : List Act) (s : State) : applyAll (xs ++ ys) s = applyAll ys (applyAll xs s) := by
  simp [applyAll]

/-- A run of level writes and waits neither faults nor blocks, each of them one micro-step. -/
theorem runOn_plain {acts : List Act} (h : ∀ x ∈ acts, x.plain = true) (a : Nat) (op : Op) (k : Nat) (l : Locals)
    (s : State) : runOn a (numbered op k acts) l s = some (l.steps acts.length, applyAll acts s) := by
  induction acts generalizing k l s with
  | nil => rfl
  | cons x xs ih =>
    have hx := h x List.mem_cons_self
    have next := ih (fun y hy => h y (List.mem_cons_of_mem _ hy))
    cases x <;> simp only [Act.plain, Bool.false_eq_true] at hx <;>
      simp [numbered, runOn, perform, next, Act.apply, Locals.step_eq, Nat.add_comm]

/-- Checks that hold take no step. -/
theorem runOn_checks {a : Nat} {cs : List Check} {s : State} (h : ∀ c ∈ cs, c.passes a s = true) (op : Op)
    (acts : List Act) (l : Locals) :
    runOn a (checked op cs acts) l s = runOn a (numbered op 0 acts) l s := by
  unfold checked
  refine runOn_append ?_
  induction cs with
  | nil => rfl
  | cons c cs ih =>
    simp only [List.map_cons, runOn, perform, h c List.mem_cons_self, if_true]
    exact ih fun c hc => h c (List.mem_cons_of_mem _ hc)

/-- Level writes and waits keep everything but the pins, the clock, the calls and the draws; the ownership and direction
of every line are kept too. -/
theorem apply_keeps {x : Act} (h : x.plain = true) (s : State) :
    SameApartFromPins s (x.apply s) ∧ ∀ g, ((x.apply s).line g).own = (s.line g).own ∧
      ((x.apply s).line g).dir = (s.line g).dir := by
  cases x <;> simp only [Act.plain, Bool.false_eq_true] at h
  case write g v =>
    refine ⟨?_, fun k => ?_⟩
    · have hs := steady_writeLevel g v (s.tick 0)
      refine ⟨?_, hs.2.1, hs.2.2, ?_, hs.1⟩ <;> simp only [Act.apply, State.writeLevel] <;> split <;>
        first | exact ⟨rfl, rfl, rfl, rfl, rfl⟩ | rfl
    · simp only [Act.apply, State.line_writeLevel, State.line_tick]
      split
      · next e => simp [e.1]
      · exact ⟨rfl, rfl⟩
  case wait n => exact ⟨⟨⟨rfl, rfl, rfl, rfl, rfl⟩, ⟨rfl, rfl, rfl⟩, ⟨rfl, rfl, rfl, rfl, rfl⟩, rfl, rfl⟩, fun _ => ⟨rfl, rfl⟩⟩

theorem SameApartFromPins.refl (s : State) : SameApartFromPins s s :=
  ⟨⟨rfl, rfl, rfl, rfl, rfl⟩, ⟨rfl, rfl, rfl⟩, ⟨rfl, rfl, rfl, rfl, rfl⟩, rfl, rfl⟩

theorem SameApartFromPins.trans {s t u : State} (h : SameApartFromPins s t) (k : SameApartFromPins t u) :
    SameApartFromPins s u := by
  simp only [SameApartFromPins, SameDriver, SameLogs, SameLaunch] at *
  simp [h, k]

theorem applyAll_keeps {acts : List Act} (h : ∀ x ∈ acts, x.plain = true) (s : State) :
    SameApartFromPins s (applyAll acts s) ∧ ∀ g, ((applyAll acts s).line g).own = (s.line g).own ∧
      ((applyAll acts s).line g).dir = (s.line g).dir := by
  induction acts generalizing s with
  | nil => exact ⟨SameApartFromPins.refl s, fun _ => ⟨rfl, rfl⟩⟩
  | cons x xs ih =>
    obtain ⟨h1, h2⟩ := apply_keeps (h x List.mem_cons_self) s
    obtain ⟨k1, k2⟩ := ih (fun y hy => h y (List.mem_cons_of_mem _ hy)) (x.apply s)
    exact ⟨h1.trans k1, fun g => ⟨(k2 g).1.trans (h2 g).1, (k2 g).2.trans (h2 g).2⟩⟩

/-- A level write makes one call, a wait none. -/
def Act.calls : Act → Nat
  | .write _ _ => 1
  | _ => 0

/-- A wait lasts at least its minimum (00_scope.md R12). -/
def Act.least : Act → Nat
  | .wait n => n
  | _ => 0

/-- The calls made and the time taken by level writes and waits, accepted or not. -/
theorem applyAll_counts {acts : List Act} (h : ∀ x ∈ acts, x.plain = true) (s : State) :
    (applyAll acts s).hostCalls.length = s.hostCalls.length + (acts.map Act.calls).sum ∧
      s.now + (acts.map Act.least).sum ≤ (applyAll acts s).now := by
  induction acts generalizing s with
  | nil => simp
  | cons x xs ih =>
    obtain ⟨k1, k2⟩ := ih (fun y hy => h y (List.mem_cons_of_mem _ hy)) (x.apply s)
    have hx := h x List.mem_cons_self
    simp only [applyAll_cons, List.map_cons, List.sum_cons]
    cases x <;> simp only [Act.plain, Bool.false_eq_true] at hx <;>
      simp only [Act.apply, Act.calls, Act.least, State.writeLevel_hostCalls, State.writeLevel_now, State.tick_now,
        State.tick_hostCalls, List.length_append, List.length_singleton] at k1 k2 ⊢ <;> omega

/-- The level an action writes, none for any other. -/
def Act.level : Act → Option (Sig × Bool)
  | .write g v => some (g, v)
  | _ => none

/-- The calls level writes make, each with its own answer, whatever the answers are. -/
theorem applyAll_levelCalls {acts : List Act} (h : ∀ x ∈ acts, x.plain = true) (s : State) :
    (applyAll acts s).hostCalls = s.hostCalls ++ s.levelCalls (acts.filterMap Act.level) := by
  induction acts generalizing s with
  | nil => simp [State.levelCalls]
  | cons x xs ih =>
    have hx := h x List.mem_cons_self
    have rest := ih (fun y hy => h y (List.mem_cons_of_mem _ hy)) (x.apply s)
    rw [applyAll_cons, rest]
    cases x <;> simp only [Act.plain, Bool.false_eq_true] at hx
    case wait n => rfl
    case write g v =>
      have pr : ∀ k, (((Act.write g v).apply s).line k).presents = (s.line k).presents := fun k => by
        have o := (apply_keeps (x := .write g v) rfl s).2 k
        simp [Line.presents, o]
      simp only [List.filterMap_cons, Act.level, State.levelCalls, List.mapIdx_cons, pr]
      simp only [Act.apply, State.writeLevel_hostCalls, State.writeLevel_answers, State.tick_hostCalls,
        State.tick_answers, Stream.nth_advance, Stream.nth_zero, List.append_assoc, List.singleton_append]
      simp [State.accepts, State.pin]

/-! ### Calls about lines -/

/-- Only calls about lines have been made between the two states. -/
def CallsLines (s t : State) : Prop := ∃ cs, t.hostCalls = s.hostCalls ++ cs ∧ ∀ c ∈ cs, c.isLineCall = true

theorem CallsLines.of_same {s t : State} (h : t.hostCalls = s.hostCalls) : CallsLines s t := ⟨[], by simp [h], by simp⟩

theorem CallsLines.of_call {s t : State} {c : HostCall} (h : t.hostCalls = s.hostCalls ++ [c]) (line : c.isLineCall = true) :
    CallsLines s t := ⟨[c], h, by simp [line]⟩

theorem CallsLines.trans {s t u : State} (h : CallsLines s t) (k : CallsLines t u) : CallsLines s u := by
  obtain ⟨xs, hx, lx⟩ := h
  obtain ⟨ys, hy, ly⟩ := k
  refine ⟨xs ++ ys, by rw [hy, hx, List.append_assoc], fun c hc => ?_⟩
  exact (List.mem_append.mp hc).elim (lx c) (ly c)

theorem applyAll_calls {acts : List Act} (h : ∀ x ∈ acts, x.plain = true) (s : State) :
    CallsLines s (applyAll acts s) := by
  induction acts generalizing s with
  | nil => exact CallsLines.of_same rfl
  | cons x xs ih =>
    refine CallsLines.trans ?_ (ih (fun y hy => h y (List.mem_cons_of_mem _ hy)) (x.apply s))
    have hx := h x List.mem_cons_self
    cases x <;> simp only [Act.plain, Bool.false_eq_true] at hx
    · exact CallsLines.of_call (c := .setLevel _ _ _) (State.writeLevel_hostCalls _ _ _) rfl
    · exact CallsLines.of_same rfl

/-! ### The guarded sections' expansions are level writes and waits -/

theorem transmitActs_plain (p : Params) (w : Byte) : ∀ x ∈ transmitActs p w, x.plain = true := by
  simp [transmitActs, nibbleWrites, pulseActs, Act.plain]

/-- TRANSMIT under the guard with the lines held runs its sixteen micro-steps, whatever the host answers
(41_protocol_engine.md R122, R123). -/
theorem runOn_transmit {a : Nat} {s : State} (guarded : s.lockOwner = some a) (held : s.linesAcquired = true)
    (p : Params) (w : Byte) (l : Locals) :
    runOn a (transmitSteps p w) l s = some (l.steps (transmitActs p w).length, applyAll (transmitActs p w) s) := by
  rw [transmitSteps, runOn_checks, runOn_plain (transmitActs_plain p w)]
  simp [Check.passes, State.holdsGuard, guarded, held]

/-- SETLEVEL under the guard of a line the block presents makes its one write (40_pin_controller.md R96). -/
theorem runOn_setlevel {a : Nat} {s : State} (guarded : s.lockOwner = some a) {g : Sig}
    (driven : (s.line g).presents = true) (v : Bool) (l : Locals) :
    runOn a (setlevelSteps g v) l s = some (l.steps 1, (s.tick 0).writeLevel g v) := by
  rw [setlevelSteps, runOn_checks, runOn_plain (by simp [Act.plain])]
  · rfl
  · simp [Check.passes, State.holdsGuard, guarded, driven]

end Sys2Proof.Machine
end

