-- ==== Sys2Proof/Laws/Latch.lean ====
section
/-! SUPPORT. The trace accounts for the pins under every operation on a line, and what accepted level writes latch: the
four data writes of a nibble, one E pulse, one TRANSMIT. -/

namespace Sys2Proof.Machine

/-! ### The trace accounts for the pins -/

theorem State.TraceAccounts.of_same {s t : State} (h : s.TraceAccounts) (lines : t.lines = s.lines) (trace : t.trace = s.trace) :
    t.TraceAccounts := by
  obtain ⟨a, b⟩ := h
  simp only [State.TraceAccounts, State.line, lines, trace] at *
  exact ⟨a, b⟩

theorem State.TraceAccounts.claim {s : State} (h : s.TraceAccounts) (g : Sig) : (s.claim g).TraceAccounts := by
  obtain ⟨a, b⟩ := h
  simp only [State.TraceAccounts, State.line_claim]
  constructor <;> intro k <;> simp only [State.claim_trace, Wire.afterAll_append, Wire.afterAll_cons, Wire.afterAll_nil, Wire.after]
  · rw [PerSig.get_set]; split
    · rfl
    · exact a k
  · split
    · next e => subst e; exact b k
    · exact b k

theorem State.TraceAccounts.grant {s : State} (h : s.TraceAccounts) (g : Sig) : (s.grant g).TraceAccounts := by
  obtain ⟨a, b⟩ := h
  constructor <;> intro k <;> rw [State.line_grant] <;> split
  · next e => subst e; exact a k
  · exact a k
  · next e => subst e; exact b k
  · exact b k

theorem State.TraceAccounts.unclaim {s : State} (h : s.TraceAccounts) (g : Sig) : (s.unclaim g).TraceAccounts := by
  obtain ⟨a, b⟩ := h
  simp only [State.TraceAccounts, State.line_unclaim]
  constructor <;> intro k <;>
    simp only [State.unclaim_trace, Wire.afterAll_append, Wire.afterAll_cons, Wire.afterAll_nil, Wire.after] <;>
    rw [PerSig.get_set] <;> split
  · rfl
  · exact a k
  · rfl
  · exact b k

theorem State.TraceAccounts.drop {s : State} (h : s.TraceAccounts) (g : Sig) : (s.drop g).TraceAccounts :=
  State.TraceAccounts.unclaim (s := s.call (.releaseLine (s.pin g))) h g

theorem State.TraceAccounts.driveLow {s : State} (h : s.TraceAccounts) (g : Sig) : (s.driveLow g).TraceAccounts := by
  obtain ⟨a, b⟩ := h
  simp only [State.TraceAccounts, State.line_driveLow, State.trace_driveLow]
  by_cases own : (s.line g).own = true
  · constructor <;> intro k <;> simp only [own, and_true, if_true, Wire.afterAll_append, Wire.afterAll_cons, Wire.afterAll_nil, Wire.after]
    · split
      · next e => subst e; rw [a]; exact own
      · exact a k
    · rw [PerSig.get_set]; split
      · rfl
      · exact b k
  · simp only [own, Bool.false_eq_true, and_false, if_false, List.append_nil]
    exact ⟨a, b⟩

theorem State.TraceAccounts.writeLevel {s : State} (h : s.TraceAccounts) (g : Sig) (v : Bool) :
    (s.writeLevel g v).TraceAccounts := by
  obtain ⟨a, b⟩ := h
  simp only [State.TraceAccounts, State.line_writeLevel, State.trace_writeLevel]
  by_cases acc : s.accepts g = true
  · by_cases same : (s.line g).lvl = Level.ofBit v
    · simp only [acc, same, not_true, and_false, if_false, List.append_nil, and_true, ne_eq]
      constructor <;> intro k <;> split
      · next e => subst e; exact a k
      · exact a k
      · next e => subst e; rw [b, same]
      · exact b k
    · constructor <;> intro k <;> simp only [acc, same, ne_eq, not_false_eq_true, and_true, if_true, Wire.afterAll_append, Wire.afterAll_cons, Wire.afterAll_nil, Wire.after]
      · split
        · next e => subst e; exact a k
        · exact a k
      · rw [PerSig.get_set]; split
        · rfl
        · exact b k
  · simp only [acc, Bool.false_eq_true, and_false, false_and, if_false, List.append_nil]
    exact ⟨a, b⟩

theorem State.TraceAccounts.tick {s : State} (h : s.TraceAccounts) (n : Nat) : (s.tick n).TraceAccounts := h

/-! ### Accepted writes -/

theorem State.Accepting.head {s : State} {n : Nat} (h : s.Accepting (n + 1)) : s.answers.head Config.freeAnswer = true :=
  h 0 (Nat.succ_pos n)

theorem State.Accepting.accepts {s : State} {n : Nat} (h : s.Accepting (n + 1)) {g : Sig} (p : (s.line g).presents = true) :
    s.accepts g = true := by
  simp [State.accepts, h.head, p]

theorem State.Accepting.writeLevel {s : State} {n : Nat} (h : s.Accepting (n + 1)) (g : Sig) (v : Bool) :
    (s.writeLevel g v).Accepting n := by
  intro k hk
  rw [State.writeLevel_answers, Stream.nth_advance]
  exact h (k + 1) (by omega)

theorem State.Accepting.tick {s : State} {n : Nat} (h : s.Accepting n) (m : Nat) : (s.tick m).Accepting n := h

theorem presents_of_keeps {l m : Line} (h : m.own = l.own ∧ m.dir = l.dir) : m.presents = l.presents := by
  simp [Line.presents, h]

/-! ### Latches -/

/-- The time of the E rise that no E event has followed yet (10_state.md R45). -/
def State.rise (s : State) : Option Nat := (Wire.start.afterAll s.trace).rise

/-- What E falling now latches. -/
def State.latchNow (s : State) (up : Nat) : Latch :=
  { t := s.now, rs := (s.line .rs).lvl, rw := (s.line .rw).lvl, db7 := (s.line .db7).lvl, db6 := (s.line .db6).lvl,
    db5 := (s.line .db5).lvl, db4 := (s.line .db4).lvl, high := s.now - up }

@[simp] theorem State.latches_tick (n : Nat) (s : State) : (s.tick n).latches = s.latches := rfl

@[simp] theorem State.rise_tick (n : Nat) (s : State) : (s.tick n).rise = s.rise := rfl

/-- A data or select line being written latches nothing. -/
theorem latches_writeLevel_other {g : Sig} (h : g ≠ .e) (v : Bool) (s : State) :
    (s.writeLevel g v).latches = s.latches ∧ (s.writeLevel g v).rise = s.rise := by
  simp only [State.latches, State.rise, State.trace_writeLevel]
  split
  · rw [latches_append, Wire.afterAll_append]
    cases g <;> cases v <;>
      simp [Wire.latches, Wire.latched, Wire.after, Wire.riseAfter] at h ⊢
  · simp

/-- An accepted rise of E starts a pulse. -/
theorem latches_rise {s : State} (acc : s.accepts .e = true) (low : (s.line .e).lvl = .low) :
    (s.writeLevel .e true).latches = s.latches ∧ (s.writeLevel .e true).rise = some s.now := by
  simp only [State.latches, State.rise, State.trace_writeLevel, acc, low]
  rw [latches_append, Wire.afterAll_append]
  simp [Level.ofBit, Wire.latches, Wire.latched, Wire.after, Wire.riseAfter]

/-- An accepted fall of E latches the levels that stand. -/
theorem latches_fall {s : State} (tr : s.TraceAccounts) (acc : s.accepts .e = true) (high : (s.line .e).lvl = .high)
    {up : Nat} (hup : s.rise = some up) :
    (s.writeLevel .e false).latches = s.latches ++ [s.latchNow up] := by
  have hup' : (Wire.start.afterAll s.trace).rise = some up := hup
  simp only [State.latches, State.trace_writeLevel, acc, high]
  rw [latches_append]
  simp [Level.ofBit, Wire.latches, Wire.latched, hup', Wire.latch, State.latchNow, tr.2]

/-- What the four data writes of a nibble do when the host accepts them. -/
theorem nibbleWrites_spec {s : State} {k : Nat} (n : BitVec 4)
    (p : ∀ g ∈ [Sig.db7, .db6, .db5, .db4], (s.line g).presents = true) (acc : s.Accepting (k + 4))
    (tr : s.TraceAccounts) :
    ∃ t, applyAll (nibbleWrites n) s = t ∧ t.TraceAccounts ∧ t.Accepting k ∧ t.latches = s.latches ∧ t.rise = s.rise ∧
      s.now ≤ t.now ∧ (t.line .db7).lvl = Level.ofBit (n.getLsbD 3) ∧ (t.line .db6).lvl = Level.ofBit (n.getLsbD 2) ∧
      (t.line .db5).lvl = Level.ofBit (n.getLsbD 1) ∧ (t.line .db4).lvl = Level.ofBit (n.getLsbD 0) ∧
      t.line .rs = s.line .rs ∧ t.line .rw = s.line .rw ∧ t.line .e = s.line .e ∧
      ∃ d, t.trace = s.trace ++ d ∧ ∀ ev ∈ d, ev.isData = true ∧ s.now ≤ ev.time := by
  have one : ∀ (s : State) (j : Nat) (g : Sig) (v : Bool), g ≠ .e → (s.line g).presents = true → s.Accepting (j + 1) →
      s.TraceAccounts → ∃ t, (Act.write g v).apply s = t ∧ t.TraceAccounts ∧ t.Accepting j ∧ t.latches = s.latches ∧
        t.rise = s.rise ∧ s.now ≤ t.now ∧
        (∀ h, t.line h = if h = g then { s.line g with lvl := Level.ofBit v } else s.line h) ∧
        ∃ d, t.trace = s.trace ++ d ∧ ∀ ev ∈ d, ∃ n, s.now ≤ n ∧ ev = .drive n g v := by
    intro s j g v ne pr ac tr
    refine ⟨_, rfl, (tr.tick 0).writeLevel g v, (ac.tick 0).writeLevel g v, ?_, ?_, ?_, ?_, ?_⟩
    · exact (latches_writeLevel_other ne v _).1
    · exact (latches_writeLevel_other ne v _).2
    · simp [Act.apply]
    · intro h
      simp only [Act.apply, State.line_writeLevel, (ac.tick 0).accepts (show ((s.tick 0).line g).presents = true from pr), and_true, State.line_tick]
    · refine ⟨_, State.trace_writeLevel g v (s.tick 0), fun ev hev => ?_⟩
      split at hev
      · exact ⟨_, by simp, List.mem_singleton.mp hev⟩
      · cases hev
  obtain ⟨a, ha, tra, aca, la, ra, na, ca, da, ea, fa⟩ := one s (k + 3) .db7 (n.getLsbD 3) (by decide) (p _ (by simp)) acc tr
  obtain ⟨b, hb, trb, acb, lb, rb, nb, cb, db, eb, fb⟩ := one a (k + 2) .db6 (n.getLsbD 2) (by decide)
    (by simp [ca, p]) aca tra
  obtain ⟨c, hc, trc, acc', lc, rc, nc, cc, dc, ec, fc⟩ := one b (k + 1) .db5 (n.getLsbD 1) (by decide)
    (by simp [ca, cb, p]) acb trb
  obtain ⟨d, hd, trd, acd, ld, rd, nd, cd, dd, ed, fd⟩ := one c k .db4 (n.getLsbD 0) (by decide)
    (by simp [ca, cb, cc, p]) acc' trc
  refine ⟨d, ?_, trd, acd, by rw [ld, lc, lb, la], by rw [rd, rc, rb, ra], by omega, by simp [ca, cb, cc, cd],
    by simp [ca, cb, cc, cd], by simp [ca, cb, cc, cd], by simp [ca, cb, cc, cd], by simp [ca, cb, cc, cd],
    by simp [ca, cb, cc, cd], by simp [ca, cb, cc, cd], da ++ db ++ dc ++ dd, ?_, ?_⟩
  · simp only [nibbleWrites, applyAll_cons, applyAll_nil, ha, hb, hc, hd]
  · rw [ed, ec, eb, ea]; simp
  · intro ev hev
    simp only [List.mem_append] at hev
    rcases hev with ((hev | hev) | hev) | hev
    · obtain ⟨n, hn, rfl⟩ := fa ev hev; exact ⟨rfl, hn⟩
    · obtain ⟨n, hn, rfl⟩ := fb ev hev; exact ⟨rfl, le_trans na hn⟩
    · obtain ⟨n, hn, rfl⟩ := fc ev hev; exact ⟨rfl, le_trans (le_trans na nb) hn⟩
    · obtain ⟨n, hn, rfl⟩ := fd ev hev; exact ⟨rfl, le_trans (le_trans (le_trans na nb) nc) hn⟩

/-- What one pulse does when the host accepts its two writes: it latches what stands, E high at least T_EH, and ends with
E low after at least T_EL more (41_protocol_engine.md R111, R120, R121). -/
theorem pulse_spec {s : State} {k : Nat} (q : Params) (p : (s.line .e).presents = true) (acc : s.Accepting (k + 2))
    (tr : s.TraceAccounts) (low : (s.line .e).lvl = .low) :
    ∃ t l, applyAll (pulseActs q) s = t ∧ t.TraceAccounts ∧ t.Accepting k ∧ t.latches = s.latches ++ [l] ∧
      l.nibble = (s.latchNow 0).nibble ∧ q.tEH ≤ l.high ∧ s.now + l.high ≤ l.t ∧ l.t + q.tEL ≤ t.now ∧
      t.line .e = { s.line .e with lvl := .low } ∧ (∀ g, g ≠ .e → t.line g = s.line g) ∧
      t.trace = s.trace ++ [.drive (l.t - l.high) .e true, .drive l.t .e false] := by
  have ac1 := (acc.tick 0).accepts (show ((s.tick 0).line .e).presents = true from p)
  obtain ⟨l1, r1⟩ := latches_rise (s := s.tick 0) ac1 low
  have tr1 := (tr.tick 0).writeLevel .e true
  have ln1 : ∀ g, ((s.tick 0).writeLevel .e true).line g = if g = .e then { s.line .e with lvl := .high } else s.line g := by
    intro g; simp only [State.line_writeLevel, ac1, and_true, Level.ofBit, State.line_tick]
  have acc1 := (acc.tick 0).writeLevel .e true
  have t1 : ((s.tick 0).writeLevel .e true).trace = s.trace ++ [.drive (s.tick 0).now .e true] := by
    rw [State.trace_writeLevel, if_pos ⟨ac1, by rw [State.line_tick, low]; decide⟩]; rfl
  generalize ha : (s.tick 0).writeLevel .e true = a at *
  have na : s.now ≤ a.now := by rw [← ha]; simp
  have np : a.now = s.now + s.delays.head Config.freeDelay := by rw [← ha]; simp
  have ac2 := (((acc1.tick q.tEH).tick 0)).accepts (g := .e) (by
    show (a.line .e).presents = true
    rw [ln1, if_pos rfl]; exact p)
  have hf := latches_fall (s := (a.tick q.tEH).tick 0) tr1 ac2 (by show (a.line .e).lvl = .high; rw [ln1, if_pos rfl]) (up := a.now) (by
    show a.rise = some a.now
    rw [r1, np]; simp)
  refine ⟨_, ((a.tick q.tEH).tick 0).latchNow a.now, rfl, ?_, ?_, ?_, ?_, ?_, ?_, ?_, ?_, ?_, ?_⟩
  · simp only [pulseActs, applyAll_cons, applyAll_nil, Act.apply, ha]
    exact (((tr1.tick q.tEH).tick 0).writeLevel .e false).tick q.tEL
  · simp only [pulseActs, applyAll_cons, applyAll_nil, Act.apply, ha]
    exact (((acc1.tick q.tEH).tick 0).writeLevel .e false).tick q.tEL
  · simp only [pulseActs, applyAll_cons, applyAll_nil, Act.apply, ha, State.latches_tick, hf]
    rw [show a.latches = s.latches from l1]
  · simp [State.latchNow, Latch.nibble, ln1]
  · simp [State.latchNow]; omega
  · simp [State.latchNow]; omega
  · simp only [pulseActs, applyAll_cons, applyAll_nil, Act.apply, ha]
    simp [State.latchNow]
  · simp only [pulseActs, applyAll_cons, applyAll_nil, Act.apply, ha, State.line_tick, State.line_writeLevel, ac2, ln1, and_true, if_true, Level.ofBit]
  · intro g hg
    simp only [pulseActs, applyAll_cons, applyAll_nil, Act.apply, ha, State.line_tick, State.line_writeLevel, ln1, hg, false_and, if_false]
  · simp only [pulseActs, applyAll_cons, applyAll_nil, Act.apply, ha, State.tick_trace, State.trace_writeLevel]
    rw [if_pos ⟨ac2, by rw [State.line_tick, State.line_tick, ln1, if_pos rfl]; exact Level.noConfusion⟩, t1]
    simp [State.latchNow, np]
    omega

/-- What TRANSMIT's sixteen micro-steps do when the host accepts the twelve writes (41_protocol_engine.md R111, R113,
R117, R120). -/
theorem transmitActs_spec {s : State} {k : Nat} (q : Params) (w : Byte)
    (p : ∀ g ∈ [Sig.e, .db7, .db6, .db5, .db4], (s.line g).presents = true) (acc : s.Accepting (k + 12))
    (tr : s.TraceAccounts) (low : (s.line .e).lvl = .low) :
    ∃ t l₁ l₂, applyAll (transmitActs q w) s = t ∧ t.TraceAccounts ∧ t.Accepting k ∧
      t.latches = s.latches ++ [l₁, l₂] ∧
      (∃ d₁ d₂, t.trace = s.trace ++ d₁ ++ [.drive (l₁.t - l₁.high) .e true, .drive l₁.t .e false] ++ d₂ ++
          [.drive (l₂.t - l₂.high) .e true, .drive l₂.t .e false] ∧
        (∀ ev ∈ d₁ ++ d₂, ev.isData = true) ∧ ∀ ev ∈ d₂, l₁.t + q.tEL ≤ ev.time) ∧
      [l₁.nibble, l₂.nibble] = wordNibbles (s.line .rs).lvl (s.line .rw).lvl w ∧ q.tEH ≤ l₁.high ∧ q.tEH ≤ l₂.high ∧
      s.now + l₁.high ≤ l₁.t ∧ l₁.t + q.tEL + l₂.high ≤ l₂.t ∧ l₂.t + q.tEL ≤ t.now ∧ (t.line .e).lvl = .low ∧
      (t.line .db7).lvl = Level.ofBit ((lo w).getLsbD 3) ∧ (t.line .db6).lvl = Level.ofBit ((lo w).getLsbD 2) ∧
      (t.line .db5).lvl = Level.ofBit ((lo w).getLsbD 1) ∧ (t.line .db4).lvl = Level.ofBit ((lo w).getLsbD 0) ∧
      t.line .rs = s.line .rs ∧ t.line .rw = s.line .rw := by
  have pres : ∀ (acts : List Act), (∀ x ∈ acts, x.plain = true) → ∀ (u : State) (g : Sig), (u.line g).presents = true →
      ((applyAll acts u).line g).presents = true := fun acts h u g hg => by
    rw [presents_of_keeps ((applyAll_keeps h u).2 g)]; exact hg
  have nib : ∀ n, ∀ x ∈ nibbleWrites n, x.plain = true := by simp [nibbleWrites, Act.plain]
  have pul : ∀ x ∈ pulseActs q, x.plain = true := by simp [pulseActs, Act.plain]
  obtain ⟨a, ha, tra, aca, la, ra, na, a7, a6, a5, a4, ars, arw, ae, d₁, ad, ap⟩ :=
    nibbleWrites_spec (k := k + 8) (hi w) (fun g hg => p g (List.mem_cons_of_mem _ hg)) acc tr
  have pa : ∀ g ∈ [Sig.e, .db7, .db6, .db5, .db4], (a.line g).presents = true := fun g hg => ha ▸ pres _ (nib _) s g (p g hg)
  obtain ⟨b, l₁, hb, trb, acb, lb, nb, hb1, hb2, hb3, be, bo, bd⟩ :=
    pulse_spec (k := k + 6) q (pa _ (by simp)) aca tra (by rw [ae]; exact low)
  have pb : ∀ g ∈ [Sig.e, .db7, .db6, .db5, .db4], (b.line g).presents = true := fun g hg => hb ▸ pres _ pul a g (pa g hg)
  obtain ⟨c, hc, trc, acc', lc, rc, nc, c7, c6, c5, c4, crs, crw, ce, d₂, cd, cp⟩ :=
    nibbleWrites_spec (k := k + 2) (lo w) (fun g hg => pb g (List.mem_cons_of_mem _ hg)) acb trb
  have pc : ∀ g ∈ [Sig.e, .db7, .db6, .db5, .db4], (c.line g).presents = true := fun g hg => hc ▸ pres _ (nib _) b g (pb g hg)
  obtain ⟨d, l₂, hd, trd, acd, ld, nd, hd1, hd2, hd3, de, do', dd⟩ :=
    pulse_spec (k := k) q (pc _ (by simp)) acc' trc (by rw [ce, be])
  refine ⟨d, l₁, l₂, ?_, trd, acd, ?_, ⟨d₁, d₂, ?_, ?_, ?_⟩, ?_, hb1, hd1, by omega, by omega, hd3, by rw [de], ?_, ?_, ?_, ?_, ?_, ?_⟩
  · simp only [transmitActs, applyAll_append, ha, hb, hc, hd]
  · rw [ld, lc, lb, la]; simp
  · rw [dd, cd, bd, ad]
  · intro ev hev
    exact (List.mem_append.mp hev).elim (fun h => (ap ev h).1) fun h => (cp ev h).1
  · intro ev hev
    exact le_trans hb3 (cp ev hev).2
  · rw [nb, nd]
    simp only [State.latchNow, Latch.nibble, wordNibbles, nibbleAt, a7, a6, a5, a4, c7, c6, c5, c4, ars, arw, crs, crw,
      bo .rs (by decide), bo .rw (by decide)]
  · rw [do' _ (by decide), c7]
  · rw [do' _ (by decide), c6]
  · rw [do' _ (by decide), c5]
  · rw [do' _ (by decide), c4]
  · rw [do' _ (by decide), crs, bo _ (by decide), ars]
  · rw [do' _ (by decide), crw, bo _ (by decide), arw]

end Sys2Proof.Machine
end

