-- ==== Sys2Proof/Laws/Group.lean ====
section
/-! SUPPORT. Claiming, driving and freeing lines one after the other: what ACQUIRE, its rollback and RELEASE are made
of. -/

namespace Sys2Proof.Machine

/-- What the pin operations on lines leave alone besides the fields no action writes: the driver's fields, the guard and
the host's answers. -/
def SameApartFromLines (s t : State) : Prop :=
  Steady s t ∧ SameDriver s t ∧ t.lockOwner = s.lockOwner ∧ t.answers = s.answers ∧ t.registrations = s.registrations

theorem SameApartFromLines.refl (s : State) : SameApartFromLines s s :=
  ⟨Steady.refl s, ⟨rfl, rfl, rfl, rfl, rfl⟩, rfl, rfl, rfl⟩

theorem SameApartFromLines.trans {s t u : State} (h : SameApartFromLines s t) (k : SameApartFromLines t u) :
    SameApartFromLines s u := by
  obtain ⟨a, ⟨b1, b2, b3, b4, b5⟩, c, d, e⟩ := h
  obtain ⟨a', ⟨b1', b2', b3', b4', b5'⟩, c', d', e'⟩ := k
  exact ⟨a.trans a', ⟨b1'.trans b1, b2'.trans b2, b3'.trans b3, b4'.trans b4, b5'.trans b5⟩, c'.trans c, d'.trans d,
    e'.trans e⟩

/-! ### One line after the other -/

/-- Request and claim these lines in order, two micro-steps each. -/
def claimAll (gs : List Sig) (s : State) : State :=
  gs.foldl (fun s g => (((s.tick 0).grant g).tick 0).claim g) s

/-- Set these lines to output with level 0, in order. -/
def driveAll (gs : List Sig) (s : State) : State := gs.foldl (fun s g => (s.tick 0).driveLow g) s

/-- Release these lines in order, two micro-steps each. -/
def releaseAll (gs : List Sig) (s : State) : State :=
  gs.foldl (fun s g => (((s.tick 0).call (.releaseLine (s.pin g))).tick 0).unclaim g) s

/-- Give these lines back in order, one micro-step each. -/
def dropAll (gs : List Sig) (s : State) : State := gs.foldl (fun s g => (s.tick 0).drop g) s

theorem claimAll_spec (gs : List Sig) (s : State) :
    SameApartFromLines s (claimAll gs s) ∧ GainsEdges s (claimAll gs s) (gs.map Edge.own) ∧
      ∀ h, (claimAll gs s).line h = if h ∈ gs then { s.line h with granted := false, own := true } else s.line h := by
  induction gs generalizing s with
  | nil => exact ⟨SameApartFromLines.refl s, GainsEdges.refl s, by simp [claimAll]⟩
  | cons g gs ih =>
    obtain ⟨k, e, l⟩ := ih ((((s.tick 0).grant g).tick 0).claim g)
    refine ⟨?_, ?_, fun h => ?_⟩
    · exact SameApartFromLines.trans (SameApartFromLines.refl s) k
    · have step : GainsEdges s ((((s.tick 0).grant g).tick 0).claim g) [.own g] :=
        GainsEdges.of_trace (evs := [.own (((s.tick 0).grant g).tick 0).now g]) rfl
      exact step.trans e
    · rw [claimAll, List.foldl_cons, ← claimAll, l, State.line_claim]
      simp only [List.mem_cons, State.line_tick, State.line_grant]
      by_cases hg : h = g
      · subst hg; simp
      · simp [hg]

theorem driveAll_spec (gs : List Sig) {s : State} (owned : ∀ g ∈ gs, (s.line g).own = true) :
    SameApartFromLines s (driveAll gs s) ∧ GainsEdges s (driveAll gs s) (gs.map fun g => Edge.drive g false) ∧
      ∀ h, (driveAll gs s).line h = if h ∈ gs then Line.driven else s.line h := by
  induction gs generalizing s with
  | nil => exact ⟨SameApartFromLines.refl s, GainsEdges.refl s, by simp [driveAll]⟩
  | cons g gs ih =>
    have og : ((s.tick 0).line g).own = true := owned g List.mem_cons_self
    obtain ⟨k, e, l⟩ := ih (s := (s.tick 0).driveLow g) fun h hh => by
      rw [State.line_driveLow]
      split
      · rfl
      · exact owned h (List.mem_cons_of_mem _ hh)
    refine ⟨?_, ?_, fun h => ?_⟩
    · refine SameApartFromLines.trans ?_ k
      unfold State.driveLow
      split <;> exact SameApartFromLines.refl s
    · have step : GainsEdges s ((s.tick 0).driveLow g) [.drive g false] :=
        GainsEdges.of_trace (evs := [.drive (s.tick 0).now g false]) (by rw [State.trace_driveLow, if_pos og]; rfl)
      exact step.trans e
    · rw [driveAll, List.foldl_cons, ← driveAll, l, State.line_driveLow]
      simp only [List.mem_cons]
      by_cases hg : h = g
      · subst hg; simp [show (s.line h).own = true from og]
      · simp [hg]

theorem releaseAll_spec (gs : List Sig) (s : State) :
    SameApartFromLines s (releaseAll gs s) ∧ GainsEdges s (releaseAll gs s) (gs.map Edge.free) ∧
      ∀ h, (releaseAll gs s).line h = if h ∈ gs then Line.free else s.line h := by
  induction gs generalizing s with
  | nil => exact ⟨SameApartFromLines.refl s, GainsEdges.refl s, by simp [releaseAll]⟩
  | cons g gs ih =>
    obtain ⟨k, e, l⟩ := ih ((((s.tick 0).call (.releaseLine (s.pin g))).tick 0).unclaim g)
    refine ⟨?_, ?_, fun h => ?_⟩
    · exact SameApartFromLines.trans (SameApartFromLines.refl s) k
    · have step : GainsEdges s ((((s.tick 0).call (.releaseLine (s.pin g))).tick 0).unclaim g) [.free g] :=
        GainsEdges.of_trace (evs := [.free (((s.tick 0).call (.releaseLine (s.pin g))).tick 0).now g]) rfl
      exact step.trans e
    · rw [releaseAll, List.foldl_cons, ← releaseAll, l, State.line_unclaim]
      simp only [List.mem_cons, State.line_tick, State.line_call]
      by_cases hg : h = g
      · subst hg; simp
      · simp [hg]

theorem dropAll_spec (gs : List Sig) (s : State) :
    SameApartFromLines s (dropAll gs s) ∧ GainsEdges s (dropAll gs s) (gs.map Edge.free) ∧
      ∀ h, (dropAll gs s).line h = if h ∈ gs then Line.free else s.line h := by
  induction gs generalizing s with
  | nil => exact ⟨SameApartFromLines.refl s, GainsEdges.refl s, by simp [dropAll]⟩
  | cons g gs ih =>
    obtain ⟨k, e, l⟩ := ih ((s.tick 0).drop g)
    refine ⟨?_, ?_, fun h => ?_⟩
    · exact SameApartFromLines.trans (SameApartFromLines.refl s) k
    · have step : GainsEdges s ((s.tick 0).drop g) [.free g] :=
        GainsEdges.of_trace (evs := [.free (s.tick 0).now g]) rfl
      exact step.trans e
    · rw [dropAll, List.foldl_cons, ← dropAll, l, State.line_drop, State.line_tick]
      simp only [List.mem_cons]
      by_cases hg : h = g
      · subst hg; simp
      · simp [hg]

/-- Claiming, driving, releasing and giving back lines makes only calls about lines. -/
theorem claimAll_calls (gs : List Sig) (s : State) : CallsLines s (claimAll gs s) := by
  induction gs generalizing s with
  | nil => exact CallsLines.of_same rfl
  | cons g gs ih => exact (CallsLines.of_call (c := .requestLine _ _ _) rfl rfl).trans (ih _)

theorem driveAll_calls (gs : List Sig) (s : State) : CallsLines s (driveAll gs s) := by
  induction gs generalizing s with
  | nil => exact CallsLines.of_same rfl
  | cons g gs ih =>
    exact (CallsLines.of_call (c := .setDirection _) (State.driveLow_hostCalls g (s.tick 0)) rfl).trans (ih _)

theorem releaseAll_calls (gs : List Sig) (s : State) : CallsLines s (releaseAll gs s) := by
  induction gs generalizing s with
  | nil => exact CallsLines.of_same rfl
  | cons g gs ih => exact (CallsLines.of_call (c := .releaseLine _) rfl rfl).trans (ih _)

theorem dropAll_calls (gs : List Sig) (s : State) : CallsLines s (dropAll gs s) := by
  induction gs generalizing s with
  | nil => exact CallsLines.of_same rfl
  | cons g gs ih => exact (CallsLines.of_call (c := .releaseLine _) rfl rfl).trans (ih _)

/-! ### The runs they stand for -/

theorem numbered_append (op : Op) (k : Nat) (xs ys : List Act) :
    numbered op k (xs ++ ys) = numbered op k xs ++ numbered op (k + xs.length) ys := by
  induction xs generalizing k with
  | nil => rfl
  | cons x xs ih =>
    simp only [List.cons_append, numbered, ih, List.length_cons, List.cons.injEq, true_and]
    congr 2
    omega

/-- Requesting and claiming one signal's line leaves another signal's as free or taken as it was. -/
theorem State.lineTaken_claim {s : State} (h : s.params.wf = true) {g k : Sig} (ne : k ≠ g) :
    ((((s.tick 0).grant g).tick 0).claim g).lineTaken (((((s.tick 0).grant g).tick 0).claim g).pin k) =
      s.lineTaken (s.pin k) := by
  rw [Bool.eq_iff_iff, State.lineTaken_iff (s := (((s.tick 0).grant g).tick 0).claim g) h, State.lineTaken_iff h,
    State.line_claim, if_neg ne, State.line_tick, State.line_grant, if_neg ne]
  rfl

/-- The requests of free lines are all granted, and each line is claimed (40_pin_controller.md R91). -/
theorem runOn_requests {gs : List Sig} {s : State} (h : s.params.wf = true) (nd : gs.Nodup)
    (free : ∀ g ∈ gs, s.lineTaken (s.pin g) = false) (a k : Nat) (got : List Sig) (l : Locals) :
    runOn a (numbered .acquire k (requestActs got gs)) l s = some (l.steps (2 * gs.length), claimAll gs s) := by
  induction gs generalizing k got l s with
  | nil => rfl
  | cons g gs ih =>
    have hg : (s.tick 0).lineTaken ((s.tick 0).pin g) = false := free g List.mem_cons_self
    have nd' := List.nodup_cons.mp nd
    have next := ih (s := (((s.tick 0).grant g).tick 0).claim g) h nd'.2 (fun k hk => by
      rw [State.lineTaken_claim h fun e => nd'.1 (by rw [← e]; exact hk)]
      exact free k (List.mem_cons_of_mem _ hk)) (k + 1 + 1) (got ++ [g]) (l.steps 2)
    simp only [requestActs, numbered, runOn, perform, performRequest, hg, Bool.false_eq_true, if_false]
    simp only [Locals.step_eq, Locals.steps_steps] at next ⊢
    rw [next, List.length_cons, show 2 + 2 * gs.length = 2 * (gs.length + 1) by omega]
    rfl

/-- The first request that is refused replaces the rest of ACQUIRE, and of what follows it, by the rollback of the lines
claimed before (40_pin_controller.md R91, R93). -/
theorem runWith_refused {J : Task → State → State} {pre post : List Sig} {g : Sig} {s : State} (h : s.params.wf = true)
    (nd : (pre ++ g :: post).Nodup) (free : ∀ k ∈ pre, s.lineTaken (s.pin k) = false)
    (taken : s.lineTaken (s.pin g) = true) (a k : Nat) (r : Op) (x : Option Result) (got : List Sig)
    (after : List MicroStep) (l : Locals) :
    runWith J a r x (numbered .acquire k (requestActs got (pre ++ g :: post)) ++ after) l s =
      J { req := r, result := some (.err .resourceUnavailable), loc := l.steps (2 * pre.length + 1),
          rest := rollback (got ++ pre) } (((claimAll pre s).tick 0).denied g) := by
  induction pre generalizing k got l s with
  | nil =>
    have hg : (s.tick 0).lineTaken ((s.tick 0).pin g) = true := taken
    simp only [List.nil_append, requestActs, numbered, List.cons_append, runWith, perform, performRequest, hg, if_true]
    simp [claimAll, Locals.step_eq]
  | cons p pre ih =>
    have hp : (s.tick 0).lineTaken ((s.tick 0).pin p) = false := free p List.mem_cons_self
    have nd' := List.nodup_cons.mp nd
    have next := ih (s := (((s.tick 0).grant p).tick 0).claim p) h nd'.2 (fun k hk => by
      rw [State.lineTaken_claim h fun e => nd'.1 (by rw [← e]; simp [hk])]
      exact free k (List.mem_cons_of_mem _ hk)) (by
      rw [State.lineTaken_claim h fun e => nd'.1 (by rw [← e]; simp)]
      exact taken) (k + 1 + 1) (got ++ [p]) (l.steps 2)
    simp only [List.cons_append, requestActs, numbered, runWith, perform, performRequest, hp, Bool.false_eq_true, if_false]
    simp only [Locals.step_eq, Locals.steps_steps] at next ⊢
    rw [next]
    simp only [claimAll, List.foldl_cons, List.length_cons, List.append_assoc, List.singleton_append]
    rw [show 2 + (2 * pre.length + 1) = 2 * (pre.length + 1) + 1 by omega]

theorem runOn_directs (gs : List Sig) (a k : Nat) (l : Locals) (s : State) :
    runOn a (numbered .acquire k (gs.map Act.direct)) l s = some (l.steps gs.length, driveAll gs s) := by
  induction gs generalizing k l s with
  | nil => rfl
  | cons g gs ih =>
    simp only [List.map_cons, numbered, runOn, perform, ih, Locals.step_eq, Locals.steps_steps, List.length_cons,
      Nat.add_comm]
    rfl

theorem runOn_rollback (got : List Sig) (a : Nat) (l : Locals) (s : State) :
    runOn a (rollback got) l s = some (l.steps got.length, dropAll got.reverse s) := by
  unfold rollback
  rw [← List.length_reverse]
  generalize got.reverse = gs
  induction gs generalizing l s with
  | nil => rfl
  | cons g gs ih =>
    simp only [List.map_cons, runOn, perform, ih, Locals.step_eq, Locals.steps_steps, List.length_cons, Nat.add_comm]
    rfl

/-- The two lines of RELEASE for an owned line: the call, then the fields (40_pin_controller.md R94). -/
theorem performRelease_owned {g : Sig} {l : Locals} {s : State} (own : (s.line g).own = true) :
    performRelease g l s = .moved { l with releasing := true } ((s.tick 0).call (.releaseLine (s.pin g))) := by
  simp [performRelease, own]

/-- The lines of a RELEASE that are all owned are released one after the other (40_pin_controller.md R94). -/
theorem runOn_releases {gs : List Sig} {s : State} (nd : gs.Nodup) (owned : ∀ g ∈ gs, (s.line g).own = true) (a k : Nat)
    {l : Locals} (hl : l.releasing = false) :
    runOn a (numbered .release k (releaseActs gs)) l s = some (l.steps (2 * gs.length), releaseAll gs s) := by
  induction gs generalizing k l s with
  | nil => rfl
  | cons g gs ih =>
    have nd' := List.nodup_cons.mp nd
    have next := ih (s := (((s.tick 0).call (.releaseLine (s.pin g))).tick 0).unclaim g) nd'.2 (fun h hh => by
      rw [State.line_unclaim, if_neg fun e => nd'.1 (by rw [← e]; exact hh)]
      exact owned h (List.mem_cons_of_mem _ hh)) (k + 1 + 1) (l := l.steps 2) hl
    have two : ({ ({ l with releasing := true } : Locals).step with releasing := false } : Locals).step = l.steps 2 := by
      simp [Locals.step, Locals.steps, hl]
    simp only [releaseActs, List.flatMap_cons, List.cons_append, List.nil_append, numbered, runOn, perform,
      performRelease_owned (owned g List.mem_cons_self), performUnclaim]
    rw [if_pos (show ({ l with releasing := true } : Locals).step.releasing = true from rfl)]
    simp only [two]
    refine next.trans ?_
    rw [Locals.steps_steps, List.length_cons, show 2 + 2 * gs.length = 2 * (gs.length + 1) by omega]
    rfl

/-- Under RELEASE_UNOWNED = noop the lines that are not owned are skipped, with no micro-step (40_pin_controller.md
R95). -/
theorem runOn_releases_noop {gs : List Sig} {s : State} (nd : gs.Nodup) (noop : s.params.releaseUnowned = .noop)
    (a k : Nat) {l : Locals} (hl : l.releasing = false) :
    runOn a (numbered .release k (releaseActs gs)) l s =
      some (l.steps (2 * (gs.filter fun g => (s.line g).own).length),
        releaseAll (gs.filter fun g => (s.line g).own) s) := by
  induction gs generalizing k l s with
  | nil => rfl
  | cons g gs ih =>
    have nd' := List.nodup_cons.mp nd
    by_cases own : (s.line g).own = true
    · have next := ih (s := (((s.tick 0).call (.releaseLine (s.pin g))).tick 0).unclaim g) nd'.2 noop (k + 1 + 1)
        (l := l.steps 2) hl
      have two : ({ ({ l with releasing := true } : Locals).step with releasing := false } : Locals).step = l.steps 2 := by
        simp [Locals.step, Locals.steps, hl]
      have same : gs.filter (fun h => (((((s.tick 0).call (.releaseLine (s.pin g))).tick 0).unclaim g).line h).own) =
          gs.filter fun h => (s.line h).own :=
        List.filter_congr fun h hh => by
          rw [State.line_unclaim, if_neg fun e => nd'.1 (by rw [← e]; exact hh)]; rfl
      rw [List.filter_cons_of_pos (by simpa using own)]
      simp only [releaseActs, List.flatMap_cons, List.cons_append, List.nil_append, numbered, runOn, perform,
        performRelease_owned own, performUnclaim]
      rw [if_pos (show ({ l with releasing := true } : Locals).step.releasing = true from rfl)]
      simp only [two]
      refine next.trans ?_
      rw [same, Locals.steps_steps, List.length_cons,
        show 2 + 2 * (gs.filter fun h => (s.line h).own).length = 2 * ((gs.filter fun h => (s.line h).own).length + 1) by omega]
      rfl
    · rw [List.filter_cons_of_neg (by simpa using own)]
      have skip : ({ l with releasing := false } : Locals) = l := by rw [← hl]
      simp only [releaseActs, List.flatMap_cons, List.cons_append, List.nil_append, numbered, runOn, perform,
        performRelease, own, noop, performUnclaim, Bool.false_eq_true, if_false, skip, hl]
      exact ih nd'.2 noop (k + 1 + 1) hl

/-- Under RELEASE_UNOWNED = fault the first line that is not owned faults, the lines before it released
(40_pin_controller.md R95). -/
theorem runWith_unowned {J : Task → State → State} {pre post : List Sig} {g : Sig} {s : State}
    (nd : (pre ++ g :: post).Nodup) (fault : s.params.releaseUnowned = .fault) (owned : ∀ k ∈ pre, (s.line k).own = true)
    (unowned : (s.line g).own = false) (a k : Nat) (r : Op) (x : Option Result) (after : List MicroStep) (l : Locals) :
    runWith J a r x (numbered .release k (releaseActs (pre ++ g :: post)) ++ after) l s =
      (releaseAll pre s).raise a { op := r, k := l.k + 2 * pre.length } { op := .release, k := k + 2 * pre.length }
        .releaseUnowned := by
  induction pre generalizing k l s with
  | nil =>
    simp only [List.nil_append, releaseActs, List.flatMap_cons, List.cons_append, numbered, runWith, perform,
      performRelease, unowned, Bool.false_eq_true, if_false, fault]
    rfl
  | cons p pre ih =>
    have nd' := List.nodup_cons.mp nd
    have next := ih (s := (((s.tick 0).call (.releaseLine (s.pin p))).tick 0).unclaim p) nd'.2 fault (fun h hh => by
      rw [State.line_unclaim, if_neg fun e => nd'.1 (by rw [← e]; simp [hh])]
      exact owned h (List.mem_cons_of_mem _ hh)) (by
      rw [State.line_unclaim, if_neg fun e => nd'.1 (by rw [← e]; simp)]
      exact unowned) (k + 1 + 1)
      ({ ({ l with releasing := true } : Locals).step with releasing := false } : Locals).step
    simp only [releaseActs, List.cons_append, List.flatMap_cons, List.nil_append, numbered, runWith, perform,
      performRelease_owned (owned p List.mem_cons_self), performUnclaim]
    rw [if_pos (show ({ l with releasing := true } : Locals).step.releasing = true from rfl)]
    refine next.trans ?_
    simp only [releaseAll, List.foldl_cons, List.length_cons, Locals.step]
    rw [show l.k + 1 + 1 + 2 * pre.length = l.k + 2 * (pre.length + 1) by omega,
      show k + 1 + 1 + 2 * pre.length = k + 2 * (pre.length + 1) by omega]

/-! ### ACQUIRE -/

/-- Every masked line can be claimed exactly when none of them is taken (10_state.md R41). -/
theorem State.claimable_iff {s : State} (h : s.params.wf = true) (mask : BitVec 7) :
    s.Claimable mask ↔ ∀ g ∈ chosen s.params mask, s.lineTaken (s.pin g) = false := by
  constructor
  · intro c g hg
    rw [← Bool.not_eq_true, State.lineTaken_iff h]
    have := c g (selects_of_mem_chosen hg)
    simp [this]
  · intro c g hg
    have := c g ((mem_chosen h mask g).mpr hg)
    rw [← Bool.not_eq_true, State.lineTaken_iff h] at this
    simpa using this

/-- ACQUIRE of lines that can be claimed claims them all and then drives them low (40_pin_controller.md R91, R92). -/
theorem runOn_acquire {s : State} (h : s.params.wf = true) {mask : BitVec 7} (c : s.Claimable mask) (a : Nat)
    (l : Locals) :
    runOn a (acquireSteps s.params mask) l s =
      some (l.steps (3 * (chosen s.params mask).length),
        driveAll (chosen s.params mask) (claimAll (chosen s.params mask) s)) := by
  unfold acquireSteps
  rw [numbered_append,
    runOn_append (runOn_requests h (chosen_nodup h mask) ((State.claimable_iff h mask).mp c) a 0 [] l), runOn_directs,
    Locals.steps_steps, show ∀ n, 2 * n + n = 3 * n by omega]

theorem acquire_spec {s : State} (h : s.params.wf = true) (mask : BitVec 7) :
    SameApartFromLines s (driveAll (chosen s.params mask) (claimAll (chosen s.params mask) s)) ∧
      GainsEdges s (driveAll (chosen s.params mask) (claimAll (chosen s.params mask) s))
        ((chosen s.params mask).map Edge.own ++ (chosen s.params mask).map fun g => Edge.drive g false) ∧
      ∀ g, (driveAll (chosen s.params mask) (claimAll (chosen s.params mask) s)).line g =
        if selects mask g then Line.driven else s.line g := by
  obtain ⟨a, b, c⟩ := claimAll_spec (chosen s.params mask) s
  obtain ⟨a', b', c'⟩ := driveAll_spec (chosen s.params mask) (s := claimAll (chosen s.params mask) s)
    (by intro g hg; rw [c, if_pos hg])
  refine ⟨a.trans a', b.trans b', fun g => ?_⟩
  rw [c', c]
  by_cases hs : selects mask g = true <;> simp [mem_chosen h, hs]

/-- A list some element of which fails a test splits at the first one that does. -/
theorem split_at_first {α : Type} (f : α → Bool) {xs : List α} (h : ∃ x ∈ xs, f x = true) :
    ∃ pre x post, xs = pre ++ x :: post ∧ (∀ y ∈ pre, f y = false) ∧ f x = true := by
  induction xs with
  | nil => simp at h
  | cons c cs ih =>
    by_cases hc : f c = true
    · exact ⟨[], c, cs, rfl, by simp, hc⟩
    · obtain ⟨x, hx, fx⟩ := h
      have hx' : x ∈ cs := (List.mem_cons.mp hx).resolve_left fun e => hc (e ▸ fx)
      obtain ⟨pre, y, post, e, p, q⟩ := ih ⟨x, hx', fx⟩
      refine ⟨c :: pre, y, post, by simp [e], ?_, q⟩
      simp only [List.mem_cons, forall_eq_or_imp]
      exact ⟨by simpa using hc, p⟩

end Sys2Proof.Machine
end

