-- ==== Sys2Proof/Laws/Init.lean ====
section
/-! SUPPORT. INIT_RUN as one list of level writes and waits, and what they latch. -/

namespace Sys2Proof.Machine

/-- A wait of T_CMD_GAP, none when it is 0. -/
def gapActs (p : Params) : List Act := if p.tCmdGap = 0 then [] else [.wait p.tCmdGap]

/-- The level writes and waits of INIT_RUN, its checks left out (42_init_sequencer.md R130). -/
def initActs (p : Params) : List Act :=
  [.wait p.tPON] ++ transmitActs p (p.rom.get .reset) ++ [.wait p.tRST] ++
    initCommands.flatMap (fun c => transmitActs p (p.rom.get c.2) ++ gapActs p) ++
    [.write .rs true] ++ [.wait p.tDPRE] ++ transmitActs p (p.rom.get .char) ++ [.wait p.tDPOST] ++ [.write .rs false]

theorem gapActs_plain (p : Params) : ∀ x ∈ gapActs p, x.plain = true := by
  unfold gapActs; split <;> simp [Act.plain]

theorem initActs_plain (p : Params) : ∀ x ∈ initActs p, x.plain = true := by
  intro x hx
  simp only [initActs, List.mem_append, List.mem_flatMap, List.mem_singleton] at hx
  rcases hx with (((((((rfl | hx) | rfl) | ⟨c, -, hx | hx⟩) | rfl) | rfl) | hx) | rfl) | rfl
  all_goals first | rfl | exact transmitActs_plain _ _ _ hx | exact gapActs_plain _ _ hx

theorem runOn_initGap (p : Params) (a k : Nat) (l : Locals) (s : State) :
    runOn a (initGap p k) l s = some (l.steps (gapActs p).length, applyAll (gapActs p) s) := by
  unfold initGap gapActs
  split
  · rfl
  · exact runOn_plain (acts := [.wait p.tCmdGap]) (by simp [Act.plain]) a .initRun k l s

/-- Where the guard is held, the lines are held and RS is driven: what the checks of INIT_RUN's own lines test. -/
def Sendable (a : Nat) (s : State) : Prop :=
  s.lockOwner = some a ∧ s.linesAcquired = true ∧ (s.line .rs).presents = true

theorem Sendable.applyAll {a : Nat} {s : State} (h : Sendable a s) {acts : List Act} (plain : ∀ x ∈ acts, x.plain = true) :
    Sendable a (applyAll acts s) := by
  obtain ⟨⟨d, -, -, k, -⟩, o⟩ := applyAll_keeps plain s
  exact ⟨k.trans h.1, d.1.trans h.2.1, by rw [presents_of_keeps (o .rs)]; exact h.2.2⟩

/-- The sixteen steps of INIT_RUN are its level writes and waits (42_init_sequencer.md R130, R136). -/
theorem runOn_initSequence {a : Nat} {s : State} (h : Sendable a s) (p : Params) (l : Locals) :
    runOn a (initSequence p) l s = some (l.steps (initActs p).length, applyAll (initActs p) s) := by
  have tx : ∀ {s : State}, Sendable a s → ∀ c l, runOn a (initTx p c) l s =
      some (l.steps (transmitActs p (p.rom.get c)).length, applyAll (transmitActs p (p.rom.get c)) s) :=
    fun h c l => runOn_transmit h.1 h.2.1 p (p.rom.get c) l
  have wt : ∀ (s : State) (k n : Nat) l, runOn a (initWait k n) l s = some (l.steps [Act.wait n].length, applyAll [.wait n] s) :=
    fun s k n l => runOn_plain (acts := [.wait n]) (by simp [Act.plain]) a .initRun k l s
  have sl : ∀ {s : State}, Sendable a s → ∀ v l,
      runOn a (setlevelSteps .rs v) l s = some (l.steps [Act.write .rs v].length, applyAll [.write .rs v] s) :=
    fun h v l => runOn_setlevel h.1 h.2.2 v l
  have cmds : ∀ (cs : List (Nat × CmdName)) {s : State}, Sendable a s → ∀ l,
      runOn a (cs.flatMap fun c => initTx p c.2 ++ initGap p c.1) l s =
        some (l.steps (cs.flatMap fun c => transmitActs p (p.rom.get c.2) ++ gapActs p).length,
          applyAll (cs.flatMap fun c => transmitActs p (p.rom.get c.2) ++ gapActs p) s) := by
    intro cs
    induction cs with
    | nil => intro s _ l; rfl
    | cons c cs ih =>
      intro s hs l
      simp only [List.flatMap_cons, List.append_assoc]
      rw [runOn_append (tx hs _ _), runOn_append (runOn_initGap p a c.1 _ _),
        ih ((hs.applyAll (transmitActs_plain p _)).applyAll (gapActs_plain p))]
      simp only [applyAll_append, Locals.steps_steps, List.length_append, Nat.add_assoc]
  have s1 := h.applyAll (acts := [.wait p.tPON]) (by simp [Act.plain])
  have s2 := s1.applyAll (transmitActs_plain p (p.rom.get .reset))
  have s3 := s2.applyAll (acts := [.wait p.tRST]) (by simp [Act.plain])
  have s4 := s3.applyAll (acts := initCommands.flatMap fun c => transmitActs p (p.rom.get c.2) ++ gapActs p) (by
    intro x hx
    simp only [List.mem_append, List.mem_flatMap] at hx
    obtain ⟨c, -, hx | hx⟩ := hx
    · exact transmitActs_plain _ _ _ hx
    · exact gapActs_plain _ _ hx)
  have s5 := s4.applyAll (acts := [.write .rs true]) (by simp [Act.plain])
  have s6 := s5.applyAll (acts := [.wait p.tDPRE]) (by simp [Act.plain])
  have s7 := s6.applyAll (transmitActs_plain p (p.rom.get .char))
  have s8 := s7.applyAll (acts := [.wait p.tDPOST]) (by simp [Act.plain])
  simp only [initSequence, List.append_assoc]
  rw [runOn_append (wt _ _ _ _), runOn_append (tx s1 _ _), runOn_append (wt _ _ _ _), runOn_append (cmds _ s3 _),
    runOn_append (sl s4 _ _), runOn_append (wt _ _ _ _), runOn_append (tx s6 _ _), runOn_append (wt _ _ _ _), sl s8]
  simp only [initActs, applyAll_append, Locals.steps_steps, List.length_append, Nat.add_assoc]

/-- INIT_RUN under its checks sets `initDone` and then sends its sequence (42_init_sequencer.md R130, R131). -/
theorem runOn_initRun {a : Nat} {s : State} (h : Sendable a s) (fresh : s.initDone = false) (p : Params) (l : Locals) :
    runOn a (initRunSteps p) l s =
      some (l.steps (initActs p).length, applyAll (initActs p) { s with initDone := true }) := by
  have checks : runOn a (checked .initRun [.guarded, .initFresh] []) l s = some (l, s) :=
    (runOn_checks (by simp [Check.passes, State.holdsGuard, h.1, fresh]) .initRun [] l).trans rfl
  have entry : runOn a (numbered .initRun 0 [.beginInit]) l s = some (l, { s with initDone := true }) := rfl
  have rest := runOn_initSequence (s := { s with initDone := true }) h p l
  unfold initRunSteps
  rw [List.append_assoc, runOn_append checks, runOn_append entry]
  exact rest

theorem initActs_sum (f : Act → Nat) (p : Params) {t g : Nat} (tx : ∀ w, ((transmitActs p w).map f).sum = t)
    (gap : ((gapActs p).map f).sum = g) :
    ((initActs p).map f).sum =
      f (.wait p.tPON) + t + f (.wait p.tRST) + 8 * (t + g) + f (.write .rs true) + f (.wait p.tDPRE) + t +
        f (.wait p.tDPOST) + f (.write .rs false) := by
  have cmds : ∀ cs : List (Nat × CmdName),
      ((cs.flatMap fun c => transmitActs p (p.rom.get c.2) ++ gapActs p).map f).sum = cs.length * (t + g) := by
    intro cs
    induction cs with
    | nil => simp
    | cons c cs ih =>
      rw [List.flatMap_cons, List.map_append, List.sum_append, ih, List.map_append, List.sum_append, tx, gap,
        List.length_cons]
      ring
  unfold initActs
  simp only [List.map_append, List.sum_append, cmds, List.map_cons, List.map_nil, List.sum_cons, List.sum_nil, tx]
  rfl

/-- INIT_RUN has 166 micro-steps, and 8 waits T_CMD_GAP where there are any (42_init_sequencer.md R130). -/
theorem initActs_length (p : Params) : (initActs p).length = 166 + if p.tCmdGap = 0 then 0 else 8 := by
  simp only [initActs, initCommands, gapActs, transmitActs, nibbleWrites, pulseActs, List.flatMap_cons, List.flatMap_nil,
    List.length_append, List.length_cons, List.length_nil]
  split <;> rfl

/-- INIT_RUN makes 122 level writes and lasts at least its waits and its twenty pulses (42_init_sequencer.md R130). -/
theorem initActs_counts (p : Params) :
    ((initActs p).map Act.calls).sum = 122 ∧
      ((initActs p).map Act.least).sum =
        p.tPON + p.tRST + p.tDPRE + p.tDPOST + 20 * (p.tEH + p.tEL) + 8 * p.tCmdGap := by
  have gcalls : ((gapActs p).map Act.calls).sum = 0 := by unfold gapActs; split <;> rfl
  have gleast : ((gapActs p).map Act.least).sum = p.tCmdGap := by
    unfold gapActs; split <;> simp_all [Act.least]
  constructor
  · rw [initActs_sum Act.calls p (t := 12) (fun w => by simp [transmitActs, nibbleWrites, pulseActs, Act.calls]) gcalls]
    rfl
  · rw [initActs_sum Act.least p (t := 2 * (p.tEH + p.tEL))
      (fun w => by simp [transmitActs, nibbleWrites, pulseActs, Act.least]; omega) gleast]
    simp only [Act.least]
    omega

/-- The five lines TRANSMIT writes, driven, with E low, and a trace that accounts for them: what one TRANSMIT leaves for
the next. -/
def Sending (s : State) : Prop :=
  (∀ g ∈ [Sig.e, .db7, .db6, .db5, .db4], (s.line g).presents = true) ∧ s.TraceAccounts ∧ (s.line .e).lvl = .low

theorem Sending.wait {s : State} (h : Sending s) (n : Nat) : Sending (s.tick n) := h

theorem Sending.transmit {s : State} (h : Sending s) {k : Nat} (acc : s.Accepting (k + 12)) (p : Params) (w : Byte) :
    ∃ t, applyAll (transmitActs p w) s = t ∧ Sending t ∧ t.Accepting k ∧ t.line .rs = s.line .rs ∧
      t.line .rw = s.line .rw ∧
      t.latches.map Latch.nibble = s.latches.map Latch.nibble ++ wordNibbles (s.line .rs).lvl (s.line .rw).lvl w ∧
      (t.line .db7).lvl = Level.ofBit ((lo w).getLsbD 3) ∧ (t.line .db6).lvl = Level.ofBit ((lo w).getLsbD 2) ∧
      (t.line .db5).lvl = Level.ofBit ((lo w).getLsbD 1) ∧ (t.line .db4).lvl = Level.ofBit ((lo w).getLsbD 0) := by
  obtain ⟨t, l₁, l₂, ht, tr, ac, hl, -, hn, -, -, -, -, -, le, l7, l6, l5, l4, lrs, lrw⟩ := transmitActs_spec p w h.1 acc h.2.1 h.2.2
  refine ⟨t, ht, ⟨fun g hg => ?_, tr, le⟩, ac, lrs, lrw, ?_, l7, l6, l5, l4⟩
  · rw [← ht, presents_of_keeps ((applyAll_keeps (transmitActs_plain p w) s).2 g)]; exact h.1 g hg
  · rw [hl, ← hn]; simp

theorem Sending.gap {s : State} (h : Sending s) (p : Params) :
    Sending (applyAll (gapActs p) s) ∧ (∀ k, s.Accepting k → (applyAll (gapActs p) s).Accepting k) ∧
      (applyAll (gapActs p) s).lines = s.lines ∧ (applyAll (gapActs p) s).latches = s.latches := by
  unfold gapActs
  split
  · exact ⟨h, fun _ k => k, rfl, rfl⟩
  · exact ⟨h, fun _ k => k, rfl, rfl⟩

/-- What a run of commands latches when every write is accepted. -/
theorem Sending.commands (p : Params) (cs : List (Nat × CmdName)) {s : State} (h : Sending s) {k : Nat}
    (acc : s.Accepting (k + 12 * cs.length)) :
    ∃ t, applyAll (cs.flatMap fun c => transmitActs p (p.rom.get c.2) ++ gapActs p) s = t ∧ Sending t ∧ t.Accepting k ∧
      t.line .rs = s.line .rs ∧ t.line .rw = s.line .rw ∧
      t.latches.map Latch.nibble =
        s.latches.map Latch.nibble ++
          cs.flatMap fun c => wordNibbles (s.line .rs).lvl (s.line .rw).lvl (p.rom.get c.2) := by
  induction cs generalizing s with
  | nil => exact ⟨s, rfl, h, acc, rfl, rfl, by simp⟩
  | cons c cs ih =>
    have acc' : s.Accepting (k + 12 * cs.length + 12) := by
      rw [List.length_cons] at acc
      exact fun j hj => acc j (by omega)
    obtain ⟨a, ha, sa, aa, ars, arw, al, -⟩ := h.transmit acc' p (p.rom.get c.2)
    obtain ⟨sb, ab, bl, bt⟩ := sa.gap p
    obtain ⟨t, ht, st, at', trs, trw, tl⟩ := ih sb (ab _ aa)
    have line : ∀ g, (applyAll (gapActs p) a).line g = a.line g := fun g => by simp only [State.line, bl]
    refine ⟨t, ?_, st, at', ?_, ?_, ?_⟩
    · simp only [List.flatMap_cons, applyAll_append, ha, ht]
    · rw [trs, line, ars]
    · rw [trw, line, arw]
    · rw [tl, bt, al, line, line, ars, arw]; simp

/-! ### Where the waits of INIT_RUN stand -/

/-- No event writes RS. -/
def NoSelect (d : List Event) : Prop := ∀ ev ∈ d, ∀ n v, ev ≠ .drive n .rs v

theorem NoSelect.append {d e : List Event} (h : NoSelect d) (k : NoSelect e) : NoSelect (d ++ e) :=
  fun ev hev => (List.mem_append.mp hev).elim (h ev) (k ev)

/-- The two latches of each of these words. -/
def pairs (ws : List (Latch × Latch)) : List Latch := ws.flatMap fun w => [w.1, w.2]

/-- Words sent one after the other, from `n` on: each keeps the floor, the first rises at `n` or later, each other at
least T_EL and `gap` after the last fall of the one before, and after the last that much time passes until `m`. -/
def Spaced (p : Params) (gap : Nat) : Nat → List (Latch × Latch) → Nat → Prop
  | n, [], m => n ≤ m
  | n, w :: ws, m => PulseFloor p w ∧ w.1.RisesFrom n ∧ Spaced p gap (w.2.t + p.tEL + gap) ws m

theorem Spaced.mono {p : Params} {gap : Nat} {ws : List (Latch × Latch)} {n n' m : Nat} (h : Spaced p gap n' ws m)
    (le : n ≤ n') : Spaced p gap n ws m := by
  cases ws with
  | nil => exact le_trans le h
  | cons w ws => exact ⟨h.1, le_trans (Nat.add_le_add_right le _) h.2.1, h.2.2⟩

theorem Spaced.weaken {p : Params} {gap : Nat} {ws : List (Latch × Latch)} {n m m' : Nat} (h : Spaced p gap n ws m)
    (le : m ≤ m') : Spaced p gap n ws m' := by
  induction ws generalizing n with
  | nil => exact le_trans h le
  | cons w ws ih => exact ⟨h.1, h.2.1, ih h.2.2⟩

/-- When one TRANSMIT's pulses come, every write accepted (41_protocol_engine.md R120, R121). -/
theorem Sending.transmit_times {s : State} (h : Sending s) {k : Nat} (acc : s.Accepting (k + 12)) (p : Params) (w : Byte) :
    ∃ t x d, applyAll (transmitActs p w) s = t ∧ Sending t ∧ t.Accepting k ∧ t.line .rs = s.line .rs ∧
      t.latches = s.latches ++ pairs [x] ∧ t.trace = s.trace ++ d ∧ NoSelect d ∧ PulseFloor p x ∧
      x.1.RisesFrom s.now ∧ x.2.t + p.tEL ≤ t.now := by
  obtain ⟨t, ht, st, ac, rs, -⟩ := h.transmit acc p w
  obtain ⟨t', l₁, l₂, ht', -, -, hl, ⟨d₁, d₂, tr, data, -⟩, -, e₁, e₂, f₁, f₂, f₃, -⟩ :=
    transmitActs_spec p w h.1 acc h.2.1 h.2.2
  obtain rfl : t = t' := ht.symm.trans ht'
  refine ⟨t, (l₁, l₂), d₁ ++ ([.drive (l₁.t - l₁.high) .e true, .drive l₁.t .e false] ++ (d₂ ++
      [.drive (l₂.t - l₂.high) .e true, .drive l₂.t .e false])), ht, st, ac, rs, by simpa [pairs] using hl,
    by rw [tr]; simp only [List.append_assoc], ?_, ⟨e₁, e₂, f₂⟩, f₁, f₃⟩
  intro ev hev n v e
  subst e
  simp only [List.mem_append, List.mem_cons, List.not_mem_nil, or_false, Event.drive.injEq, reduceCtorEq, false_and,
    and_false] at hev
  have no := data (.drive n .rs v)
  simp only [List.mem_append, Event.isData] at no
  exact absurd (no (by simpa using hev)) (by decide)

/-- When a run of commands' pulses come, every write accepted: T_EL and T_CMD_GAP between them
(42_init_sequencer.md R136). -/
theorem Sending.commands_times (p : Params) (cs : List (Nat × CmdName)) {s : State} (h : Sending s) {k : Nat}
    (acc : s.Accepting (k + 12 * cs.length)) :
    ∃ t ws d, applyAll (cs.flatMap fun c => transmitActs p (p.rom.get c.2) ++ gapActs p) s = t ∧ Sending t ∧
      t.Accepting k ∧ t.line .rs = s.line .rs ∧ ws.length = cs.length ∧ t.latches = s.latches ++ pairs ws ∧
      t.trace = s.trace ++ d ∧ NoSelect d ∧ Spaced p p.tCmdGap s.now ws t.now := by
  induction cs generalizing s with
  | nil => exact ⟨s, [], [], rfl, h, acc, rfl, rfl, by simp [pairs], by simp, by simp [NoSelect], le_refl _⟩
  | cons c cs ih =>
    have acc' : s.Accepting (k + 12 * cs.length + 12) := by
      rw [List.length_cons] at acc
      exact fun j hj => acc j (by omega)
    obtain ⟨a, x, d, ha, sa, aa, ars, al, at', ad, fl, rise, low⟩ := h.transmit_times acc' p (p.rom.get c.2)
    obtain ⟨sb, ab, bl, bt⟩ := sa.gap p
    have btr : (applyAll (gapActs p) a).trace = a.trace := by unfold gapActs; split <;> rfl
    have bnow : a.now + p.tCmdGap ≤ (applyAll (gapActs p) a).now := by
      unfold gapActs; split <;> simp_all [Act.apply]
    obtain ⟨t, ws, e, ht, st, ac, trs, len, tl, tt, te, sp⟩ := ih sb (ab _ aa)
    refine ⟨t, x :: ws, d ++ e, ?_, st, ac, ?_, by rw [List.length_cons, len, List.length_cons], ?_, ?_, ad.append te,
      fl, rise, sp.mono (by omega)⟩
    · simp only [List.flatMap_cons, applyAll_append, ha, ht]
    · rw [trs, ← ars]; simp only [State.line, bl]
    · rw [tl, bt, al]; simp [pairs]
    · rw [tt, btr, at', List.append_assoc]

/-- An accepted write of RS that changes it. -/
theorem Sending.select {s : State} (h : Sending s) {k : Nat} (acc : s.Accepting (k + 1)) (v : Bool)
    (pr : (s.line .rs).presents = true) (ne : (s.line .rs).lvl ≠ Level.ofBit v) :
    ∃ t, (Act.write .rs v).apply s = t ∧ Sending t ∧ t.Accepting k ∧ t.line .rs = { s.line .rs with lvl := Level.ofBit v } ∧
      t.latches = s.latches ∧ s.now ≤ t.now ∧ t.trace = s.trace ++ [.drive t.now .rs v] := by
  have ac := (acc.tick 0).accepts (show ((s.tick 0).line .rs).presents = true from pr)
  have line : ∀ g, ((Act.write .rs v).apply s).line g =
      if g = .rs then { s.line .rs with lvl := Level.ofBit v } else s.line g := by
    intro g
    simp only [Act.apply, State.line_writeLevel, ac, and_true, State.line_tick]
  refine ⟨_, rfl, ⟨fun g hg => ?_, (h.2.1.tick 0).writeLevel _ _, by rw [line]; exact h.2.2⟩, (acc.tick 0).writeLevel _ _,
    by rw [line]; rfl, (latches_writeLevel_other (by decide) v _).1, by simp [Act.apply], ?_⟩
  · rw [presents_of_keeps ((apply_keeps (x := .write .rs v) rfl s).2 g)]; exact h.1 g hg
  · rw [Act.apply, State.trace_writeLevel, if_pos ⟨ac, ne⟩, State.writeLevel_now]
    rfl

/-- Where the waits of INIT_RUN stand between its pulses and its two writes of RS, every write accepted
(42_init_sequencer.md R136). -/
theorem initActs_times (p : Params) {s : State} (h : Sending s) (pr : (s.line .rs).presents = true)
    (low : (s.line .rs).lvl = .low) (acc : s.Accepting 122) :
    ∃ t x ws y up down d₁ d₂, applyAll (initActs p) s = t ∧ ws.length = 8 ∧
      t.latches = s.latches ++ pairs ([x] ++ ws ++ [y]) ∧
      t.trace = s.trace ++ d₁ ++ [.drive up .rs true] ++ d₂ ++ [.drive down .rs false] ∧
      Machine.latches (s.trace ++ d₁) = s.latches ++ pairs ([x] ++ ws) ∧ NoSelect (d₁ ++ d₂) ∧ PulseFloor p x ∧
      x.1.RisesFrom (s.now + p.tPON) ∧ Spaced p p.tCmdGap (x.2.t + p.tEL + p.tRST) ws up ∧ PulseFloor p y ∧
      y.1.RisesFrom (up + p.tDPRE) ∧ y.2.t + p.tEL + p.tDPOST ≤ down := by
  obtain ⟨a, x, d, ha, sa, aa, ars, al, at', ad, fx, rx, lx⟩ :=
    (h.wait p.tPON).transmit_times (show (s.tick p.tPON).Accepting (110 + 12) from acc) p (p.rom.get .reset)
  obtain ⟨b, ws, e, hb, sb, ab, brs, len, bl, bt, be, sp⟩ := Sending.commands_times p initCommands (sa.wait p.tRST)
    (k := 14) (show (a.tick p.tRST).Accepting _ from fun j hj => aa j (by simp [initCommands] at hj; omega))
  have rs : b.line .rs = s.line .rs := by rw [brs, State.line_tick, ars, State.line_tick]
  obtain ⟨c, hc, sc, ac, crs, cl, cn, ct⟩ := sb.select (k := 13) ab true (by rw [rs]; exact pr) (by rw [rs, low]; decide)
  obtain ⟨u, y, f, hu, su, au, urs, ul, ut, uf, fy, ry, ly⟩ := (sc.wait p.tDPRE).transmit_times (k := 1)
    (show (c.tick p.tDPRE).Accepting _ from ac) p (p.rom.get .char)
  have rs' : u.line .rs = { s.line .rs with lvl := .high } := by rw [urs, State.line_tick, crs, rs]; rfl
  obtain ⟨t, ht, -, -, -, tl, tn, tt⟩ := (su.wait p.tDPOST).select (k := 0) (show (u.tick p.tDPOST).Accepting _ from au)
    false (by rw [State.line_tick, rs']; exact pr) (by rw [State.line_tick, rs']; exact Level.noConfusion)
  have lb : b.latches = s.latches ++ pairs ([x] ++ ws) := by
    rw [bl, State.latches_tick, al, State.latches_tick]; simp [pairs]
  have tb : b.trace = s.trace ++ (d ++ e) := by
    rw [bt, State.tick_trace, at', State.tick_trace, List.append_assoc]
  refine ⟨t, x, ws, y, c.now, t.now, d ++ e, f, ?_, len, ?_, ?_, ?_, (ad.append be).append uf, fx, ?_, ?_, fy, ?_, ?_⟩
  · simp only [initActs, applyAll_append, applyAll_cons, applyAll_nil, Act.apply] at ha hb hc hu ht ⊢
    rw [ha, hb, hc, hu, ht]
  · rw [tl, State.latches_tick, ul, State.latches_tick, cl, lb]; simp [pairs]
  · rw [tt, State.tick_trace, ut, State.tick_trace, ct, tb]
  · rw [← tb]; exact lb
  · exact le_trans (by simp) rx
  · refine Spaced.weaken (sp.mono ?_) cn
    simp only [State.tick_now]
    omega
  · exact le_trans (by simp) ry
  · simp only [State.tick_now] at tn
    omega

/-- What INIT_RUN's writes and waits leave and latch when every write is accepted (42_init_sequencer.md R135, R138). -/
theorem initActs_spec (p : Params) {s : State} (h : Sending s) (rs : (s.line .rs).presents = true) {k : Nat}
    (acc : s.Accepting (k + 122)) :
    ∃ t, applyAll (initActs p) s = t ∧ Sending t ∧ t.Accepting k ∧ (t.line .rs).lvl = .low ∧ t.line .rw = s.line .rw ∧
      (t.line .db7).lvl = Level.ofBit ((lo p.rom.char).getLsbD 3) ∧
      (t.line .db6).lvl = Level.ofBit ((lo p.rom.char).getLsbD 2) ∧
      (t.line .db5).lvl = Level.ofBit ((lo p.rom.char).getLsbD 1) ∧
      (t.line .db4).lvl = Level.ofBit ((lo p.rom.char).getLsbD 0) ∧
      t.latches.map Latch.nibble =
        s.latches.map Latch.nibble ++
          ([CmdName.reset, .startup1, .startup2, .functionset, .displayoff, .clear, .entrymode, .displayon,
              .home].flatMap fun c => wordNibbles (s.line .rs).lvl (s.line .rw).lvl (p.rom.get c)) ++
          wordNibbles .high (s.line .rw).lvl (p.rom.get .char) := by
  have writeRs : ∀ {s : State} {j : Nat} (v : Bool), Sending s → (s.line .rs).presents = true → s.Accepting (j + 1) →
      ∃ t, (Act.write .rs v).apply s = t ∧ Sending t ∧ t.Accepting j ∧ (t.line .rs).lvl = Level.ofBit v ∧
        (t.line .rs).presents = true ∧ (∀ g, g ≠ .rs → t.line g = s.line g) ∧ t.latches = s.latches := by
    intro s j v h pr ac
    have line : ∀ g, ((Act.write .rs v).apply s).line g = if g = .rs then { s.line .rs with lvl := Level.ofBit v } else s.line g := by
      intro g
      simp only [Act.apply, State.line_writeLevel, (ac.tick 0).accepts (show ((s.tick 0).line .rs).presents = true from pr), and_true, State.line_tick]
    refine ⟨_, rfl, ⟨fun g hg => ?_, (h.2.1.tick 0).writeLevel _ _, ?_⟩, (ac.tick 0).writeLevel _ _, ?_, ?_, ?_, ?_⟩
    · rw [presents_of_keeps ((apply_keeps (x := .write .rs v) rfl s).2 g)]; exact h.1 g hg
    · rw [line]; exact h.2.2
    · rw [line]; simp
    · rw [presents_of_keeps ((apply_keeps (x := .write .rs v) rfl s).2 _)]; exact pr
    · intro g hg; rw [line, if_neg hg]
    · exact (latches_writeLevel_other (by decide) v _).1
  have first : (s.tick p.tPON).Accepting (k + 110 + 12) := acc
  obtain ⟨a, ha, sa, aa, ars, arw, al, -⟩ := (h.wait p.tPON).transmit first p (p.rom.get .reset)
  obtain ⟨b, hb, sb, ab, brs, brw, bl⟩ := Sending.commands p initCommands (sa.wait p.tRST) (k := k + 14)
    (show (a.tick p.tRST).Accepting _ from fun j hj => aa j (by simp [initCommands] at hj; omega))
  have bpr : (b.line .rs).presents = true := by
    rw [brs, State.line_tick, ars]; exact rs
  obtain ⟨c, hc, sc, ac, crs, cpr, cl, ct⟩ := writeRs (j := k + 13) true sb bpr ab
  obtain ⟨d, hd, sd, ad, drs, drw, dl, d7, d6, d5, d4⟩ := (sc.wait p.tDPRE).transmit (k := k + 1) (show (c.tick p.tDPRE).Accepting _ from fun j hj => ac j (by omega)) p (p.rom.get .char)
  obtain ⟨t, ht, st, at', trs, -, tl, tt⟩ := writeRs (j := k) false (sd.wait p.tDPOST) (show (d.line .rs).presents = true by rw [drs]; exact cpr) ad
  refine ⟨t, ?_, st, at', trs, ?_, ?_, ?_, ?_, ?_, ?_⟩
  · simp only [initActs, applyAll_append, applyAll_cons, applyAll_nil, Act.apply] at ha hb hc hd ht ⊢
    rw [ha, hb, hc, hd, ht]
  · rw [tl _ (by decide), State.line_tick, drw, State.line_tick, cl _ (by decide), brw, State.line_tick, arw, State.line_tick]
  · rw [tl _ (by decide), State.line_tick, d7]; rfl
  · rw [tl _ (by decide), State.line_tick, d6]; rfl
  · rw [tl _ (by decide), State.line_tick, d5]; rfl
  · rw [tl _ (by decide), State.line_tick, d4]; rfl
  · rw [tt, State.latches_tick, dl, State.latches_tick, ct, bl, State.latches_tick, al, State.latches_tick]
    simp only [State.line_tick, ars, arw, brw, crs, cl .rw (by decide), Level.ofBit, initCommands, List.flatMap_cons,
      List.flatMap_nil, List.append_assoc, List.append_nil]

end Sys2Proof.Machine
end

