-- ==== Sys2Proof/Laws/Lifecycle.lean ====
section
/-! SUPPORT. The other parts of the host events: taking and freeing the guard, registering and unregistering. -/

namespace Sys2Proof.Machine

/-- LOCK of a free guard (43_session_lifecycle.md R145). -/
theorem runOn_lock {s : State} (free : s.lockOwner = none) (a : Nat) (l : Locals) :
    runOn a lockSteps l s = some (l.steps 1, { s.tick 0 with lockOwner := some a }) := by
  simp only [lockSteps, checked, numbered, List.map_nil, List.nil_append, runOn, perform, performLock, free,
    Locals.step_eq]

/-- UNLOCK by the holder (43_session_lifecycle.md R146). -/
theorem runOn_unlock {s : State} {a : Nat} (held : s.lockOwner = some a) (l : Locals) :
    runOn a unlockSteps l s = some (l.steps 1, { s.tick 0 with lockOwner := none }) := by
  simp only [unlockSteps, checked, numbered, List.map_nil, List.nil_append, runOn, perform, performUnlock,
    State.holdsGuard, held, beq_self_eq_true, if_true, Locals.step_eq]

/-- What registration changes (43_session_lifecycle.md R152). -/
def SameApartFromRegistration (s t : State) : Prop :=
  t.lines = s.lines ∧ t.trace = s.trace ∧ t.linesAcquired = s.linesAcquired ∧ t.initDone = s.initDone ∧
    t.sess = s.sess ∧ t.lockOwner = s.lockOwner ∧ t.answers = s.answers

/-- REGISTER with its three calls granted, and `loaded <- Loaded` (43_session_lifecycle.md R150, R152). -/
theorem runOn_register {s : State} {h₁ h₂ h₃ : Nat} (g₁ : s.registrations.nth Config.freeRegistration 0 = some h₁)
    (g₂ : s.registrations.nth Config.freeRegistration 1 = some h₂)
    (g₃ : s.registrations.nth Config.freeRegistration 2 = some h₃) (a : Nat) (l : Locals) :
    ∃ t, runOn a (eventLines [.registerDevice, .createClass, .createNode, .setReg, .setLoaded]) l s =
        some ({ l.steps 5 with handle := h₁, classHandle := h₂ }, t) ∧
      SameApartFromRegistration s t ∧ t.reg = some h₁ ∧ t.loaded = .loaded ∧
      t.hostCalls = s.hostCalls ++
        [.registerDevice s.params.deviceName callbacks (some h₁), .createDeviceClass s.params.className (some h₂),
          .createDeviceNode h₂ nodeName nodeMode true] := by
  have g₁' : s.registrations.head Config.freeRegistration = some h₁ := g₁
  have g₂' : s.registrations.advance.head Config.freeRegistration = some h₂ := g₂
  have g₃' : s.registrations.advance.advance.head Config.freeRegistration = some h₃ := g₃
  simp only [eventLines, List.map_cons, List.map_nil, runOn, perform, performRegisterDevice, performCreateClass, performCreateNode,
    State.registration, State.askRegistration_registrations, State.tick_registrations, g₁', g₂', g₃']
  exact ⟨_, rfl, by simp [SameApartFromRegistration], by simp [Locals.step], by simp, by simp [Locals.step]⟩

/-- REGISTER whose call number `k` (0, 1 or 2) is the first to fail faults there (43_session_lifecycle.md R153). -/
theorem runWith_register_fails {J : Task → State → State} {s : State} {k : Nat} (hk : k < 3)
    (granted : ∀ j, j < k → (s.registrations.nth Config.freeRegistration j).isSome = true)
    (failed : s.registrations.nth Config.freeRegistration k = none) (a : Nat) (r : Op) (x : Option Result) (l : Locals) :
    ∃ t, runWith J a r x (eventLines [.registerDevice, .createClass, .createNode, .setReg, .setLoaded]) l s =
        t.raise a { op := r, k := l.k + k } { op := r, k := l.k + k } .registrationFailed ∧
      SameApartFromRegistration s t ∧ Steady s t ∧ t.reg = s.reg ∧ t.loaded = s.loaded := by
  have ok : ∀ j, j < k → ∃ h, s.registrations.nth Config.freeRegistration j = some h :=
    fun j hj => Option.isSome_iff_exists.mp (granted j hj)
  match k, hk with
  | 0, _ =>
    have f : s.registrations.head Config.freeRegistration = none := failed
    simp only [eventLines, List.map_cons, List.map_nil, runWith, State.raiseAt, Option.getD_none, perform,
      performRegisterDevice, State.registration, f]
    exact ⟨_, rfl, by simp [SameApartFromRegistration], by simp [Steady, SameLogs, SameLaunch], by simp, by simp⟩
  | 1, _ =>
    obtain ⟨h₁, g₁⟩ := ok 0 (by omega)
    have g₁' : s.registrations.head Config.freeRegistration = some h₁ := g₁
    have f : s.registrations.advance.head Config.freeRegistration = none := failed
    simp only [eventLines, List.map_cons, List.map_nil, runWith, State.raiseAt, Option.getD_none, Locals.step, perform, performRegisterDevice, performCreateClass, State.registration,
      State.askRegistration_registrations, State.tick_registrations, g₁', f]
    exact ⟨_, rfl, by simp [SameApartFromRegistration], by simp [Steady, SameLogs, SameLaunch], by simp, by simp⟩
  | 2, _ =>
    obtain ⟨h₁, g₁⟩ := ok 0 (by omega)
    obtain ⟨h₂, g₂⟩ := ok 1 (by omega)
    have g₁' : s.registrations.head Config.freeRegistration = some h₁ := g₁
    have g₂' : s.registrations.advance.head Config.freeRegistration = some h₂ := g₂
    have f : s.registrations.advance.advance.head Config.freeRegistration = none := failed
    simp only [eventLines, List.map_cons, List.map_nil, runWith, State.raiseAt, Option.getD_none, Locals.step, perform, performRegisterDevice, performCreateClass, performCreateNode,
      State.registration, State.askRegistration_registrations, State.tick_registrations, g₁', g₂', f]
    exact ⟨_, rfl, by simp [SameApartFromRegistration], by simp [Steady, SameLogs, SameLaunch], by simp, by simp⟩

/-- UNREGISTER and the clearing that follows it (43_session_lifecycle.md R155, R157). -/
theorem runOn_unregister (a : Nat) (l : Locals) (s : State) :
    ∃ t, runOn a (eventLines [.destroyNode, .destroyClass, .unregister, .clearLoad]) l s = some (l.steps 4, t) ∧
      t.lines = s.lines ∧ t.trace = s.trace ∧ t.linesAcquired = s.linesAcquired ∧ t.sess = s.sess ∧
      t.lockOwner = s.lockOwner ∧ t.reg = none ∧ t.loaded = .unloaded ∧ t.initDone = false ∧
      t.hostCalls = s.hostCalls ++ [.destroyDeviceNode, .destroyDeviceClass, .unregisterDevice s.reg] := by
  simp only [eventLines, List.map_cons, List.map_nil, runOn, perform]
  exact ⟨_, rfl, by simp, by simp, by simp, by simp, by simp, by simp, by simp, by simp, by simp⟩

/-! ### EV_LOAD up to its UNLOCK -/

theorem applyAll_registrations {acts : List Act} (h : ∀ x ∈ acts, x.plain = true) (s : State) :
    (applyAll acts s).registrations = s.registrations := by
  induction acts generalizing s with
  | nil => rfl
  | cons x xs ih =>
    rw [applyAll_cons, ih fun y hy => h y (List.mem_cons_of_mem _ hy)]
    have hx := h x List.mem_cons_self
    cases x <;> simp only [Act.plain, Bool.false_eq_true] at hx <;> simp [Act.apply]

/-- The step list of EV_LOAD before its registration. -/
def bringUpSteps (p : Params) : List MicroStep :=
  acquireSteps p allSignals ++ eventLines [.setAcquired true] ++ lockSteps ++ initRunSteps p ++ unlockSteps

theorem evLoadSteps_eq (p : Params) :
    evLoadSteps p =
      bringUpSteps p ++ eventLines [.registerDevice, .createClass, .createNode, .setReg, .setLoaded] := rfl

/-- EV_LOAD with its lines claimable, the guard free and INIT_RUN not yet run in this load reaches its registration with
the lines held and the guard free again, after 190 micro-steps and the waits T_CMD_GAP there are, whatever the level
writes are answered (43_session_lifecycle.md R150). -/
theorem runOn_bringUp {s : State} (h : s.params.wf = true) (fresh : s.initDone = false) (free : s.lockOwner = none)
    (c : s.Claimable allSignals) :
    ∃ t, runOn s.self (bringUpSteps s.params) Locals.start s =
        some (Locals.start.steps (190 + if s.params.tCmdGap = 0 then 0 else 8), t) ∧ t.AllDriven ∧
      t.linesAcquired = true ∧ t.initDone = true ∧ t.lockOwner = none ∧ t.reg = s.reg ∧ t.loaded = s.loaded ∧
      t.sess = s.sess ∧ t.registrations = s.registrations ∧ Steady s t ∧ CallsLines s t := by
  have seven : (chosen s.params allSignals).length = 7 := by
    rw [chosen_allSignals, (Params.acqOrder_perm h).length_eq]; rfl
  obtain ⟨a1, a2, a3⟩ := acquire_spec (s := s) h allSignals
  have acq := runOn_acquire h c s.self Locals.start
  have ac := (claimAll_calls (chosen s.params allSignals) s).trans (driveAll_calls (chosen s.params allSignals) _)
  rw [seven] at acq
  generalize driveAll (chosen s.params allSignals) (claimAll (chosen s.params allSignals) s) = a at *
  have set : ∀ l, runOn s.self (eventLines [.setAcquired true]) l a =
      some (l.steps 1, { a.tick 0 with linesAcquired := true }) := fun _ => rfl
  have lock := runOn_lock (s := { a.tick 0 with linesAcquired := true }) (a1.2.2.1.trans free) s.self
  generalize hd : ({ State.tick 0 { a.tick 0 with linesAcquired := true } with lockOwner := some s.self } : State) = d at *
  have dline : ∀ g, (d.line g).presents = true := by
    intro g
    rw [← hd]
    show (a.line g).presents = true
    rw [a3, selects_allSignals]
    rfl
  have d1 : d.lockOwner = some s.self := by rw [← hd]
  have d2 : d.linesAcquired = true := by rw [← hd]; rfl
  have d3 : d.initDone = false := by rw [← hd]; exact a1.2.1.2.2.2.1.trans fresh
  have d4 : d.reg = s.reg := by rw [← hd]; exact a1.2.1.2.1
  have d5 : d.loaded = s.loaded := by rw [← hd]; exact a1.2.1.2.2.1
  have d6 : d.sess = s.sess := by rw [← hd]; exact a1.2.1.2.2.2.2
  have d7 : d.registrations = s.registrations := by rw [← hd]; exact a1.2.2.2.2
  have init := runOn_initRun (a := s.self) ⟨d1, d2, dline _⟩ d3 s.params
  obtain ⟨⟨k1, -, -, k4, -⟩, kl⟩ := applyAll_keeps (initActs_plain s.params) { d with initDone := true }
  have kr := (applyAll_registrations (initActs_plain s.params) { d with initDone := true }).trans d7
  have dc : CallsLines s d := ac.trans (by rw [← hd]; exact CallsLines.of_same rfl)
  have ec := (dc.trans (CallsLines.of_same (t := { d with initDone := true }) rfl)).trans
    (applyAll_calls (initActs_plain s.params) { d with initDone := true })
  generalize applyAll (initActs s.params) { d with initDone := true } = e at *
  have unlock := runOn_unlock (s := e) (a := s.self) (k4.trans d1)
  have total : runOn s.self (bringUpSteps s.params) Locals.start s =
      some (Locals.start.steps (190 + if s.params.tCmdGap = 0 then 0 else 8), { e.tick 0 with lockOwner := none }) := by
    unfold bringUpSteps
    have n := initActs_length s.params
    generalize initRunSteps s.params = x at *
    simp only [List.append_assoc]
    rw [runOn_append acq, runOn_append (set _), runOn_append (lock _), runOn_append (init _), unlock]
    simp only [Locals.steps_steps, n]
    rw [show ∀ g, 3 * 7 + 1 + 1 + (166 + g) + 1 = 190 + g by omega]
  refine ⟨_, total, ?_, ?_, ?_, rfl, ?_, ?_, ?_, kr, runOn_steady total,
    ec.trans (CallsLines.of_same rfl)⟩
  · intro g
    show (e.line g).presents = true
    rw [presents_of_keeps (kl g)]
    exact dline g
  · exact k1.1.trans d2
  · exact k1.2.2.2.1
  · exact k1.2.1.trans d4
  · exact k1.2.2.1.trans d5
  · exact k1.2.2.2.2.trans d6

end Sys2Proof.Machine
end

