-- ==== Sys2Proof/Laws/PerInstr.lean ====
section
/-! SUPPORT. A statement about every instruction as syntax, one lemma per constructor: its word lies in its row of the
opcode table. -/

namespace Sys2Proof

/-- The `mask` and `match` columns of the instruction's row (30_encoding.md R79, R84). -/
def Instr.row : Instr → Word × Word
  | .acquire _ => (0xFF80#16, 0x1000#16)
  | .release _ => (0xFF80#16, 0x2000#16)
  | .setlevel _ _ => (0xF8FE#16, 0x3000#16)
  | .transmit _ => (0xFF00#16, 0x4000#16)
  | .delayUs _ => (0xF000#16, 0x5000#16)
  | .delayMs _ => (0xF000#16, 0x6000#16)
  | .lock => (0xFFFF#16, 0x7000#16)
  | .unlock => (0xFFFF#16, 0x8000#16)
  | .initRun => (0xFFFF#16, 0x9000#16)
  | .evLoad => (0xFFFF#16, 0xA000#16)
  | .evUnload => (0xFFFF#16, 0xB000#16)
  | .evOpen _ => (0xFF00#16, 0xC000#16)
  | .evClose _ => (0xFF00#16, 0xD000#16)
  | .evControl _ => (0xFF00#16, 0xE000#16)
  | .reserved0 _ => (0xF000#16, 0x0000#16)
  | .reservedF _ => (0xF000#16, 0xF000#16)

end Sys2Proof

namespace Sys2Proof.Laws.TableRow

/-- The instruction's word has its row's opcode and no must-be-zero bit of it set. -/
def Statement (i : Instr) : Prop := encode i &&& i.row.1 = i.row.2

theorem lowClear (c : BitVec 4) (n : BitVec 12) : (c ++ n) &&& 0xF000#16 = c ++ 0#12 := by
  refine BitVec.eq_of_getLsbD_eq fun i hi => ?_
  simp only [BitVec.getLsbD_and, BitVec.getLsbD_append]
  interval_cases i <;> simp

theorem byteClear (c : BitVec 4) (w : Byte) : (c ++ 0#4 ++ w) &&& 0xFF00#16 = c ++ 0#12 := by
  refine BitVec.eq_of_getLsbD_eq fun i hi => ?_
  simp only [BitVec.getLsbD_and, BitVec.getLsbD_append]
  interval_cases i <;> simp

theorem maskClear (c : BitVec 4) (m : BitVec 7) : (c ++ 0#5 ++ m) &&& 0xFF80#16 = c ++ 0#12 := by
  refine BitVec.eq_of_getLsbD_eq fun i hi => ?_
  simp only [BitVec.getLsbD_and, BitVec.getLsbD_append]
  interval_cases i <;> simp

theorem acquire (mask : BitVec 7) : Statement (.acquire mask) := maskClear _ mask

theorem release (mask : BitVec 7) : Statement (.release mask) := maskClear _ mask

theorem setlevel (sig : Sig) (lv : Bool) : Statement (.setlevel sig lv) := by
  cases sig <;> cases lv <;> (unfold Statement; decide)

theorem transmit (w : Byte) : Statement (.transmit w) := byteClear _ w

theorem delayUs (n : BitVec 12) : Statement (.delayUs n) := lowClear _ n

theorem delayMs (n : BitVec 12) : Statement (.delayMs n) := lowClear _ n

theorem lock : Statement .lock := by unfold Statement; decide

theorem unlock : Statement .unlock := by unfold Statement; decide

theorem initRun : Statement .initRun := by unfold Statement; decide

theorem evLoad : Statement .evLoad := by unfold Statement; decide

theorem evUnload : Statement .evUnload := by unfold Statement; decide

theorem evOpen (sid : Byte) : Statement (.evOpen sid) := byteClear _ sid

theorem evClose (sid : Byte) : Statement (.evClose sid) := byteClear _ sid

theorem evControl (sid : Byte) : Statement (.evControl sid) := byteClear _ sid

theorem reserved0 (low : BitVec 12) : Statement (.reserved0 low) := lowClear _ low

theorem reservedF (low : BitVec 12) : Statement (.reservedF low) := lowClear _ low

end Sys2Proof.Laws.TableRow
end

