-- ==== Sys2Proof/Laws/Step.lean ====
section
/-! SUPPORT. Everything a step can do, as one induction: a relation kept by every action, and by what the schedule, the
environment, a refusal, a fault and an end of a request do, is kept by every step. -/

namespace Sys2Proof.Machine

/-- What issuing a request does to the state, whichever it is. -/
theorem runAdmitted_cases {ad : Admission} {s t : State} (h : runAdmitted ad s = .next t) :
    (∃ r, ad = .refuse r ∧ t = s.refuse r) ∨ ∃ k, ad = .run k ∧ s.Ready ∧ t = runTask s.self k s := by
  cases ad with
  | refuse r => simp only [runAdmitted, Host.Outcome.next.injEq] at h; exact .inl ⟨r, rfl, h.symm⟩
  | run k =>
    simp only [runAdmitted] at h
    split at h
    · next e => simp only [Host.Outcome.next.injEq] at h; exact .inr ⟨k, rfl, e, h.symm⟩
    · cases h
    · cases h

theorem beginAdmitted_cases {ad : Admission} {s t : State} (h : beginAdmitted ad s = .next t) :
    (∃ r, ad = .refuse r ∧ t = s.refuse r) ∨ ∃ k, ad = .run k ∧ s.Ready ∧ t = settle s.self k s := by
  cases ad with
  | refuse r => simp only [beginAdmitted, Host.Outcome.next.injEq] at h; exact .inl ⟨r, rfl, h.symm⟩
  | run k =>
    simp only [beginAdmitted] at h
    split at h
    · next e => simp only [Host.Outcome.next.injEq] at h; exact .inr ⟨k, rfl, e, h.symm⟩
    · cases h
    · cases h

/-- The four kinds of step: a pending request run whole or begun, a micro-step of an agent, a change of foreign owners;
or nothing but the turn. -/
theorem step_cases {s t : State} (h : step s = .next t) :
    t = s.afterTurn ∨
      (∃ r why, s.afterTurn.nextRequest = some r ∧ decode r.word = .reserved why ∧
        t = (s.afterTurn.issue r).refuse (.reserved why)) ∨
      (∃ r i, s.afterTurn.nextRequest = some r ∧ decode r.word = .instr i ∧
        (exec i (s.afterTurn.issue r) = .next t ∨ begin i (s.afterTurn.issue r) = .next t)) ∨
      (∃ a, t = agentTurn a s.afterTurn) ∨ ∃ n held, t = foreignTurn n held s.afterTurn := by
  have req : ∀ meaning, (meaning = exec ∨ meaning = begin) → requestTurn meaning s.afterTurn = .next t →
      t = s.afterTurn ∨
        (∃ r why, s.afterTurn.nextRequest = some r ∧ decode r.word = .reserved why ∧
          t = (s.afterTurn.issue r).refuse (.reserved why)) ∨
        (∃ r i, s.afterTurn.nextRequest = some r ∧ decode r.word = .instr i ∧
          (exec i (s.afterTurn.issue r) = .next t ∨ begin i (s.afterTurn.issue r) = .next t)) := by
    intro meaning hm h
    unfold requestTurn at h
    split at h
    · next r hr =>
      unfold runRequest at h
      split at h
      · next i hi => exact .inr (.inr ⟨r, i, hr, hi, by rcases hm with rfl | rfl <;> simp [h]⟩)
      · next why hw =>
        simp only [Host.Outcome.next.injEq] at h
        exact .inr (.inl ⟨r, why, hr, hw, h.symm⟩)
    · simp only [Host.Outcome.next.injEq] at h; exact .inl h.symm
  unfold step takeTurn at h
  split at h
  · rcases req _ (.inl rfl) h with h | h | h
    · exact .inl h
    · exact .inr (.inl h)
    · exact .inr (.inr (.inl h))
  · rcases req _ (.inr rfl) h with h | h | h
    · exact .inl h
    · exact .inr (.inl h)
    · exact .inr (.inr (.inl h))
  · next a _ => simp only [Host.Outcome.next.injEq] at h; exact .inr (.inr (.inr (.inl ⟨a, h.symm⟩)))
  · next n held _ => simp only [Host.Outcome.next.injEq] at h; exact .inr (.inr (.inr (.inr ⟨n, held, h.symm⟩)))

/-- A relation kept by every part of a step is kept by every step. -/
theorem step_keeps {R : State → State → Prop} (refl : ∀ s, R s s) (trans : ∀ {s t u}, R s t → R t u → R s u)
    (turn : ∀ s, R s s.afterTurn) (issue : ∀ r s, R s (s.issue r)) (refuse : ∀ r s, R s (s.refuse r))
    (foreign : ∀ n held s, R s (foreignTurn n held s))
    (act : ∀ a m l s, (perform a m l s).Keeps R (fun _ => True) s)
    (raise : ∀ a pc site c s, R s (s.raise a pc site c)) (park : ∀ a k s, R s (s.park a k))
    (finish : ∀ a r x s, R s (s.finish a r x)) {s t : State} (h : step s = .next t) : R s t := by
  have all : ∀ ms : List MicroStep, ∀ m ∈ ms, True := fun _ _ _ => trivial
  rcases step_cases h with rfl | ⟨r, why, -, -, rfl⟩ | ⟨r, i, -, -, h⟩ | ⟨a, rfl⟩ | ⟨n, held, rfl⟩
  · exact turn s
  · exact trans (turn s) (trans (issue r _) (refuse _ _))
  · refine trans (turn s) (trans (issue r _) ?_)
    generalize s.afterTurn.issue r = u at h
    rcases h with h | h
    · rw [exec_eq_runAdmitted] at h
      rcases runAdmitted_cases h with ⟨q, -, rfl⟩ | ⟨k, -, -, rfl⟩
      · exact refuse _ _
      · exact runTask_keeps (R := R) (ok := fun _ => True) trans (fun m l s _ => act _ m l s) (raise _) (park _) (finish _ _) (all _)
    · rcases beginAdmitted_cases h with ⟨q, -, rfl⟩ | ⟨k, -, -, rfl⟩
      · exact refuse _ _
      · unfold settle
        split
        · exact finish _ _ _ _
        · exact park _ _ _
  · refine trans (turn s) ?_
    unfold agentTurn
    split
    · exact advance_keeps (R := R) (ok := fun _ => True) trans (fun m l s _ => act _ m l s) (raise _) (park _) (finish _ _) (all _)
    · exact refl _
    · exact refl _
  · exact trans (turn s) (foreign _ _ _)

end Sys2Proof.Machine
end

