-- ==== Sys2Proof/Machine/Asm.lean ====
section
/-! DEFINITION. The assembler spelling of a request and the pseudo-instructions (30_encoding.md R82, R83). -/

namespace Sys2Proof.Machine

/-- A signal's name in assembler text (30_encoding.md R82). -/
def sigAsm : Sig → String
  | .rs => "RS"
  | .rw => "RW"
  | .e => "E"
  | .db4 => "DB4"
  | .db5 => "DB5"
  | .db6 => "DB6"
  | .db7 => "DB7"

/-- A number in assembler text, decimal. -/
def numAsm (n : Nat) : String := Nat.repr n

/-- The line that spells a request; none for a reserved row, which has no spelling. EV_CONTROL's opaque argument is
no part of the instruction and is given (30_encoding.md R78, R82). -/
def instrAsm (arg : Nat) : Instr → Option String
  | .acquire mask => some ("acquire " ++ numAsm mask.toNat)
  | .release mask => some ("release " ++ numAsm mask.toNat)
  | .setlevel s v => some ("setl " ++ sigAsm s ++ ", " ++ numAsm v.toNat)
  | .transmit w => some ("tx " ++ numAsm w.toNat)
  | .delayUs n => some ("delay_us " ++ numAsm n.toNat)
  | .delayMs n => some ("delay_ms " ++ numAsm n.toNat)
  | .lock => some "lock"
  | .unlock => some "unlock"
  | .initRun => some "init_run"
  | .evLoad => some "ev_load"
  | .evUnload => some "ev_unload"
  | .evOpen sid => some ("ev_open " ++ numAsm sid.toNat)
  | .evClose sid => some ("ev_close " ++ numAsm sid.toNat)
  | .evControl sid => some ("ev_control " ++ numAsm sid.toNat ++ ", " ++ numAsm arg)
  | .reserved0 _ => none
  | .reservedF _ => none

/-- The pseudo-instructions (30_encoding.md R83). -/
inductive Pseudo where
  | acquireAll
  | releaseAll
  | txName (c : CmdName)
  | cmd (w : Byte)
  | data (w : Byte)
deriving DecidableEq, Repr

/-- What a pseudo-instruction expands to (30_encoding.md R83). -/
def Pseudo.expand (p : Params) : Pseudo → List Instr
  | .acquireAll => [.acquire allSignals]
  | .releaseAll => [.release allSignals]
  | .txName c => [.transmit (p.rom.get c)]
  | .cmd w => [.setlevel .rs false, .transmit w]
  | .data w => [.setlevel .rs true, .transmit w]

end Sys2Proof.Machine
end

