-- ==== Sys2Proof/Tests/Slice0.lean ====
section
/-! SUPPORT. Tests with results taken from the spec's vectors (95_test_vectors.md), and for every statement with
hypotheses a witness that they can be met together. -/

set_option maxRecDepth 20000

namespace Sys2Proof.Tests

open Sys2Proof Sys2Proof.Machine

/-! ### States -/

/-- The configuration TC of 95_test_vectors.md. -/
def tc : Params where
  pin := { rs := 4, rw := 17, e := 18, db4 := 22, db5 := 23, db6 := 24, db7 := 25 }
  acqOrder := [.rs, .rw, .db4, .db5, .db6, .db7, .e]
  label := PerSig.of fun _ => ""
  tEH := 50000
  tEL := 50000
  tPON := 15000000
  tRST := 35000000
  tDPRE := 35000000
  tDPOST := 35000000
  tCmdGap := 0
  rom :=
    { reset := 0x33, startup1 := 0x32, startup2 := 0x28, functionset := 0x28, displayoff := 0x08, clear := 0x01,
      entrymode := 0x06, displayon := 0x0C, home := 0x02, char := 0x41 }
  releaseUnowned := .fault
  closePolicy := .reference
  maxSessions := 256
  deviceName := "lcd"
  className := "lcd"

/-- Reset under TC with no foreign owner, the minimal schedule, accepted writes and granted registrations. -/
def base : State :=
  { State.reset with
    params := tc
    foreign := []
    delays := { given := List.replicate 250 0, drawn := 0 }
    answers := { given := List.replicate 200 true, drawn := 0 }
    registrations := { given := [some 1, some 2, some 3], drawn := 0 } }

/-- The next state; `base` where there is none. -/
def after (o : Host.Outcome State Fault Refusal) : State :=
  match o with
  | .next t => t
  | .fault _ => base
  | .refused _ => base

/-- A field of the next state. -/
def field {α : Type} (o : Host.Outcome State Fault Refusal) (f : State → α) : Option α :=
  match o with
  | .next t => some (f t)
  | .fault _ => none
  | .refused _ => none

/-- The answers of the host to the next level writes. -/
def answering (l : List Bool) (s : State) : State := { s with answers := { given := l, drawn := 0 } }

/-- After V-ACQ-1, its draws given anew. -/
def acquired : State := { after (exec (.acquire 0x7F#7) base) with delays := base.delays }

/-- After V-ACQ-1 with `linesAcquired = 1` and agent 0 holding the guard: the start of V-TX-1. -/
def sending : State := { acquired with linesAcquired := true, lockOwner := some 0 }

/-- A loaded block, every session Closed and the guard free. -/
def up : State := { acquired with linesAcquired := true, initDone := true, loaded := .loaded, reg := some 1 }

/-- The same with session 0 Open. -/
def open0 : State := { up with sess := [0] }

/-- The same after the lines have been released. -/
def closed0 : State := { base with initDone := true, loaded := .loaded, reg := some 1, sess := [0] }

/-- The guard is held by agent 5. -/
def contended : State := { base with lockOwner := some 5 }

/-- Agent 0 holds the guard and owns nothing. -/
def guarding : State := { base with lockOwner := some 0 }

/-- The turn that comes next. -/
def turning (t : Turn) (s : State) : State := { s with turns := { given := [t], drawn := 0 } }

/-- One pending request of agent 0. -/
def pending (q : Word) (s : State) : State := { s with requests := [{ agent := 0, word := q, arg := 0 }] }

/-! ### WellFormed and decoding (V-DEC-1 to V-DEC-21) -/

theorem test_wellFormed_refuses_reserved0 : (Instr.reserved0 0xFFF#12).wellFormed = false := by decide

theorem test_wellFormed_refuses_reservedF : (Instr.reservedF 0#12).wellFormed = false := by decide

theorem test_wellFormed_accepts : (Instr.setlevel .db7 true).wellFormed = true := by decide

theorem test_decode_acquire : decode 0x107F#16 = .instr (.acquire 0x7F#7) := by decide

theorem test_decode_acquire_mbz : decode 0x1080#16 = .reserved .mbz := by decide

theorem test_decode_release : decode 0x207F#16 = .instr (.release 0x7F#7) := by decide

theorem test_decode_setlevel : decode 0x3201#16 = .instr (.setlevel .e true) := by decide

theorem test_decode_setlevel_sig7 : decode 0x3700#16 = .reserved .sig7 := by decide

theorem test_decode_setlevel_mbz : decode 0x3002#16 = .reserved .mbz ∧ decode 0x3801#16 = .reserved .mbz := by decide

theorem test_decode_transmit : decode 0x40A5#16 = .instr (.transmit 0xA5#8) := by decide

theorem test_decode_transmit_mbz : decode 0x4100#16 = .reserved .mbz := by decide

theorem test_decode_delayUs : decode 0x5FFF#16 = .instr (.delayUs 4095#12) := by decide

theorem test_decode_delayMs : decode 0x6023#16 = .instr (.delayMs 35#12) := by decide

theorem test_decode_lock : decode 0x7000#16 = .instr .lock ∧ decode 0x7001#16 = .reserved .mbz := by decide

theorem test_decode_unlock : decode 0x8000#16 = .instr .unlock := by decide

theorem test_decode_initRun : decode 0x9000#16 = .instr .initRun := by decide

theorem test_decode_evLoad : decode 0xA000#16 = .instr .evLoad := by decide

theorem test_decode_evUnload : decode 0xB000#16 = .instr .evUnload := by decide

theorem test_decode_evOpen : decode 0xC0FF#16 = .instr (.evOpen 255#8) ∧ decode 0xC100#16 = .reserved .mbz := by decide

theorem test_decode_evClose : decode 0xD000#16 = .instr (.evClose 0#8) := by decide

theorem test_decode_evControl : decode 0xE007#16 = .instr (.evControl 7#8) := by decide

theorem test_decode_reserved0 : decode 0x0FFF#16 = .instr (.reserved0 0xFFF#12) := by decide

theorem test_decode_reservedF : decode 0xF000#16 = .instr (.reservedF 0#12) := by decide

/-- A word that is no instruction gives none to the table's question. -/
theorem test_decodeTableWord :
    decodeTableWord 16 0x4033 = some (.transmit 0x33#8) ∧ decodeTableWord 16 0x3700 = none := by decide

/-- 30_encoding.md R82, R83. -/
theorem test_asm :
    instrAsm 0 (.setlevel .rs true) = some "setl RS, 1" ∧ instrAsm 3 (.evControl 7#8) = some "ev_control 7, 3" ∧
      (Pseudo.data 0x41#8).expand tc = [.setlevel .rs true, .transmit 0x41#8] := by decide

/-! ### ACQUIRE -/

/-- V-ACQ-6: DB4 comes before E in ACQ_ORDER. -/
theorem test_acquire_order :
    field (exec (.acquire 0x0C#7) base) State.trace =
      some [.own 0 .db4, .own 0 .e, .drive 0 .db4 false, .drive 0 .e false] := by decide

/-- V-ACQ-4: line 23 is held by another component. -/
theorem test_acquire_rollback :
    field (exec (.acquire 0x7F#7) { base with foreign := [23] }) (fun t => (t.trace, t.results.map Returned.result)) =
      some ([.own 0 .rs, .own 0 .rw, .own 0 .db4, .free 0 .db4, .free 0 .rw, .free 0 .rs],
        [.err .resourceUnavailable]) := by decide

/-- 40_pin_controller.md R90: the request and the claim are two micro-steps, and in between the line is the block's for
the host: another component cannot take it, and another agent's request of it fails. -/
theorem test_acquire_gap :
    ((agentTurn 0 (after (begin (.acquire 0x04#7) base))).line .e,
        (agentTurn 0 (after (begin (.acquire 0x04#7) base))).pcOf 0) =
      ({ granted := true, own := false, dir := .unset, lvl := .z }, some { op := .acquire, k := 1 }) ∧
    (foreignTurn 18 true (agentTurn 0 (after (begin (.acquire 0x04#7) base)))).foreign = [] ∧
    field (exec (.acquire 0x04#7) { agentTurn 0 (after (begin (.acquire 0x04#7) base)) with self := 1 })
        (fun t => t.results.map Returned.result) = some [.err .resourceUnavailable] := by decide

/-! ### RELEASE -/

/-- V-REL-4: the second RELEASE frees the six lines before E and faults at E. -/
theorem test_release_part_then_all :
    field (exec (.release 0x7F#7) (after (exec (.release 0x04#7) sending)))
        (fun t => (t.edges.drop 14, t.faults.map fun e => (e.code, e.pc))) =
      some ([.free .e, .free .rs, .free .rw, .free .db4, .free .db5, .free .db6, .free .db7],
        [(.releaseUnowned, { op := .release, k := 12 })]) := by
  decide

/-- V-REL-1. -/
theorem test_release_unguarded :
    field (exec (.release 0x7F#7) acquired) State.faults =
      some [{ code := .unguarded, agent := 0, pc := { op := .release, k := 0 }, now := 0 }] := by decide

/-! ### SETLEVEL -/

/-- V-SET-1. -/
theorem test_setlevel_rs :
    field (exec (.setlevel .rs true) sending) (fun t => (t.trace.drop 14, (t.line .rs).lvl)) =
      some ([.drive 0 .rs true], .high) := by decide

/-- V-SET-7: RS is not owned. -/
theorem test_setlevel_unowned :
    field (exec (.setlevel .rs true) (after (exec (.release 0x01#7) sending))) (fun t => t.faults.map FaultEntry.code) =
      some [.setLevelUnowned] := by decide

/-! ### TRANSMIT -/

/-- V-TX-1. -/
theorem test_transmit_trace :
    field (exec (.transmit 0xA5#8) sending) (fun t => (t.trace.drop 14, t.now)) =
      some ([.drive 0 .db7 true, .drive 0 .db5 true, .drive 0 .e true, .drive 50000 .e false, .drive 100000 .db7 false,
        .drive 100000 .db6 true, .drive 100000 .db5 false, .drive 100000 .db4 true, .drive 100000 .e true,
        .drive 150000 .e false], 200000) := by decide

/-- V-TX-6: the fall of E at k = 6 is rejected, so one latch, with E high for 150 000 ns. -/
theorem test_transmit_rejected_fall :
    field (exec (.transmit 0xA5#8) (answering ([true, true, true, true, true, false] ++ List.replicate 6 true) sending))
        (fun t => t.latches.map fun l => (l.t, [l.db7, l.db6, l.db5, l.db4], l.high)) =
      some [(150000, [.low, .high, .low, .high], 150000)] := by decide

/-! ### DELAY_US and DELAY_MS -/

/-- V-DLY-2. -/
theorem test_delayUs : field (exec (.delayUs 50#12) base) State.now = some 50000 := by decide

/-- V-DLY-4, without the guard as in V-DLY-6. -/
theorem test_delayMs : field (exec (.delayMs 35#12) base) State.now = some 35000000 := by decide

/-! ### LOCK and UNLOCK -/

/-- V-LK-2: the guard is held by another agent, so this one stands at its LOCK. -/
theorem test_lock_waits :
    field (exec .lock contended) (fun t => (t.lockOwner, t.pcOf 0, t.stuck 0)) =
      some (some 5, some { op := .lock, k := 0 }, true) := by decide

/-- V-LK-2: once the guard is free the waiting agent takes it. -/
theorem test_lock_after_wait :
    (agentTurn 0 { after (exec .lock contended) with lockOwner := none }).lockOwner = some 0 := by decide

/-- V-LK-4: the guard stays the other agent's. -/
theorem test_unlock_not_owner :
    field (exec .unlock contended) (fun t => (t.lockOwner, t.faults.map FaultEntry.code)) =
      some (some 5, [.unlockNotOwner]) := by decide

theorem test_unlock : field (exec .unlock guarding) State.lockOwner = some none := by decide

/-! ### INIT_RUN -/

/-- V-INIT-4: with `linesAcquired = 0` the first TRANSMIT faults after the 15 ms wait. -/
theorem test_initRun_unowned :
    field (exec .initRun { acquired with lockOwner := some 0 }) (fun t => (t.initDone, t.faults, t.trace.length)) =
      some (true,
        [{ code := .transmitUnowned, agent := 0, pc := { op := .transmit, k := 0 }, now := 15000000 }], 14) := by decide

/-- V-INIT-5: the rise of E for the first nibble of startup1 (write 17) is rejected, and one latch is missing. -/
theorem test_initRun_rejected_rise :
    field (exec .initRun (answering (List.replicate 16 true ++ [false] ++ List.replicate 105 true) sending))
        (fun t => (t.latches.length, (t.latches.map Latch.t).take 3)) =
      some (19, [15050000, 15150000, 50350000]) := by decide

/-- 10_state.md R35, 41_protocol_engine.md R112: after five micro-steps of its TRANSMIT the agent is at k = 5, E high; in
INIT_RUN it is at k = 6 of the request, the first wait included. -/
theorem test_positions :
    ((agentTurn 0)^[5] (after (begin (.transmit 0xA5#8) sending))).innerOf 0 = some { op := .transmit, k := 5 } ∧
      ((agentTurn 0)^[5] (after (begin (.transmit 0xA5#8) sending))).pcOf 0 = some { op := .transmit, k := 5 } ∧
      ((agentTurn 0)^[6] (after (begin .initRun sending))).innerOf 0 = some { op := .transmit, k := 5 } ∧
      ((agentTurn 0)^[6] (after (begin .initRun sending))).pcOf 0 = some { op := .initRun, k := 6 } := by decide

/-! ### The host events -/

/-- L3-1: the times of the twenty latches. -/
theorem test_evLoad_latches :
    field (exec .evLoad base) (fun t => t.latches.map Latch.t) =
      some [15050000, 15150000, 50250000, 50350000, 50450000, 50550000, 50650000, 50750000, 50850000, 50950000,
        51050000, 51150000, 51250000, 51350000, 51450000, 51550000, 51650000, 51750000, 86850000, 86950000] := by decide

/-- L3-1: the end. -/
theorem test_evLoad_end :
    field (exec .evLoad base)
        (fun t => (t.now, [(t.line .db7).lvl, (t.line .db6).lvl, (t.line .db5).lvl, (t.line .db4).lvl], t.reg)) =
      some (122000000, [.low, .low, .low, .high], some 1) := by decide

/-- L3-2 and L3-4: the close ends successfully; an unload after it does not. -/
theorem test_successfulEnd :
    field (exec (.evClose 0#8) open0) State.successfulEnd = some true ∧
      field (exec .evUnload { closed0 with sess := [] }) State.successfulEnd = some false := by decide

/-- 43_session_lifecycle.md R155: the clear word is sent, and then every line is freed. -/
theorem test_evUnload :
    field (exec .evUnload up)
        (fun t => ((t.latches.map Latch.nibble) == wordNibbles .low .low 0x01#8, t.edges.drop 19, t.loaded)) =
      some (true, [.free .rs, .free .rw, .free .db4, .free .db5, .free .db6, .free .db7, .free .e], .unloaded) := by
  decide

/-- V-EV-2. -/
theorem test_evOpen :
    field (exec (.evOpen 0#8) up) (fun t => (t.sess, t.trace == up.trace, t.lockOwner)) = some ([0], true, none) := by
  decide

/-- V-EV-3: `ev_open 0` before any load. -/
theorem test_evOpen_unloaded :
    field (exec (.evOpen 0#8) base) (fun t => (t.refused, t.refusals)) = some (true, [.hostDuty .evOpen]) := by decide

/-- 43_session_lifecycle.md R160: under refcount, with another session open, the branch leads to the UNLOCK at once. -/
theorem test_evClose_refcount :
    ((agentTurn 0)^[2] (after (begin (.evClose 0#8)
      { open0 with sess := [0, 1], params := { tc with closePolicy := .refcount } }))).pcOf 0 =
      some { op := .evClose, k := 2 } ∧
    field (exec (.evClose 0#8) { open0 with sess := [0, 1], params := { tc with closePolicy := .refcount } })
      (fun t => (t.edges.drop 14, t.lockOwner, t.sess)) = some ([], none, [1]) := by decide

/-- V-EV-4: the first of two closes frees every line. -/
theorem test_evClose_first :
    field (exec (.evClose 0#8) { open0 with sess := [0, 1] }) (fun t => (t.edges.drop 14, t.linesAcquired, t.sess)) =
      some ([.free .rs, .free .rw, .free .db4, .free .db5, .free .db6, .free .db7, .free .e], false, [1]) := by decide

/-- V-EV-4: the second close faults at RS and keeps the guard. -/
theorem test_evClose_second :
    field (exec (.evClose 0#8) closed0) (fun t => (t.faults.map FaultEntry.code, t.lockOwner, t.trace.length)) =
      some ([.releaseUnowned], some 0, 0) := by decide

/-- V-EV-1: while another agent holds the guard. -/
theorem test_evControl :
    field (exec (.evControl 9#8) { open0 with lockOwner := some 5 })
        (fun t => (t.results.map Returned.result, t.trace == open0.trace, t.now)) =
      some ([.ok, .err .invalidArgument], true, 0) := by decide

/-- V-EV-8. -/
theorem test_evLoad_registration_fails :
    field (exec .evLoad { base with registrations := { given := [some 1, none], drawn := 0 } })
        (fun t => (t.faults.map FaultEntry.code, t.linesAcquired, t.initDone, t.reg)) =
      some ([.registrationFailed], true, true, none) := by decide

/-- V-DEC-20, 30_encoding.md R84. -/
theorem test_reserved0 : field (exec (.reserved0 0#12) base) State.refusals = some [.reserved .op] := by decide

theorem test_reservedF : field (exec (.reservedF 0xFFF#12) base) State.refusals = some [.reserved .op] := by decide

/-- V-SET-9: a reserved word is refused and has no step. -/
theorem test_step_refuses_reserved :
    field (step (turning .whole (pending 0x3701#16 base))) (fun t => (t.refusals, t.now, t.requests)) =
      some ([.reserved .sig7], 0, []) := by decide

/-! ### Witnesses: the hypotheses of each statement can be met together -/

theorem accepting_replicate (s : State) (n : Nat) : (answering (List.replicate n true) s).Accepting n := by
  intro k hk
  have gen : ∀ (n k d : Nat), k < n →
      ({ given := List.replicate n true, drawn := d } : Stream Bool).nth Config.freeAnswer k = true := by
    intro n
    induction n with
    | zero => intro k d h; omega
    | succ n ih =>
      intro k d h
      cases k with
      | zero => rfl
      | succ k => exact ih k d (by omega)
  exact gen n k 0 hk

theorem accepting_base (s : State) (h : s.answers = base.answers) {n : Nat} (hn : n ≤ 200) : s.Accepting n := by
  intro k hk
  have := accepting_replicate base 200 k (by omega)
  rw [h]
  exact this

theorem driven_acquired (g : Sig) : (acquired.line g).presents = true := by cases g <;> decide

theorem traced_acquired : acquired.TraceAccounts := by
  constructor <;> intro g <;> cases g <;> decide

theorem accepting_acquired {n : Nat} (hn : n ≤ 200) : acquired.Accepting n :=
  accepting_base acquired (by decide) hn

theorem claimable_base (mask : BitVec 7) : base.Claimable mask := by
  intro g _
  cases g <;> decide

theorem consistent_base : base.LinesConsistent := by
  intro g
  cases g <;> decide

/-- Bit 7 is must-be-zero in format M. -/
theorem test_meets_MustBeZeroBitsAreReserved :
    (0x1080#16).extractLsb' 12 4 = Op.acquire.code ∧ 0x1080#16 &&& Op.acquire.rowMask ≠ Op.acquire.rowMatch := by decide

theorem test_meets_EncodeDecodeGivesWordBack : decode 0x3601#16 = .instr (.setlevel .db7 true) := by decide

/-- A word with a must-be-zero bit, and a word of a reserved row. -/
theorem test_meets_ReservedRequestsAreRefused :
    ((turning .whole (pending 0x1080#16 base)).turn = .whole ∧
      (turning .whole (pending 0x1080#16 base)).afterTurn.nextRequest = some { agent := 0, word := 0x1080#16, arg := 0 } ∧
      decode 0x1080#16 = .reserved .mbz) ∧
    ((turning .begin (pending 0xF001#16 base)).turn = .begin ∧
      (turning .begin (pending 0xF001#16 base)).afterTurn.nextRequest = some { agent := 0, word := 0xF001#16, arg := 0 } ∧
      decode 0xF001#16 = .instr (.reservedF 1#12) ∧ (Instr.reservedF 1#12).wellFormed = false) := by decide

/-- Both turns for the next request. -/
theorem test_meets_StepRunsDecodedInstruction :
    (turning .whole (pending 0x7000#16 base)).afterTurn.nextRequest = some { agent := 0, word := 0x7000#16, arg := 0 } ∧
      decode 0x7000#16 = .instr .lock ∧ (turning .whole (pending 0x7000#16 base)).turn = .whole ∧
      (turning .begin (pending 0x7000#16 base)).turn = .begin ∧
      (turning .begin (pending 0x7000#16 base)).afterTurn.nextRequest = some { agent := 0, word := 0x7000#16, arg := 0 } := by
  decide

/-- For an idle agent, and for one that is not. -/
theorem test_meets_PlacedWordRunsNext :
    decodeTableWord 16 0x7000 = some .lock ∧ base.idle base.self = true ∧
      (after (exec .lock contended)).idle (after (exec .lock contended)).self = false := by decide

theorem test_meets_WholeRunIsItsMicroSteps : base.Ready ∧ exec (.acquire 0x0C#7) base = .next (after (exec (.acquire 0x0C#7) base)) :=
  ⟨rfl, rfl⟩

/-- The agent's own turn, and one of another, while it is in the middle of a TRANSMIT. -/
theorem test_meets_PositionAdvancesByOne :
    mapWf (turning (.agent 0) (after (begin (.transmit 0xA5#8) sending))).agents ∧
      (∃ task, (turning (.agent 0) (after (begin (.transmit 0xA5#8) sending))).agentState 0 = some (.running task)) ∧
      (∃ t, step (turning (.agent 0) (after (begin (.transmit 0xA5#8) sending))) = .next t) ∧
      ∃ t, step (turning (.agent 1) (after (begin (.transmit 0xA5#8) sending))) = .next t :=
  ⟨by decide, ⟨_, rfl⟩, ⟨_, rfl⟩, ⟨_, rfl⟩⟩

/-- An agent quiescent after V-LK-5. -/
theorem test_meets_FaultedAgentTakesNoStep :
    (after (exec .unlock base)).agentState 0 = some (.faulted { op := .unlock, k := 0 }) ∧
      (turning (.agent 0) (after (exec .unlock base))).turn = .agent 0 ∧
      (turning .begin (pending 0x8000#16 (after (exec .unlock base)))).requests = [{ agent := 0, word := 0x8000#16, arg := 0 }] := by
  decide

/-- A line the block does not own, and one it owns. -/
theorem test_meets_ForeignOwnersChangeOnlyUnownedLines :
    setWf base.foreign ∧ (turning (.foreign 23 true) base).turn = .foreign 23 true ∧ base.ownsLine 23 = false ∧
      acquired.ownsLine 23 = true ∧ setWf acquired.foreign := by decide

theorem test_meets_AcquireClaimsAndDrivesLow : base.params.wf = true ∧ base.Ready ∧ base.Claimable 0x7F#7 :=
  ⟨by decide, rfl, claimable_base _⟩

/-- Line 23, of DB5, is held by another component; and E is already the block's. -/
theorem test_meets_FailedAcquireHoldsNothing :
    ({ base with foreign := [23] }.params.wf = true ∧ { base with foreign := [23] }.Ready ∧
      { base with foreign := [23] }.LinesConsistent ∧ ¬ { base with foreign := [23] }.Claimable 0x7F#7) ∧
    (acquired.params.wf = true ∧ acquired.Ready ∧ acquired.LinesConsistent ∧ ¬ acquired.Claimable 0x04#7) := by
  refine ⟨⟨by decide, rfl, consistent_base, fun h => ?_⟩, by decide, by show acquired.agentState acquired.self = none; decide, ?_, fun h => ?_⟩
  · exact (h .db5 (by decide)).1 (by decide)
  · intro g; cases g <;> decide
  · exact absurd (h .e (by decide)).2 (by decide)

theorem test_meets_ReleaseFreesOwnedLines :
    sending.params.wf = true ∧ sending.Ready ∧ sending.Guarded ∧
      ∀ g, selects 0x7F#7 g = true → (sending.line g).own = true := by
  refine ⟨by decide, by show sending.agentState sending.self = none; decide, by show sending.lockOwner = some sending.self; decide, fun g _ => ?_⟩
  cases g <;> decide

/-- V-REL-4: E is not owned any more, the six lines before it are. -/
theorem test_meets_ReleaseOfUnownedLineFaults :
    (after (exec (.release 0x04#7) sending)).params.wf = true ∧ (after (exec (.release 0x04#7) sending)).Ready ∧
      (after (exec (.release 0x04#7) sending)).Guarded ∧
      (after (exec (.release 0x04#7) sending)).params.releaseUnowned = .fault ∧
      chosen (after (exec (.release 0x04#7) sending)).params 0x7F#7 = [.rs, .rw, .db4, .db5, .db6, .db7] ++ .e :: [] ∧
      (∀ h ∈ [Sig.rs, .rw, .db4, .db5, .db6, .db7], ((after (exec (.release 0x04#7) sending)).line h).own = true) ∧
      ((after (exec (.release 0x04#7) sending)).line .e).own = false := by
  refine ⟨by decide, ?_, ?_, by decide, by decide, by decide, by decide⟩
  · show (after (exec (.release 0x04#7) sending)).agentState (after (exec (.release 0x04#7) sending)).self = none
    decide
  · show (after (exec (.release 0x04#7) sending)).lockOwner = some (after (exec (.release 0x04#7) sending)).self
    decide

theorem test_meets_ReleaseOfUnownedLineSkips :
    { guarding with params := { tc with releaseUnowned := .noop } }.params.wf = true ∧
      { guarding with params := { tc with releaseUnowned := .noop } }.Ready ∧
      { guarding with params := { tc with releaseUnowned := .noop } }.Guarded ∧
      { guarding with params := { tc with releaseUnowned := .noop } }.params.releaseUnowned = .noop :=
  ⟨by decide, rfl, rfl, rfl⟩

theorem test_meets_LineGroupFrame :
    (∃ t, exec (.acquire 0x04#7) base = .next t) ∧ (∃ t, exec (.release 0x04#7) sending = .next t) ∧
      selects 0x04#7 .rs = false :=
  ⟨⟨_, rfl⟩, ⟨_, rfl⟩, by decide⟩

/-- An accepted write and a rejected one. -/
theorem test_meets_SetlevelWritesOneLevel :
    (sending.Ready ∧ sending.Guarded ∧ (sending.line .rs).presents = true) ∧
      sending.answers.head Config.freeAnswer = true ∧ (answering [false] sending).answers.head Config.freeAnswer = false := by
  refine ⟨⟨?_, ?_, driven_acquired _⟩, by decide, by decide⟩
  · show sending.agentState sending.self = none
    decide
  · show sending.lockOwner = some sending.self
    decide

theorem test_meets_SetlevelOnUnownedLineFaults :
    guarding.Ready ∧ guarding.Guarded ∧ (guarding.line .rs).own = false :=
  ⟨rfl, rfl, by decide⟩

theorem ready_sending : sending.Ready := by
  show sending.agentState sending.self = none
  decide

theorem guarded_sending : sending.Guarded := by
  show sending.lockOwner = some sending.self
  decide

theorem test_meets_TransmitLatchesHighThenLow :
    sending.Ready ∧ sending.Guarded ∧ sending.linesAcquired = true ∧
      (∀ g ∈ [Sig.e, .db7, .db6, .db5, .db4], (sending.line g).presents = true) ∧ sending.TraceAccounts ∧
      (sending.line .e).lvl = .low ∧ sending.Accepting 12 :=
  ⟨ready_sending, guarded_sending, rfl, fun g _ => driven_acquired g, traced_acquired, by decide,
    accepting_acquired (by omega)⟩

theorem test_meets_TransmitEndsWithLowNibble :
    sending.Ready ∧ sending.Guarded ∧ sending.linesAcquired = true ∧
      (∀ g ∈ [Sig.e, .db7, .db6, .db5, .db4], (sending.line g).presents = true) ∧ sending.Accepting 12 :=
  ⟨ready_sending, guarded_sending, rfl, fun g _ => driven_acquired g, accepting_acquired (by omega)⟩

theorem test_meets_TransmitPulsesKeepTheFloor :
    sending.Ready ∧ sending.Guarded ∧ sending.linesAcquired = true ∧
      (∀ g ∈ [Sig.e, .db7, .db6, .db5, .db4], (sending.line g).presents = true) ∧ sending.TraceAccounts ∧
      (sending.line .e).lvl = .low ∧ sending.Accepting 12 :=
  test_meets_TransmitLatchesHighThenLow

theorem test_meets_TransmitCompletesWhateverTheAnswers :
    sending.Ready ∧ sending.Guarded ∧ sending.linesAcquired = true :=
  ⟨ready_sending, guarded_sending, rfl⟩

theorem test_meets_LevelWriteFrame :
    (∃ t, exec (.setlevel .rs true) sending = .next t) ∧ ∃ t, exec (.transmit 0xA5#8) sending = .next t :=
  ⟨⟨_, rfl⟩, ⟨_, rfl⟩⟩

theorem test_meets_DelaysOnlyAdvanceTime : base.Ready := rfl

theorem test_meets_LockTakesFreeGuard : base.Ready ∧ base.lockOwner = none := ⟨rfl, rfl⟩

/-- The guard is held by another agent, and by the agent itself; and an agent that stands stuck in either case. -/
theorem test_meets_LockOfHeldGuardWaits :
    ((contended.Ready ∧ contended.lockOwner = some 5) ∧ guarding.Ready ∧ guarding.lockOwner = some guarding.self) ∧
      (mapWf (after (exec .lock contended)).agents ∧ (after (exec .lock contended)).stuck 0 = true) ∧
      mapWf (after (exec .lock guarding)).agents ∧ (after (exec .lock guarding)).stuck 0 = true :=
  ⟨⟨⟨rfl, rfl⟩, rfl, rfl⟩, ⟨by decide, by decide⟩, by decide, by decide⟩

/-- Agent 0 is stuck at its second LOCK and nothing else goes on. -/
def Deadlocked (s : State) : Prop :=
  s.agents = [(0, .running { req := .lock, result := none, loc := Locals.start, rest := lockSteps })] ∧
    s.lockOwner = some 0 ∧ s.requests = []

theorem deadlocked_step {s : State} (h : Deadlocked s) : ∃ t, step s = .next t ∧ Deadlocked t := by
  obtain ⟨ag, lo, rq⟩ := h
  have wait : Deadlocked s.afterTurn := ⟨ag, lo, rq⟩
  have none' : s.afterTurn.nextRequest = none := by simp [State.nextRequest, rq]
  unfold step
  cases s.turn with
  | whole => exact ⟨_, by simp only [takeTurn, requestTurn, none'], wait⟩
  | begin => exact ⟨_, by simp only [takeTurn, requestTurn, none'], wait⟩
  | agent a =>
    refine ⟨_, rfl, ?_⟩
    by_cases e : a = 0
    · subst e
      have at0 : s.afterTurn.agentState 0 =
          some (.running { req := .lock, result := none, loc := Locals.start, rest := lockSteps }) := by
        simp [State.agentState, ag, mapGet]
      have held : s.afterTurn.lockOwner = some 0 := lo
      simp only [agentTurn, at0, advance, lockSteps, checked, numbered, List.map_nil, List.nil_append, advanceWith, perform,
        performLock, held]
      exact ⟨by simp [State.park, ag, mapPut, lockSteps, checked, numbered], lo, rq⟩
    · have idle : s.afterTurn.agentState a = none := by simp [State.agentState, ag, mapGet, e]
      simp only [agentTurn, idle]
      exact wait
  | foreign n held =>
    refine ⟨_, rfl, ?_⟩
    unfold foreignTurn
    split <;> exact wait

/-- The endless run from a deadlock. -/
def deadlock (n : Nat) : State := (fun s => after (step s))^[n] (after (exec .lock guarding))

theorem deadlock_deadlocked (n : Nat) : Deadlocked (deadlock n) := by
  induction n with
  | zero => exact ⟨by decide, by decide, by decide⟩
  | succ n ih =>
    obtain ⟨t, ht, dt⟩ := deadlocked_step ih
    rw [deadlock, Function.iterate_succ_apply', ← deadlock, ht]
    exact dt

/-- The run in which agent 0 waits for its own guard is fair, and the agent stands at its LOCK for ever. -/
theorem test_meets_FairRunsStarveNoLock :
    IsRun deadlock ∧ WeaklyFair deadlock ∧ ∀ m, 0 ≤ m → (deadlock m).atLock 0 = true := by
  refine ⟨fun n => ?_, fun a often => ?_, fun m _ => ?_⟩
  · obtain ⟨t, ht, -⟩ := deadlocked_step (deadlock_deadlocked n)
    rw [show deadlock (n + 1) = after (step (deadlock n)) from Function.iterate_succ_apply' _ _ _, ht]
    rfl
  · obtain ⟨m, -, hm⟩ := often 0
    simp [State.lockEnabled, (deadlock_deadlocked m).2.1] at hm
  · simp [State.atLock, State.agentState, (deadlock_deadlocked m).1, mapGet, lockSteps, checked, numbered]

/-- The holder, and an agent that does not hold it. -/
theorem test_meets_UnlockFreesOnlyOnesOwnGuard :
    (guarding.Ready ∧ guarding.Guarded) ∧ contended.Ready ∧ ¬ contended.Guarded :=
  ⟨⟨rfl, rfl⟩, rfl, by show ¬ contended.lockOwner = some contended.self; decide⟩

theorem test_meets_UnguardedOperationsFault : base.Ready ∧ ¬ base.Guarded :=
  ⟨rfl, by show ¬ base.lockOwner = some base.self; decide⟩

theorem test_meets_InitRunSendsTheFixedSequence :
    sending.Ready ∧ sending.Guarded ∧ sending.initDone = false ∧ sending.linesAcquired = true ∧ sending.AllDriven ∧
      sending.TraceAccounts ∧ (sending.line .rs).lvl = .low ∧ (sending.line .e).lvl = .low ∧ sending.Accepting 122 :=
  ⟨ready_sending, guarded_sending, by decide, rfl, driven_acquired, traced_acquired, by decide, by decide,
    accepting_acquired (by omega)⟩

theorem test_meets_InitRunEndsInCommandMode :
    sending.Ready ∧ sending.Guarded ∧ sending.initDone = false ∧ sending.linesAcquired = true ∧ sending.AllDriven ∧
      sending.Accepting 122 :=
  ⟨ready_sending, guarded_sending, by decide, rfl, driven_acquired, accepting_acquired (by omega)⟩

/-- The premises of the whole and those of its clause about the waits. -/
theorem test_meets_InitRunIsBestEffort :
    (sending.Ready ∧ sending.Guarded ∧ sending.initDone = false ∧ sending.linesAcquired = true ∧
      (sending.line .rs).presents = true) ∧
      sending.AllDriven ∧ sending.TraceAccounts ∧ (sending.line .rs).lvl = .low ∧ (sending.line .e).lvl = .low ∧
        sending.Accepting 122 :=
  ⟨⟨ready_sending, guarded_sending, by decide, rfl, driven_acquired _⟩, driven_acquired, traced_acquired, by decide,
    by decide, accepting_acquired (by omega)⟩

/-- The lines not held, and INIT_RUN already run. -/
theorem test_meets_UnownedTransmitAndSecondInitFault :
    (guarding.Ready ∧ guarding.Guarded ∧ guarding.linesAcquired = false) ∧
      ({ guarding with initDone := true }.Ready ∧ { guarding with initDone := true }.Guarded) :=
  ⟨⟨rfl, rfl, rfl⟩, rfl, rfl⟩

theorem test_meets_InitRunFrame : ∃ t, exec .initRun guarding = .next t := ⟨_, rfl⟩

/-- Each duty broken, every way there is. -/
theorem test_meets_HostDutiesAreRefused :
    up.loaded = .loaded ∧ base.loaded = .unloaded ∧ open0.sess ≠ [] ∧ (0#8 : Byte).toNat ∈ open0.sess ∧
      (1#8 : Byte).toNat ∉ open0.sess := by decide

theorem registering_base : base.Registering := by
  show ∀ k, k < 3 → (base.registrations.nth Config.freeRegistration k).isSome = true
  decide

theorem test_meets_LoadBringsTheBlockUp :
    base.params.wf = true ∧ base.Ready ∧ base.loaded = .unloaded ∧ base.initDone = false ∧ base.lockOwner = none ∧
      base.Claimable allSignals ∧ base.Registering :=
  ⟨by decide, rfl, rfl, rfl, rfl, claimable_base _, registering_base⟩

theorem test_meets_LoadLeavesCommandModeLevels :
    base.params.wf = true ∧ base.Ready ∧ base.loaded = .unloaded ∧ base.initDone = false ∧ base.lockOwner = none ∧
      base.Claimable allSignals ∧ base.Registering ∧ base.Accepting 122 :=
  ⟨by decide, rfl, rfl, rfl, rfl, claimable_base _, registering_base, accepting_base base rfl (by omega)⟩

/-- Line 18 is held by another component; and every line is the block's, as a failed registration leaves them. -/
theorem test_meets_FailedLoadLeavesNothing :
    ({ base with foreign := [18] }.params.wf = true ∧ { base with foreign := [18] }.Ready ∧
      { base with foreign := [18] }.loaded = .unloaded ∧ { base with foreign := [18] }.LinesConsistent ∧
      ¬ { base with foreign := [18] }.Claimable allSignals) ∧
    (acquired.params.wf = true ∧ acquired.Ready ∧ acquired.loaded = .unloaded ∧ acquired.LinesConsistent ∧
      ¬ acquired.Claimable allSignals) := by
  refine ⟨⟨by decide, rfl, rfl, consistent_base, fun h => ?_⟩, by decide, ?_, by decide, fun g => ?_, fun h => ?_⟩
  · exact (h .e (by decide)).1 (by decide)
  · show acquired.agentState acquired.self = none
    decide
  · cases g <;> decide
  · exact absurd (h .e (by decide)).2 (by decide)

/-- The first call fails, and the last. -/
theorem test_meets_FailedRegistrationFaults :
    (base.params.wf = true ∧ base.Ready ∧ base.loaded = .unloaded ∧ base.initDone = false ∧ base.lockOwner = none ∧
      base.Claimable allSignals) ∧
    ({ given := [none], drawn := 0 } : Stream (Option Nat)).nth Config.freeRegistration 0 = none ∧
    (∀ j, j < 2 → (({ given := [some 1, some 2, none], drawn := 0 } : Stream (Option Nat)).nth
      Config.freeRegistration j).isSome = true) ∧
    ({ given := [some 1, some 2, none], drawn := 0 } : Stream (Option Nat)).nth Config.freeRegistration 2 = none :=
  ⟨⟨by decide, rfl, rfl, rfl, rfl, claimable_base _⟩, by decide, by decide, by decide⟩

theorem ready_up : up.Ready := by
  show up.agentState up.self = none
  decide

theorem owned_up (g : Sig) : (up.line g).own = true := by cases g <;> decide

/-- With what its clause about the clear word needs besides. -/
theorem test_meets_UnloadReturnsToReset :
    (up.params.wf = true ∧ up.Ready ∧ up.loaded = .loaded ∧ up.sess = [] ∧ up.lockOwner = none ∧
      up.linesAcquired = true ∧ ∀ g, (up.line g).own = true) ∧
    up.AllDriven ∧ up.TraceAccounts ∧ (up.line .e).lvl = .low ∧ up.Accepting 12 :=
  ⟨⟨by decide, ready_up, rfl, by decide, by decide, rfl, owned_up⟩, driven_acquired, traced_acquired, by decide,
    accepting_acquired (by omega)⟩

theorem test_meets_UnloadAfterCloseFaults :
    { closed0 with sess := [] }.Ready ∧ { closed0 with sess := [] }.loaded = .loaded ∧
      { closed0 with sess := [] }.sess = [] ∧ { closed0 with sess := [] }.lockOwner = none ∧
      { closed0 with sess := [] }.linesAcquired = false :=
  ⟨rfl, rfl, rfl, rfl, rfl⟩

/-- Both clauses: the last identifier of the default MAX_SESSIONS, and the first outside a smaller one. -/
theorem test_meets_OpenTouchesOnlyTheSession :
    (open0.Ready ∧ open0.loaded = .loaded ∧ (255#8 : Byte).toNat ∉ open0.sess ∧
      (255#8 : Byte).toNat < open0.params.maxSessions) ∧
      { open0 with params := { tc with maxSessions := 4 } }.Ready ∧ (4#8 : Byte).toNat ∉ open0.sess ∧
        { open0 with params := { tc with maxSessions := 4 } }.params.maxSessions ≤ (4#8 : Byte).toNat :=
  ⟨⟨ready_up, rfl, by decide, by decide⟩, ready_up, by decide, by decide⟩

/-- The reference policy, and refcount at the last open session. -/
theorem test_meets_CloseReleasesTheLines :
    (open0.params.wf = true ∧ open0.Ready ∧ open0.loaded = .loaded ∧ (0#8 : Byte).toNat ∈ open0.sess ∧
      open0.lockOwner = none ∧ (∀ g, (open0.line g).own = true) ∧ open0.params.closePolicy = .reference) ∧
    ({ open0 with params := { tc with closePolicy := .refcount } }.params.wf = true ∧
      { open0 with params := { tc with closePolicy := .refcount } }.openCount = 1) :=
  ⟨⟨by decide, ready_up, rfl, by decide, by decide, owned_up, by decide⟩, by decide, by decide⟩

/-- Refcount with another session open, and shutdown_only. -/
theorem test_meets_CloseMayKeepTheLines :
    ({ open0 with sess := [0, 1], params := { tc with closePolicy := .refcount } }.Ready ∧
      (0#8 : Byte).toNat ∈ [0, 1] ∧
      { open0 with sess := [0, 1], params := { tc with closePolicy := .refcount } }.openCount ≠ 1 ∧
      open0.lockOwner = none) ∧
    { open0 with params := { tc with closePolicy := .shutdownOnly } }.params.closePolicy = .shutdownOnly :=
  ⟨⟨ready_up, by decide, by decide, by decide⟩, rfl⟩

/-- Both policies, and both settings of RELEASE_UNOWNED. -/
theorem test_meets_SecondCloseReleasesUnowned :
    (closed0.params.wf = true ∧ closed0.Ready ∧ closed0.loaded = .loaded ∧ (0#8 : Byte).toNat ∈ closed0.sess ∧
      closed0.lockOwner = none ∧ closed0.NoneOwned ∧ closed0.params.closePolicy = .reference ∧
      closed0.params.releaseUnowned = .fault) ∧
      ({ tc with closePolicy := .refcount }.wf = true ∧
        { closed0 with params := { tc with closePolicy := .refcount } }.openCount = 1 ∧
        { closed0 with params := { tc with closePolicy := .refcount } }.NoneOwned) ∧
      { tc with releaseUnowned := .noop }.wf = true := by
  refine ⟨⟨by decide, rfl, rfl, by decide, rfl, fun g => ?_, rfl, rfl⟩, ⟨by decide, rfl, fun g => ?_⟩, by decide⟩ <;>
    cases g <;> decide

theorem test_meets_ControlReturnsInvalidArgument : open0.Ready ∧ open0.loaded = .loaded := ⟨ready_up, rfl⟩

theorem test_meets_ControlArgumentIsNeverRead :
    (turning .whole (pending 0xE007#16 up)).requests = [{ agent := 0, word := 0xE007#16, arg := 0 }] ∧
      (turning .whole (pending 0xE007#16 up)).idle 0 = true ∧ (turning .whole (pending 0xE007#16 up)).turn = .whole := by
  decide

theorem test_meets_HostEventFrame :
    (∃ t, exec .evLoad base = .next t) ∧ (∃ t, exec .evUnload up = .next t) ∧
      (∃ t, exec (.evClose 0#8) open0 = .next t) ∧ setWf open0.sess := by
  refine ⟨?_, ?_, ?_, by decide⟩
  · rw [exec_eq_runAdmitted]
    exact ⟨_, runAdmitted_ready (s := base) rfl⟩
  · rw [exec_eq_runAdmitted]
    exact ⟨_, runAdmitted_ready ready_up⟩
  · rw [exec_eq_runAdmitted]
    exact ⟨_, runAdmitted_ready (s := open0) ready_up⟩

/-- With no line held, and with all seven. -/
theorem test_meets_HostEventsKeepTheGroup :
    (base.params.wf = true ∧ base.LinesConsistent ∧ base.GroupHeld) ∧
      up.params.wf = true ∧ up.LinesConsistent ∧ up.GroupHeld := by
  refine ⟨⟨by decide, consistent_base, .inr fun g => ?_, fun h => ?_⟩, by decide, fun g => ?_, .inl driven_acquired,
    fun _ => driven_acquired⟩
  · cases g <;> decide
  · exact absurd h (by decide)
  · cases g <;> decide

theorem test_meets_HostEventsNeverRaiseRW :
    (up.line .rw).lvl ≠ .high ∧ ∃ t, exec .evUnload up = .next t := by
  refine ⟨by decide, ?_⟩
  rw [exec_eq_runAdmitted]
  exact ⟨_, runAdmitted_ready ready_up⟩

/-- A state at which every invariant holds and a request is about to run. -/
def poised : State := turning .whole (pending 0x100C#16 base)

theorem step_poised : step poised = .next (after (step poised)) := rfl

theorem test_meets_LinesStayConsistent : poised.LinesConsistent ∧ step poised = .next (after (step poised)) :=
  ⟨consistent_base, step_poised⟩

theorem test_meets_TraceStaysAnAccountOfThePins : poised.TraceAccounts ∧ step poised = .next (after (step poised)) := by
  refine ⟨?_, step_poised⟩
  constructor <;> intro g <;> cases g <;> decide

theorem test_meets_EventTimesStayOrdered : poised.TimesOrdered ∧ step poised = .next (after (step poised)) :=
  ⟨⟨List.Pairwise.nil, by simp [poised, turning, pending, base, State.reset]⟩, step_poised⟩

/-- With an agent at its LOCK. -/
theorem test_meets_GuardDisciplineIsKept :
    (turning (.agent 0) (after (exec .lock contended))).GuardDiscipline ∧
      ∃ t, step (turning (.agent 0) (after (exec .lock contended))) = .next t := by
  refine ⟨⟨by decide, ?_⟩, _, rfl⟩
  intro a t h
  have e : (turning (.agent 0) (after (exec .lock contended))).agents =
      [(0, .running { req := .lock, result := none, loc := Locals.start, rest := lockSteps })] := by decide
  rw [e] at h
  simp only [List.mem_singleton, Prod.mk.injEq, AgentState.running.injEq] at h
  obtain ⟨-, rfl⟩ := h
  rfl

theorem test_meets_CanonicalFormIsKept : poised.Canonical ∧ step poised = .next (after (step poised)) := by
  refine ⟨⟨by decide, by decide, by decide, by decide, ?_⟩, step_poised⟩
  intro a t h
  exact absurd h (by simp [poised, turning, pending, base, State.reset])

theorem test_meets_StickyFieldsOnlyGrow : step poised = .next (after (step poised)) := step_poised

end Sys2Proof.Tests
end

/-! What the expansions are made of: a property of every line of a request's expansion, from the actions it lists
(10_state.md R35). -/

namespace Sys2Proof.Machine

/-- Every line of the expansion performs an action with the property. -/
def AllActs (q : Act → Bool) (ms : List MicroStep) : Prop := ∀ m ∈ ms, q m.act = true

section
variable {q : Act → Bool}

theorem AllActs.tail {m : MicroStep} {ms : List MicroStep} (h : AllActs q (m :: ms)) : AllActs q ms :=
  fun n hn => h n (List.mem_cons_of_mem _ hn)

theorem AllActs.not_of_head {m : MicroStep} {ms : List MicroStep} (h : q m.act = false) : ¬ AllActs q (m :: ms) :=
  fun all => by simpa [h] using all m List.mem_cons_self

@[simp] theorem allActs_nil : AllActs q [] := fun _ hm => nomatch hm

@[simp] theorem allActs_append (xs ys : List MicroStep) : AllActs q (xs ++ ys) ↔ AllActs q xs ∧ AllActs q ys :=
  List.forall_mem_append

@[simp] theorem allActs_numbered (op : Op) (k : Nat) (acts : List Act) :
    AllActs q (numbered op k acts) ↔ ∀ x ∈ acts, q x = true := by
  induction acts generalizing k with
  | nil => simp [numbered]
  | cons x xs ih =>
    rw [List.forall_mem_cons, ← ih (k + 1)]
    exact List.forall_mem_cons

@[simp] theorem allActs_checked (op : Op) (checks : List Check) (acts : List Act) :
    AllActs q (checked op checks acts) ↔ (∀ c ∈ checks, q (.require c) = true) ∧ ∀ x ∈ acts, q x = true := by
  rw [checked, allActs_append, allActs_numbered]
  exact and_congr_left fun _ => List.forall_mem_map

@[simp] theorem allActs_eventLines (acts : List Act) : AllActs q (eventLines acts) ↔ ∀ x ∈ acts, q x = true :=
  List.forall_mem_map

@[simp] theorem allActs_lockSteps : AllActs q lockSteps ↔ q .lock = true := by simp [lockSteps]

@[simp] theorem allActs_unlockSteps : AllActs q unlockSteps ↔ q .unlock = true := by simp [unlockSteps]

@[simp] theorem allActs_closeTail (sid : Nat) :
    AllActs q (closeTail sid) ↔ q .unlock = true ∧ q (.sessClose sid) = true := by
  rw [closeTail, allActs_append, allActs_checked]
  simp [AllActs]

theorem allActs_rollback (giveBack : ∀ g, q (.giveBack g) = true) (got : List Sig) : AllActs q (rollback got) := by
  intro m hm
  obtain ⟨g, -, rfl⟩ := List.mem_map.mp hm
  exact giveBack g

theorem allActs_acquireSteps (request : ∀ g got, q (.request g got) = true) (claim : ∀ g, q (.claim g) = true)
    (direct : ∀ g, q (.direct g) = true) (p : Params) (mask : BitVec 7) : AllActs q (acquireSteps p mask) := by
  have requests : ∀ gs got, ∀ x ∈ requestActs got gs, q x = true := by
    intro gs
    induction gs with
    | nil => simp [requestActs]
    | cons g gs ih => simpa [requestActs, request, claim] using fun got => ih (got ++ [g])
  refine (allActs_numbered _ _ _).mpr (List.forall_mem_append.mpr ⟨requests (chosen p mask) [], ?_⟩)
  exact List.forall_mem_map.mpr fun g _ => direct g

theorem allActs_releaseSteps (require : q (.require .guarded) = true) (release : ∀ g, q (.release g) = true)
    (unclaim : ∀ g, q (.unclaim g) = true) (p : Params) (mask : BitVec 7) : AllActs q (releaseSteps p mask) := by
  refine (allActs_checked _ _ _).mpr ⟨by simp [require], fun x hx => ?_⟩
  obtain ⟨g, -, hg⟩ := List.mem_flatMap.mp hx
  simp only [List.mem_cons, List.not_mem_nil, or_false] at hg
  rcases hg with rfl | rfl
  · exact release g
  · exact unclaim g

section
variable (require : ∀ c, q (.require c) = true) (write : ∀ g v, q (.write g v) = true) (wait : ∀ n, q (.wait n) = true)
include require write

theorem allActs_setlevelSteps (g : Sig) (v : Bool) : AllActs q (setlevelSteps g v) := by
  simp [setlevelSteps, require, write]

include wait

theorem allActs_transmitSteps (p : Params) (w : Byte) : AllActs q (transmitSteps p w) := by
  simp [transmitSteps, transmitActs, nibbleWrites, pulseActs, require, write, wait]

theorem allActs_initRunSteps (beginInit : q .beginInit = true) (p : Params) : AllActs q (initRunSteps p) := by
  have waits : ∀ k n, AllActs q (initWait k n) := by simp [initWait, wait]
  have transmits : ∀ c, AllActs q (initTx p c) := fun c => allActs_transmitSteps require write wait p _
  have gaps : ∀ k, AllActs q (initGap p k) := by
    intro k
    unfold initGap
    split
    · exact allActs_nil
    · exact waits k _
  have commands : AllActs q (initCommands.flatMap fun c => initTx p c.2 ++ initGap p c.1) := by
    intro m hm
    obtain ⟨c, -, hm⟩ := List.mem_flatMap.mp hm
    exact ((allActs_append _ _).mpr ⟨transmits c.2, gaps c.1⟩) m hm
  simp only [initRunSteps, initSequence, allActs_append]
  simp [require, beginInit, waits, transmits, commands, allActs_setlevelSteps require write]

end

end

end Sys2Proof.Machine

/-! What performing one line of an expansion can do, said once: the states it may leave, by action, and what it may come
to for the agent. The invariants below are proved over these cases. -/

namespace Sys2Proof.Machine

/-! ### The states an action may leave -/

/-- One of the three calls of REGISTER (43_session_lifecycle.md R152). -/
def Act.registers : Act → Bool
  | .registerDevice => true
  | .createClass => true
  | .createNode => true
  | _ => false

/-- One of the three calls of UNREGISTER (43_session_lifecycle.md R157). -/
def Act.unregisters : Act → Bool
  | .destroyNode => true
  | .destroyClass => true
  | .unregister => true
  | _ => false

/-- The states in which performing an action may leave the machine, a fault's entry apart. -/
inductive Effect (s : State) : Act → State → Prop
  | stays (x : Act) : Effect s x s
  | beginInit : Effect s .beginInit { s with initDone := true }
  | denied (g : Sig) (got : List Sig) : Effect s (.request g got) ((s.tick 0).denied g)
  | granted (g : Sig) (got : List Sig) : Effect s (.request g got) ((s.tick 0).grant g)
  | claim (g : Sig) : Effect s (.claim g) ((s.tick 0).claim g)
  | direct (g : Sig) : Effect s (.direct g) ((s.tick 0).driveLow g)
  | giveBack (g : Sig) : Effect s (.giveBack g) ((s.tick 0).drop g)
  | release (g : Sig) : Effect s (.release g) ((s.tick 0).call (.releaseLine (s.pin g)))
  | unclaim (g : Sig) : Effect s (.unclaim g) ((s.tick 0).unclaim g)
  | write (g : Sig) (v : Bool) : Effect s (.write g v) ((s.tick 0).writeLevel g v)
  | wait (n : Nat) : Effect s (.wait n) (s.tick n)
  | lock (a : Nat) : Effect s .lock { s.tick 0 with lockOwner := some a }
  | unlock : Effect s .unlock { s.tick 0 with lockOwner := none }
  | setAcquired (b : Bool) : Effect s (.setAcquired b) { s.tick 0 with linesAcquired := b }
  | registered {x : Act} (call : x.registers = true) (c : HostCall) : Effect s x ((s.tick 0).askRegistration c)
  | unregistrable {x : Act} (call : x.registers = true) (c : HostCall) : Effect s x (s.askRegistration c)
  | setReg (h : Nat) : Effect s .setReg { s.tick 0 with reg := some h }
  | setLoaded : Effect s .setLoaded { s.tick 0 with loaded := .loaded }
  | unregister {x : Act} (call : x.unregisters = true) (c : HostCall) : Effect s x ((s.tick 0).call c)
  | clearLoad : Effect s .clearLoad { s.tick 0 with reg := none, loaded := .unloaded, initDone := false }
  | sessOpen (n : Nat) : Effect s (.sessOpen n) { s.tick 0 with sess := setInsert n s.sess }
  | sessClose (n : Nat) : Effect s (.sessClose n) { s.tick 0 with sess := setErase n s.sess }

/-- What performing an action comes to: one of its effects, no micro-step counted by the action itself; only a refused
request and the branch of EV_CLOSE replace what is left, and only a LOCK of a held guard blocks. -/
def Performed.HasEffect (x : Act) (l : Locals) (s : State) : Performed → Prop
  | .pass l' t => l'.k = l.k ∧ Effect s x t
  | .moved l' t => l'.k = l.k ∧ Effect s x t
  | .jump rest _ t => (∃ g got, x = .request g got ∧ rest = rollback got) ∧ Effect s x t
  | .branch rest t => (∃ sid, x = .ifLast sid ∧ rest = closeTail sid) ∧ Effect s x t
  | .blocked => x = .lock ∧ s.lockOwner.isSome = true
  | .fault _ t => Effect s x t

theorem perform_hasEffect (a : Nat) (m : MicroStep) (l : Locals) (s : State) :
    (perform a m l s).HasEffect m.act l s := by
  unfold perform
  cases m.act with
  | require c =>
    simp only
    split
    · exact ⟨rfl, .stays _⟩
    · exact .stays _
  | beginInit => exact ⟨rfl, .beginInit⟩
  | request g got =>
    simp only [performRequest]
    split
    · exact ⟨⟨g, got, rfl, rfl⟩, .denied g got⟩
    · exact ⟨rfl, .granted g got⟩
  | claim g => exact ⟨rfl, .claim g⟩
  | direct g => exact ⟨rfl, .direct g⟩
  | giveBack g => exact ⟨rfl, .giveBack g⟩
  | release g =>
    simp only [performRelease]
    split
    · exact ⟨rfl, .release g⟩
    · split
      · exact .stays _
      · exact ⟨rfl, .stays _⟩
  | unclaim g =>
    simp only [performUnclaim]
    split
    · exact ⟨rfl, .unclaim g⟩
    · exact ⟨rfl, .stays _⟩
  | write g v => exact ⟨rfl, .write g v⟩
  | wait n => exact ⟨rfl, .wait n⟩
  | lock =>
    simp only [performLock]
    split
    · exact ⟨rfl, .lock a⟩
    · next held => exact ⟨rfl, by rw [held]; rfl⟩
  | unlock =>
    simp only [performUnlock]
    split
    · exact ⟨rfl, .unlock⟩
    · exact .stays _
  | setAcquired b => exact ⟨rfl, .setAcquired b⟩
  | registerDevice =>
    simp only [performRegisterDevice]
    split
    · exact ⟨rfl, .registered rfl _⟩
    · exact .unregistrable rfl _
  | createClass =>
    simp only [performCreateClass]
    split
    · exact ⟨rfl, .registered rfl _⟩
    · exact .unregistrable rfl _
  | createNode =>
    simp only [performCreateNode]
    split
    · exact ⟨rfl, .registered rfl _⟩
    · exact .unregistrable rfl _
  | setReg => exact ⟨rfl, .setReg l.handle⟩
  | setLoaded => exact ⟨rfl, .setLoaded⟩
  | destroyNode | destroyClass | unregister => exact ⟨rfl, .unregister rfl _⟩
  | clearLoad => exact ⟨rfl, .clearLoad⟩
  | ifLast sid =>
    simp only
    split
    · exact ⟨rfl, .stays _⟩
    · exact ⟨⟨sid, rfl, rfl⟩, .stays _⟩
  | sessOpen n => exact ⟨rfl, .sessOpen n⟩
  | sessClose n => exact ⟨rfl, .sessClose n⟩

/-! ### Relations kept by performing an action -/

/-- Two relations that performing an action keeps give every relation they imply together. -/
theorem Performed.Keeps.combine {R₁ R₂ R : State → State → Prop} {ok : MicroStep → Prop} {s : State} {p : Performed}
    (imp : ∀ t, R₁ s t → R₂ s t → R s t) (h₁ : p.Keeps R₁ ok s) (h₂ : p.Keeps R₂ ok s) : p.Keeps R ok s := by
  cases p with
  | pass l t => exact imp t h₁ h₂
  | moved l t => exact imp t h₁ h₂
  | jump rest x t => exact ⟨imp t h₁.1 h₂.1, h₁.2⟩
  | branch rest t => exact ⟨imp t h₁.1 h₂.1, h₁.2⟩
  | blocked => trivial
  | fault c t => exact imp t h₁ h₂

theorem Performed.Keeps.mono {R R' : State → State → Prop} {ok : MicroStep → Prop} {s : State} {p : Performed}
    (imp : ∀ t, R s t → R' s t) (h : p.Keeps R ok s) : p.Keeps R' ok s :=
  h.combine (fun t r _ => imp t r) h

/-- A relation that every effect of the action is in is kept by performing it, where the lines of a rollback and of the
end of EV_CLOSE are as required. -/
theorem perform_keeps {R : State → State → Prop} {ok : MicroStep → Prop} {m : MicroStep} {s : State}
    (effect : ∀ t, Effect s m.act t → R s t) (jump : ∀ g got, m.act = .request g got → ∀ n ∈ rollback got, ok n)
    (branch : ∀ sid, m.act = .ifLast sid → ∀ n ∈ closeTail sid, ok n) (a : Nat) (l : Locals) :
    (perform a m l s).Keeps R ok s := by
  have has := perform_hasEffect a m l s
  cases e : perform a m l s <;> rw [e] at has
  case pass => exact effect _ has.2
  case moved => exact effect _ has.2
  case jump =>
    obtain ⟨⟨g, got, request, rfl⟩, out⟩ := has
    exact ⟨effect _ out, jump g got request⟩
  case branch =>
    obtain ⟨⟨sid, ifLast, rfl⟩, out⟩ := has
    exact ⟨effect _ out, branch sid ifLast⟩
  case blocked => trivial
  case fault => exact effect _ has

/-- The same with nothing required of the lines that replace what is left. -/
theorem perform_keeps_all {R : State → State → Prop} {s : State} (effect : ∀ x t, Effect s x t → R s t) (a : Nat)
    (m : MicroStep) (l : Locals) : (perform a m l s).Keeps R (fun _ => True) s :=
  perform_keeps (effect m.act) (fun _ _ _ _ _ => trivial) (fun _ _ _ _ => trivial) a l

theorem State.now_le_tick (n : Nat) (s : State) : s.now ≤ (s.tick n).now := by
  simp only [State.tick_now]; omega

end Sys2Proof.Machine

/-! Invariants of the pins: the lines, the trace and the clock. Whatever a step does to them it does by five operations
on a line and by letting time pass, so an invariant that these keep is kept by every step (10_state.md R26, R43). -/

namespace Sys2Proof.Machine

/-! ### One law for every invariant of the pins -/

/-- The invariant speaks of the lines, the trace and the clock alone, allows time to pass, and is kept by each of the
five operations on a line. -/
structure PinInvariant (I : State → Prop) : Prop where
  of_pins : ∀ {s t : State}, SamePins s t → s.now ≤ t.now → I s → I t
  grant : ∀ {s : State} (g : Sig), I s → I (s.grant g)
  claim : ∀ {s : State} (g : Sig), I s → I (s.claim g)
  driveLow : ∀ {s : State} (g : Sig), I s → I (s.driveLow g)
  unclaim : ∀ {s : State} (g : Sig), I s → I (s.unclaim g)
  writeLevel : ∀ {s : State} (g : Sig) (v : Bool), I s → I (s.writeLevel g v)

theorem SamePins.refl (s : State) : SamePins s s := ⟨rfl, rfl⟩

namespace PinInvariant

variable {I : State → Prop} (inv : PinInvariant I)
include inv

theorem of_same {s t : State} (pins : SamePins s t) (now : t.now = s.now) : I s → I t := inv.of_pins pins now.ge

theorem tick (n : Nat) {s : State} : I s → I (s.tick n) := inv.of_pins (SamePins.refl s) (State.now_le_tick n s)

/-- A state that differs from the ticked one in none of the pins. -/
theorem of_tick {s t : State} (pins : SamePins (s.tick 0) t) (now : t.now = (s.tick 0).now) (h : I s) : I t :=
  inv.of_same pins now (inv.tick 0 h)

theorem effect {x : Act} {s t : State} (h : Effect s x t) : I s → I t := by
  cases h with
  | stays => exact id
  | granted g => exact fun h => inv.grant g (inv.tick 0 h)
  | claim g => exact fun h => inv.claim g (inv.tick 0 h)
  | direct g => exact fun h => inv.driveLow g (inv.tick 0 h)
  | giveBack g => exact fun h => inv.unclaim g (inv.of_tick (s := s) ⟨rfl, rfl⟩ rfl h)
  | unclaim g => exact fun h => inv.unclaim g (inv.tick 0 h)
  | write g v => exact fun h => inv.writeLevel g v (inv.tick 0 h)
  | wait n => exact inv.tick n
  | beginInit | unregistrable => exact inv.of_same ⟨rfl, rfl⟩ rfl
  | denied | release | lock | unlock | setAcquired | registered | setReg | setLoaded | unregister | clearLoad | sessOpen
  | sessClose => exact inv.of_tick ⟨rfl, rfl⟩ rfl

/-- Every step keeps an invariant of the pins. -/
theorem step_keeps {s t : State} (h : step s = .next t) : I s → I t := by
  refine Machine.step_keeps (R := fun s t => I s → I t) (fun _ => id) (fun h k x => k (h x)) ?_ ?_ ?_ ?_
    (fun a m l s => perform_keeps_all (fun _ _ => inv.effect) a m l) ?_ ?_ ?_ h
  · exact fun s => inv.of_same ⟨rfl, rfl⟩ rfl
  · exact fun r s => inv.of_same ⟨rfl, rfl⟩ rfl
  · exact fun r s => inv.of_same ⟨rfl, rfl⟩ rfl
  · intro n held s
    unfold foreignTurn
    split
    · exact id
    · exact inv.of_same ⟨rfl, rfl⟩ rfl
  · exact fun a pc site c s => inv.of_tick ⟨rfl, rfl⟩ rfl
  · exact fun a k s => inv.of_same ⟨rfl, rfl⟩ rfl
  · exact fun a r x s => inv.of_same ⟨rfl, rfl⟩ rfl

end PinInvariant

/-! ### The lines are consistent -/

/-- Giving some lines one consistent state keeps all lines consistent. -/
theorem State.LinesConsistent.update {s t : State} (h : s.LinesConsistent) {P : Sig → Prop} [DecidablePred P] {l : Line}
    (lines : ∀ k, t.line k = if P k then l else s.line k) (hl : l.Consistent) : t.LinesConsistent := by
  intro k
  rw [lines]
  split
  · exact hl
  · exact h k

theorem Line.Consistent.presented {l : Line} (p : l.presents = true) (v : Bool) :
    ({ l with lvl := Level.ofBit v } : Line).Consistent := by
  obtain ⟨own, dir⟩ : l.own = true ∧ l.dir = .output := by simpa [Line.presents] using p
  cases v <;> simp [Line.Consistent, own, dir, Level.ofBit]

theorem linesConsistent_pinInvariant : PinInvariant State.LinesConsistent where
  of_pins pins _ h := by
    intro k
    rw [State.line, pins.1]
    exact h k
  grant g h := h.update (State.line_grant g · _) (h g)
  claim g h := h.update (State.line_claim g · _) ⟨Bool.noConfusion, (h g).2⟩
  driveLow g h := h.update (State.line_driveLow g · _) (by decide)
  unclaim g h := h.update (State.line_unclaim g · _) (by decide)
  writeLevel := by
    intro s g v h
    by_cases acc : s.accepts g = true
    · have pres : (s.line g).presents = true := (Bool.and_eq_true_iff.mp acc).2
      exact h.update (State.line_writeLevel g · v s) (Line.Consistent.presented pres v)
    · intro k
      rw [State.line_writeLevel, if_neg fun e => acc e.2]
      exact h k

/-- Settles O54: line consistency is an invariant of the pins, kept by each of the five operations on a line. -/
theorem linesStayConsistent : Obligations.LinesStayConsistent :=
  fun _ _ h step => linesConsistent_pinInvariant.step_keeps step h

/-! ### The trace accounts for the pins -/

theorem traceAccounts_pinInvariant : PinInvariant State.TraceAccounts where
  of_pins pins _ h := h.of_same pins.1 pins.2
  grant g h := h.grant g
  claim g h := h.claim g
  driveLow g h := h.driveLow g
  unclaim g h := h.unclaim g
  writeLevel g v h := h.writeLevel g v

/-- Settles O55: each operation on a line emits the event that says what it does to the line. -/
theorem traceStaysAnAccountOfThePins : Obligations.TraceStaysAnAccountOfThePins :=
  fun _ _ h step => traceAccounts_pinInvariant.step_keeps step h

/-! ### The events stand in the order of their times -/

/-- An ordered trace stays ordered when it grows by events of the present time. -/
theorem State.TimesOrdered.grow {s t : State} (h : s.TimesOrdered) {evs : List Event}
    (trace : t.trace = s.trace ++ evs) (now : s.now ≤ t.now) (present : ∀ ev ∈ evs, ev.time = t.now) :
    t.TimesOrdered := by
  obtain ⟨ordered, past⟩ := h
  unfold State.TimesOrdered
  rw [trace]
  constructor
  · rw [List.map_append, List.pairwise_append]
    refine ⟨ordered, ?_, ?_⟩
    · exact List.pairwise_map.mpr (List.pairwise_of_forall_mem_list fun x hx y hy => by rw [present x hx, present y hy])
    · intro x hx y hy
      obtain ⟨ex, hex, rfl⟩ := List.mem_map.mp hx
      obtain ⟨ey, hey, rfl⟩ := List.mem_map.mp hy
      exact (past ex hex).trans (now.trans (present ey hey).ge)
  · intro ev hev
    rcases List.mem_append.mp hev with hev | hev
    · exact (past ev hev).trans now
    · exact (present ev hev).le

theorem timesOrdered_pinInvariant : PinInvariant State.TimesOrdered where
  of_pins pins now h := h.grow (evs := []) (by rw [pins.2, List.append_nil]) now (by simp)
  grant g h := h
  claim g h := h.grow (State.claim_trace g _) le_rfl (by simp [Event.time])
  driveLow := by
    intro s g h
    refine h.grow (State.trace_driveLow g s) (by simp) ?_
    split <;> simp [Event.time]
  unclaim g h := h.grow (State.unclaim_trace g _) le_rfl (by simp [Event.time])
  writeLevel := by
    intro s g v h
    refine h.grow (State.trace_writeLevel g v s) (by simp) ?_
    split <;> simp [Event.time]

/-- Settles O56: time never goes back, and an event carries the time of the operation that emits it. -/
theorem eventTimesStayOrdered : Obligations.EventTimesStayOrdered :=
  fun _ _ h step => timesOrdered_pinInvariant.step_keeps step h

end Sys2Proof.Machine

/-! What only grows: the clock, the trace and the logs (10_state.md R36 to R38, R43). -/

namespace Sys2Proof.Machine

/-! ### The clock, the trace and the host calls -/

/-- Time has not gone back, and no event and no host call is gone. -/
def Grows (s t : State) : Prop := s.now ≤ t.now ∧ s.trace <+: t.trace ∧ s.hostCalls <+: t.hostCalls

theorem Grows.refl (s : State) : Grows s s := ⟨le_rfl, List.prefix_rfl, List.prefix_rfl⟩

theorem Grows.trans {s t u : State} (h : Grows s t) (k : Grows t u) : Grows s u :=
  ⟨h.1.trans k.1, h.2.1.trans k.2.1, h.2.2.trans k.2.2⟩

theorem grows_tick (n : Nat) (s : State) : Grows s (s.tick n) :=
  ⟨State.now_le_tick n s, List.prefix_rfl, List.prefix_rfl⟩

theorem grows_call (c : HostCall) (s : State) : Grows s (s.call c) :=
  ⟨le_rfl, List.prefix_rfl, List.prefix_append _ _⟩

theorem grows_emit (ev : Event) (s : State) : Grows s (s.emit ev) :=
  ⟨le_rfl, List.prefix_append _ _, List.prefix_rfl⟩

theorem grows_driveLow (g : Sig) (s : State) : Grows s (s.driveLow g) :=
  ⟨by simp, State.trace_driveLow g s ▸ List.prefix_append _ _, by simp⟩

theorem grows_writeLevel (g : Sig) (v : Bool) (s : State) : Grows s (s.writeLevel g v) :=
  ⟨by simp, State.trace_writeLevel g v s ▸ List.prefix_append _ _, by simp⟩

theorem Effect.grows {x : Act} {s t : State} (h : Effect s x t) : Grows s t := by
  have ticked := grows_tick 0 s
  cases h with
  | stays | beginInit => exact Grows.refl s
  | denied | granted | release | unregister => exact ticked.trans (grows_call _ _)
  | claim g => exact ticked.trans (grows_emit (.own _ g) _)
  | direct g => exact ticked.trans (grows_driveLow g _)
  | giveBack g => exact (ticked.trans (grows_call (.releaseLine _) _)).trans (grows_emit (.free _ g) _)
  | unclaim g => exact ticked.trans (grows_emit (.free _ g) _)
  | write g v => exact ticked.trans (grows_writeLevel g v _)
  | wait n => exact grows_tick n s
  | registered _ c => exact ticked.trans (grows_call c _)
  | unregistrable _ c => exact grows_call c s
  | lock | unlock | setAcquired | setReg | setLoaded | clearLoad | sessOpen | sessClose => exact ticked

/-! ### The sticky fields -/

/-- Beside that, no fault, refusal or result is gone, and the launch parameters are as they were. -/
def Sticky (s t : State) : Prop :=
  Grows s t ∧ s.faults <+: t.faults ∧ s.refusals <+: t.refusals ∧ s.results <+: t.results ∧ t.params = s.params

theorem Sticky.trans {s t u : State} (h : Sticky s t) (k : Sticky t u) : Sticky s u := by
  obtain ⟨grows, faults, refusals, results, params⟩ := h
  obtain ⟨grows', faults', refusals', results', params'⟩ := k
  exact ⟨grows.trans grows', faults.trans faults', refusals.trans refusals', results.trans results',
    params'.trans params⟩

theorem Sticky.of_steady {s t : State} (h : Steady s t) (grows : Grows s t) : Sticky s t := by
  obtain ⟨-, ⟨faults, refusals, results⟩, -, params, -⟩ := h
  exact ⟨grows, faults ▸ List.prefix_rfl, refusals ▸ List.prefix_rfl, results ▸ List.prefix_rfl, params⟩

theorem Sticky.refl (s : State) : Sticky s s := Sticky.of_steady (Steady.refl s) (Grows.refl s)

theorem sticky_raise (a : Nat) (pc site : Pc) (c : FaultCode) (s : State) : Sticky s (s.raise a pc site c) :=
  ⟨grows_tick 0 s, List.prefix_append _ _, List.prefix_rfl, List.prefix_rfl, rfl⟩

theorem sticky_refuse (r : RefusalReason) (s : State) : Sticky s (s.refuse r) :=
  ⟨Grows.refl s, List.prefix_rfl, List.prefix_append _ _, List.prefix_rfl, rfl⟩

theorem sticky_finish (a : Nat) (r : Op) (x : Option Result) (s : State) : Sticky s (s.finish a r x) := by
  refine ⟨Grows.refl s, List.prefix_rfl, List.prefix_rfl, ?_, rfl⟩
  cases x with
  | none => exact List.prefix_rfl
  | some x => exact List.prefix_append _ _

theorem sticky_foreignTurn (n : Nat) (held : Bool) (s : State) : Sticky s (foreignTurn n held s) := by
  unfold foreignTurn
  split <;> exact Sticky.refl s

theorem step_sticky {s t : State} (h : step s = .next t) : Sticky s t :=
  step_keeps Sticky.refl Sticky.trans (turn := Sticky.refl) (issue := fun _ => Sticky.refl) (refuse := sticky_refuse)
    (foreign := sticky_foreignTurn)
    (act := fun a m l s =>
      (perform_steady a m l s).combine (fun _ => Sticky.of_steady) (perform_keeps_all (fun _ _ => Effect.grows) a m l))
    (raise := sticky_raise) (park := fun _ _ => Sticky.refl) (finish := sticky_finish) h

/-- Settles O60: every part of a step only adds to the sticky fields. -/
theorem stickyFieldsOnlyGrow : Obligations.StickyFieldsOnlyGrow := by
  intro s t h
  obtain ⟨⟨now, trace, calls⟩, faults, refusals, results, params⟩ := step_sticky h
  exact ⟨now, faults, refusals, trace, calls, results, params⟩

end Sys2Proof.Machine

/-! The environment's turn (10_state.md R40). -/

namespace Sys2Proof.Machine

theorem mem_foreignTurn {s : State} (wf : setWf s.foreign) (n : Nat) (held : Bool) (k : Nat) :
    k ∈ (foreignTurn n held s).foreign ↔ if k = n ∧ s.ownsLine n = false then held = true else k ∈ s.foreign := by
  unfold foreignTurn
  by_cases own : s.ownsLine n = true
  · simp [own]
  · by_cases here : k = n
    · cases held <;> simp [own, here, mem_setInsert, mem_setErase n _ wf]
    · cases held <;> simp [own, here, mem_setInsert, mem_setErase n _ wf]

theorem foreignTurn_eq (n : Nat) (held : Bool) (s : State) :
    foreignTurn n held s = { s with foreign := (foreignTurn n held s).foreign } := by
  unfold foreignTurn
  split <;> rfl

/-- Settles O12: the environment's turn inserts or erases one line it may change, and writes no other field. -/
theorem foreignOwnersChangeOnlyUnownedLines : Obligations.ForeignOwnersChangeOnlyUnownedLines := by
  intro s n held wf turn
  refine ⟨(foreignTurn n held s.afterTurn).foreign, ?_, mem_foreignTurn (s := s.afterTurn) wf n held⟩
  rw [step, turn]
  exact congrArg Host.Outcome.next (foreignTurn_eq n held s.afterTurn)

end Sys2Proof.Machine

/-! Checks that fail at an operation's entry (60_exceptions.md R177, R179). -/

namespace Sys2Proof.Machine

/-- A check that fails at its operation's entry faults there, after the checks before it that hold, with no other effect
(60_exceptions.md R177, R179). -/
theorem runWith_check_fails {J : Task → State → State} {a : Nat} {s : State} {passed : List Check} {c : Check}
    (pass : ∀ d ∈ passed, d.passes a s = true) (fails : c.passes a s = false) (op : Op) (later : List Check)
    (acts : List Act) (after : List MicroStep) (r : Op) (x : Option Result) (l : Locals) :
    runWith J a r x (checked op (passed ++ c :: later) acts ++ after) l s =
      s.raise a { op := r, k := l.k } { op := op, k := 0 } c.code := by
  induction passed with
  | nil => simp [checked, runWith, perform, fails, State.raiseAt]
  | cons d ds ih =>
    have hd : d.passes a s = true := pass d List.mem_cons_self
    simp only [checked, List.cons_append, List.map_cons, runWith, perform, hd, if_true]
    exact ih fun e he => pass e (List.mem_cons_of_mem _ he)

theorem runWith_transmit_unowned {J : Task → State → State} {a : Nat} {s : State} (guarded : s.lockOwner = some a)
    (unowned : s.linesAcquired = false) (p : Params) (w : Byte) (after : List MicroStep) (r : Op) (x : Option Result)
    (l : Locals) :
    runWith J a r x (transmitSteps p w ++ after) l s =
      s.raise a { op := r, k := l.k } { op := .transmit, k := 0 } .transmitUnowned :=
  runWith_check_fails (passed := [.guarded]) (c := .acquired) (by simp [Check.passes, State.holdsGuard, guarded])
    unowned .transmit [] (transmitActs p w) after r x l

theorem runWith_initRun_twice {J : Task → State → State} {a : Nat} {s : State} (guarded : s.lockOwner = some a)
    (done : s.initDone = true) (p : Params) (after : List MicroStep) (r : Op) (x : Option Result) (l : Locals) :
    runWith J a r x (initRunSteps p ++ after) l s =
      s.raise a { op := r, k := l.k } { op := .initRun, k := 0 } .initTwice := by
  rw [initRunSteps, List.append_assoc, List.append_assoc]
  exact runWith_check_fails (passed := [.guarded]) (c := .initFresh)
    (by simp [Check.passes, State.holdsGuard, guarded]) (by simp [Check.passes, done]) .initRun [] [] _ r x l

/-- Settles O35: the second check fails where the first one, the guard, holds. -/
theorem unownedTransmitAndSecondInitFault : Obligations.UnownedTransmitAndSecondInitFault := by
  intro s ready guarded
  constructor
  · intro unowned w
    have run := runWith_transmit_unowned (J := runRest s.self) guarded unowned s.params w [] .transmit none Locals.start
    rw [List.append_nil] at run
    exact (runAdmitted_ready ready).trans (congrArg Host.Outcome.next run)
  · intro done
    have run := runWith_initRun_twice (J := runRest s.self) guarded done s.params [] .initRun none Locals.start
    rw [List.append_nil] at run
    exact (runAdmitted_ready ready).trans (congrArg Host.Outcome.next run)

end Sys2Proof.Machine

/-! Where an agent stands: what leaves it there, and where a turn of its own takes it (10_state.md R35; 60_exceptions.md
R180, R181). -/

namespace Sys2Proof.Machine

/-! ### What an agent is at -/

@[simp] theorem State.agentState_park_self (a : Nat) (t : Task) (s : State) :
    (s.park a t).agentState a = some (.running t) := mapGet_mapPut_self a _ s.agents

@[simp] theorem State.pcOf_park_self (a : Nat) (t : Task) (s : State) : (s.park a t).pcOf a = some t.pc := by
  simp only [State.pcOf, State.agentState_park_self]

@[simp] theorem State.agentState_raise_self (a : Nat) (pc site : Pc) (c : FaultCode) (s : State) :
    (s.raise a pc site c).agentState a = some (.faulted pc) := mapGet_mapPut_self a _ s.agents

theorem State.agentState_finish_self {s : State} (wf : mapWf s.agents) (a : Nat) (r : Op) (x : Option Result) :
    (s.finish a r x).agentState a = none := mapGet_mapErase_self a wf

theorem SameOthers.refl (a : Nat) (s : State) : SameOthers a s s := fun _ _ => rfl

theorem SameOthers.trans {a : Nat} {s t u : State} (h : SameOthers a s t) (k : SameOthers a t u) : SameOthers a s u :=
  fun b ne => (k b ne).trans (h b ne)

theorem Steady.sameOthers {s t : State} (h : Steady s t) (a : Nat) : SameOthers a s t := fun b _ => h.agentState b

theorem sameOthers_park (a : Nat) (t : Task) (s : State) : SameOthers a s (s.park a t) :=
  fun _ ne => mapGet_mapPut_other _ s.agents ne

theorem sameOthers_raise (a : Nat) (pc site : Pc) (c : FaultCode) (s : State) : SameOthers a s (s.raise a pc site c) :=
  fun _ ne => mapGet_mapPut_other _ s.agents ne

theorem sameOthers_finish (a : Nat) (r : Op) (x : Option Result) (s : State) : SameOthers a s (s.finish a r x) :=
  fun _ ne => mapGet_mapErase_other s.agents ne

theorem sameOthers_settle (a : Nat) (t : Task) (s : State) : SameOthers a s (settle a t s) := by
  unfold settle
  split
  · exact sameOthers_finish a _ _ s
  · exact sameOthers_park a t s

theorem perform_sameOthers (b a : Nat) (m : MicroStep) (l : Locals) (s : State) :
    (perform a m l s).Keeps (SameOthers b) (fun _ => True) s :=
  (perform_steady a m l s).mono fun _ h => h.sameOthers b

theorem sameOthers_runTask (a : Nat) (t : Task) (s : State) : SameOthers a s (runTask a t s) :=
  runTask_keeps (R := SameOthers a) (ok := fun _ => True) SameOthers.trans (fun m l s _ => perform_sameOthers a a m l s)
    (sameOthers_raise a) (sameOthers_park a) (sameOthers_finish a t.req) fun _ _ => trivial

theorem sameOthers_advance (a : Nat) (t : Task) (s : State) : SameOthers a s (advance a t s) :=
  advance_keeps (R := SameOthers a) (ok := fun _ => True) SameOthers.trans (fun m l s _ => perform_sameOthers a a m l s)
    (sameOthers_raise a) (sameOthers_park a) (sameOthers_finish a t.req) fun _ _ => trivial

theorem sameOthers_agentTurn (a : Nat) (s : State) : SameOthers a s (agentTurn a s) := by
  unfold agentTurn
  split
  · exact sameOthers_advance a _ s
  · exact SameOthers.refl a s
  · exact SameOthers.refl a s

theorem sameOthers_exec {i : Instr} {s t : State} (h : exec i s = .next t) : SameOthers s.self s t := by
  rw [exec_eq_runAdmitted] at h
  rcases runAdmitted_cases h with ⟨r, -, rfl⟩ | ⟨k, -, -, rfl⟩
  · exact SameOthers.refl s.self s
  · exact sameOthers_runTask s.self k s

theorem sameOthers_begin {i : Instr} {s t : State} (h : begin i s = .next t) : SameOthers s.self s t := by
  rcases beginAdmitted_cases h with ⟨r, -, rfl⟩ | ⟨k, -, -, rfl⟩
  · exact SameOthers.refl s.self s
  · exact sameOthers_settle s.self k s

/-- A pending request is issued to an idle agent, so its turn changes no agent that is not. -/
theorem requestTurn_keeps_busy {meaning : Instr → State → Host.Outcome State Fault Refusal}
    (own : ∀ {i s t}, meaning i s = .next t → SameOthers s.self s t) {s t : State} {a : Nat}
    (busy : s.agentState a ≠ none) (h : requestTurn meaning s = .next t) : t.agentState a = s.agentState a := by
  unfold requestTurn at h
  split at h
  · next r next =>
    have other : a ≠ r.agent := by
      rintro rfl
      unfold State.nextRequest at next
      split at next
      · cases next
      · split at next
        · next idle =>
          cases next
          exact busy (Option.isNone_iff_eq_none.mp idle)
        · cases next
    unfold runRequest at h
    split at h
    · exact own h a other
    · cases h; rfl
  · cases h; rfl

/-- A turn that is not the agent's own leaves an agent that is not idle as it is. -/
theorem step_keeps_busy {s t : State} {a : Nat} (busy : s.agentState a ≠ none) (h : step s = .next t)
    (other : s.turn ≠ .agent a) : t.agentState a = s.agentState a := by
  unfold step takeTurn at h
  split at h
  · exact requestTurn_keeps_busy (s := s.afterTurn) sameOthers_exec busy h
  · exact requestTurn_keeps_busy (s := s.afterTurn) sameOthers_begin busy h
  · next b turn =>
    cases h
    exact sameOthers_agentTurn b s.afterTurn a fun e => other (e ▸ turn)
  · next n held _ =>
    cases h
    unfold foreignTurn
    split <;> rfl

/-! ### What an action comes to for the position -/

/-- An action after which the rest of the expansion is what it was: any but a request and the branch of EV_CLOSE. -/
def Act.straight : Act → Bool
  | .request _ _ => false
  | .ifLast _ => false
  | _ => true

/-- What performing an action may come to for the agent's position: the action itself counts no micro-step, only LOCK of
a held guard blocks, and only a request or the branch of EV_CLOSE replaces what is left, by lines that do not. -/
def Performed.Placed (m : MicroStep) (l : Locals) (s : State) : Performed → Prop
  | .pass l' _ => l'.k = l.k
  | .moved l' _ => l'.k = l.k
  | .jump rest _ _ => m.act.straight = false ∧ AllActs Act.straight rest
  | .branch rest _ => m.act.straight = false ∧ AllActs Act.straight rest
  | .blocked => m.act = .lock ∧ s.lockOwner.isSome = true
  | .fault _ _ => True

theorem perform_placed (a : Nat) (m : MicroStep) (l : Locals) (s : State) : (perform a m l s).Placed m l s := by
  have has := perform_hasEffect a m l s
  cases e : perform a m l s <;> rw [e] at has
  case pass => exact has.1
  case moved => exact has.1
  case jump =>
    obtain ⟨⟨g, got, request, rfl⟩, -⟩ := has
    exact ⟨by rw [request]; rfl, allActs_rollback (fun _ => rfl) got⟩
  case branch =>
    obtain ⟨⟨sid, ifLast, rfl⟩, -⟩ := has
    exact ⟨by rw [ifLast]; rfl, (allActs_closeTail sid).mpr ⟨rfl, rfl⟩⟩
  case blocked => exact has
  case fault => trivial

/-! ### One turn further -/

/-- Where an agent that stood at `k` of request `r` can be after a turn of its own. -/
def TurnTaken (a : Nat) (r : Op) (k : Nat) (t : State) : Prop :=
  t.pcOf a = some { op := r, k := k + 1 } ∨ t.agentState a = none ∨
    t.agentState a = some (.faulted { op := r, k := k }) ∨ t.stuck a = true ∧ t.pcOf a = some { op := r, k := k }

theorem turnTaken_finish {s : State} (wf : mapWf s.agents) (a : Nat) (r : Op) (x : Option Result) (k : Nat) :
    TurnTaken a r k (s.finish a r x) := .inr (.inl (State.agentState_finish_self wf a r x))

theorem turnTaken_settle {s : State} (wf : mapWf s.agents) (a : Nat) (t : Task) {k : Nat} (moved : t.loc.k = k + 1) :
    TurnTaken a t.req k (settle a t s) := by
  unfold settle
  split
  · exact turnTaken_finish wf a t.req t.result k
  · exact .inl (by rw [State.pcOf_park_self, Task.pc, moved])

/-- A turn of an agent ends where a micro-step is taken, the request ends or faults, or a LOCK does not let it on. -/
theorem turnTaken_advanceWith {J : Task → State → State} {a : Nat} {r : Op}
    (x : Option Result) (ms : List MicroStep) (l : Locals) {s : State} (wf : mapWf s.agents)
    (branch : AllActs Act.straight ms ∨
      ∀ t s, t.req = r → mapWf s.agents → AllActs Act.straight t.rest → TurnTaken a r t.loc.k (J t s)) :
    TurnTaken a r l.k (advanceWith J a r x ms l s) := by
  induction ms generalizing l s with
  | nil => exact turnTaken_finish wf a r x l.k
  | cons m ms ih =>
    have agents := perform_steady a m l s
    have placed := perform_placed a m l s
    cases e : perform a m l s <;> rw [e] at agents placed <;> simp only [advanceWith, e]
    case pass l' s' =>
      rw [← show l'.k = l.k from placed]
      exact ih l' (agents.1 ▸ wf) (branch.imp_left AllActs.tail)
    case moved l' s' =>
      exact turnTaken_settle (agents.1 ▸ wf) a { req := r, result := x, loc := l'.step, rest := ms }
        (congrArg (· + 1) placed)
    case jump rest y s' =>
      exact turnTaken_settle (agents.1.1 ▸ wf) a { req := r, result := y, loc := l.step, rest := rest } rfl
    case branch rest s' =>
      obtain ⟨turning, straight⟩ := placed
      have branch := branch.resolve_left (AllActs.not_of_head turning)
      exact branch { req := r, result := x, loc := l, rest := rest } s' rfl (agents.1.1 ▸ wf) straight
    case blocked =>
      obtain ⟨lock, held⟩ := placed
      refine .inr (.inr (.inr ⟨?_, State.pcOf_park_self a _ s⟩))
      simp only [State.stuck, State.atLock, State.agentState_park_self, lock, beq_self_eq_true, Bool.true_and]
      exact held
    case fault c s' => exact .inr (.inr (.inl (State.agentState_raise_self a _ _ c s')))

theorem turnTaken_advance (a : Nat) (t : Task) {s : State} (wf : mapWf s.agents) :
    TurnTaken a t.req t.loc.k (advance a t s) := by
  refine turnTaken_advanceWith t.result t.rest t.loc wf (.inr fun u s hu wf straight => ?_)
  rw [← hu]
  exact turnTaken_advanceWith u.result u.rest u.loc wf (.inl straight)

/-- Settles O10: another's turn leaves the agent alone, its own takes one micro-step or stops. -/
theorem positionAdvancesByOne : Obligations.PositionAdvancesByOne := by
  intro s t a task wf running h
  refine ⟨step_keeps_busy (by rw [running]; exact Option.some_ne_none _) h, fun turn => ?_⟩
  rw [step, turn] at h
  cases h
  have at_k : s.pcOf a = some task.pc := by simp only [State.pcOf, running]
  rw [at_k, agentTurn, show s.afterTurn.agentState a = some (.running task) from running]
  exact turnTaken_advance a task (s := s.afterTurn) wf

end Sys2Proof.Machine

/-! A request run whole is its agent's turns one after the other: no action reads where an agent stands, so performing
a line and standing before the next one commute (10_state.md R35; 60_exceptions.md R183). -/

namespace Sys2Proof.Machine

/-! ### Standing at a position changes nothing else -/

/-- The outcome with another state. -/
def Performed.map (f : State → State) : Performed → Performed
  | .pass l s => .pass l (f s)
  | .moved l s => .moved l (f s)
  | .jump rest x s => .jump rest x (f s)
  | .branch rest s => .branch rest (f s)
  | .blocked => .blocked
  | .fault c s => .fault c (f s)

/-- A function of a choice is the choice of the function's values, however the choice is put. -/
theorem ite_eq_map {α β : Type} (f : α → β) {c d : Prop} [Decidable c] [Decidable d] {x y : α} {x' y' : β}
    (same : d ↔ c) (hx : x' = f x) (hy : y' = f y) : (if d then x' else y') = f (if c then x else y) := by
  rw [apply_ite f]
  exact if_congr same hx hy

section
variable (b : Nat) (v : Task) (s : State)

theorem Check.passes_park (a : Nat) (c : Check) : c.passes a (s.park b v) = c.passes a s := by cases c <;> rfl

theorem State.driveLow_park (g : Sig) : (s.park b v).driveLow g = (s.driveLow g).park b v :=
  ite_eq_map (State.park b v) Iff.rfl rfl rfl

theorem State.writeLevel_park (g : Sig) (x : Bool) : (s.park b v).writeLevel g x = (s.writeLevel g x).park b v :=
  ite_eq_map (State.park b v) Iff.rfl rfl rfl

/-- No action reads where an agent stands. -/
theorem perform_park (a : Nat) (m : MicroStep) (l : Locals) :
    perform a m l (s.park b v) = (perform a m l s).map (State.park b v) := by
  unfold perform
  cases m.act with
  | require c =>
    simp only [Check.passes_park]
    exact ite_eq_map _ Iff.rfl rfl rfl
  | request g got => exact ite_eq_map (Performed.map (State.park b v)) Iff.rfl rfl rfl
  | direct g => exact congrArg (Performed.moved l) (State.driveLow_park b v (s.tick 0) g)
  | release g =>
    refine ite_eq_map (Performed.map (State.park b v)) Iff.rfl rfl ?_
    rw [State.park_params]
    split <;> rfl
  | unclaim g => exact ite_eq_map (Performed.map (State.park b v)) Iff.rfl rfl rfl
  | write g x => exact congrArg (Performed.moved l) (State.writeLevel_park b v (s.tick 0) g x)
  | lock => simp only [performLock, State.park_lockOwner]; split <;> rfl
  | unlock => exact ite_eq_map (Performed.map (State.park b v)) Iff.rfl rfl rfl
  | registerDevice => simp only [performRegisterDevice, State.registration, State.park_registrations]; split <;> rfl
  | createClass => simp only [performCreateClass, State.registration, State.park_registrations]; split <;> rfl
  | createNode => simp only [performCreateNode, State.registration, State.park_registrations]; split <;> rfl
  | ifLast sid => exact ite_eq_map (Performed.map (State.park b v)) Iff.rfl rfl rfl
  | beginInit | claim | giveBack | wait | setAcquired | setReg | setLoaded | destroyNode | destroyClass
  | unregister | clearLoad | sessOpen | sessClose => rfl

end

theorem State.finish_park {s : State} {a : Nat} (idle : s.agentState a = none) (v : Task) (r : Op) (x : Option Result) :
    (s.park a v).finish a r x = s.finish a r x := by
  simp only [State.finish, State.park, mapErase_mapPut _ idle, mapErase_of_none idle]

theorem settle_park {s : State} {a : Nat} (idle : s.agentState a = none) (v t : Task) :
    settle a t (s.park a v) = settle a t s := by
  unfold settle
  split
  · exact State.finish_park idle v t.req t.result
  · simp only [State.park, mapPut_mapPut]

/-! ### Turns of one agent in a row -/

/-- From `u`, some number of turns of the agent gives `t`, and before each of them the agent stands at the next place of
request `r`, from `k` on. -/
def Reaches (a : Nat) (r : Op) (k : Nat) (u t : State) : Prop :=
  ∃ n, (agentTurn a)^[n] u = t ∧ ∀ j, j < n → ((agentTurn a)^[j] u).pcOf a = some { op := r, k := k + j }

theorem Reaches.refl (a : Nat) (r : Op) (k : Nat) (u : State) : Reaches a r k u u := ⟨0, rfl, fun _ h => by omega⟩

/-- One turn, and then the others. -/
theorem Reaches.turn {a : Nat} {r : Op} {k : Nat} {u t : State} (at_k : u.pcOf a = some { op := r, k := k })
    (h : Reaches a r (k + 1) (agentTurn a u) t) : Reaches a r k u t := by
  obtain ⟨n, ends, places⟩ := h
  refine ⟨n + 1, by rw [Function.iterate_succ_apply, ends], fun j hj => ?_⟩
  match j with
  | 0 => exact at_k
  | j + 1 =>
    rw [Function.iterate_succ_apply, places j (by omega)]
    congr 2
    omega

theorem agentTurn_park (a : Nat) (t : Task) (s : State) : agentTurn a (s.park a t) = advance a t (s.park a t) := by
  simp only [agentTurn, State.agentState_park_self]

/-- An agent that settles before the rest of its request reaches what its turn there reaches. -/
theorem Reaches.settle {J : Task → State → State} {a : Nat} {t : Task} {s : State}
    (h : Reaches a t.req (t.loc.k + 1) (advance a t (s.park a t)) (runWith J a t.req t.result t.rest t.loc s)) :
    Reaches a t.req t.loc.k (settle a t s) (runWith J a t.req t.result t.rest t.loc s) := by
  unfold Machine.settle
  split
  · next none_left =>
    rw [none_left]
    exact Reaches.refl a t.req t.loc.k _
  · exact Reaches.turn (State.pcOf_park_self a t s) (by rw [agentTurn_park]; exact h)

/-- What `J` does where the rest of request `r` is replaced is what the agent's turns do from there, whether it settles
before that rest or its turn goes on into it. -/
def Continues (a : Nat) (r : Op) (J : Task → State → State) : Prop :=
  ∀ t s, t.req = r → s.agentState a = none → AllActs Act.straight t.rest →
    Reaches a r t.loc.k (settle a t s) (J t s) ∧
      ∀ v, Reaches a r (t.loc.k + 1) (advanceRest a t (s.park a v)) (J t s)

/-- The turn of an agent in a request, and the turns after it, come to where the request's run does. -/
theorem reaches_runWith {J J' : Task → State → State} {a : Nat} {r : Op} (x : Option Result) (ms : List MicroStep)
    (l : Locals) {s : State} (idle : s.agentState a = none) (v : Task)
    (h : AllActs Act.straight ms ∨ J' = advanceRest a ∧ Continues a r J) :
    Reaches a r (l.k + 1) (advanceWith J' a r x ms l (s.park a v)) (runWith J a r x ms l s) := by
  induction ms generalizing l s v J' with
  | nil =>
    rw [advanceWith, runWith, State.finish_park idle]
    exact Reaches.refl a r _ _
  | cons m ms ih =>
    have agents := perform_steady a m l s
    have placed := perform_placed a m l s
    have parked := perform_park a v s a m l
    cases e : perform a m l s <;> rw [e] at agents placed parked <;>
      simp only [advanceWith, runWith, e, parked, Performed.map]
    case pass l' s' =>
      rw [← show l'.k = l.k from placed]
      exact ih l' ((agents.agentState a).trans idle) v (h.imp_left AllActs.tail)
    case moved l' s' =>
      have idle' := (agents.agentState a).trans idle
      rw [settle_park idle', ← show l'.k = l.k from placed]
      exact Reaches.settle (t := { req := r, result := x, loc := l'.step, rest := ms })
        (ih l'.step idle' _ (h.imp AllActs.tail fun h => ⟨rfl, h.2⟩))
    case jump rest y s' =>
      have idle' := (agents.1.agentState a).trans idle
      obtain ⟨-, continues⟩ := h.resolve_left (AllActs.not_of_head placed.1)
      rw [settle_park idle']
      exact (continues { req := r, result := y, loc := l.step, rest := rest } s' rfl idle' placed.2).1
    case branch rest s' =>
      have idle' := (agents.1.agentState a).trans idle
      obtain ⟨rfl, continues⟩ := h.resolve_left (AllActs.not_of_head placed.1)
      exact (continues { req := r, result := x, loc := l, rest := rest } s' rfl idle' placed.2).2 v
    case blocked =>
      simp only [State.park, mapPut_mapPut]
      exact Reaches.refl a r _ _
    case fault c s' =>
      simp only [State.raiseAt, State.raise, State.park, mapPut_mapPut]
      exact Reaches.refl a r _ _

theorem continues_runRest (a : Nat) (r : Op) : Continues a r (runRest a) := by
  rintro t s rfl idle straight
  exact ⟨Reaches.settle (reaches_runWith t.result t.rest t.loc idle t (.inl straight)),
    fun v => reaches_runWith t.result t.rest t.loc idle v (.inl straight)⟩

/-- A request run whole by an idle agent is the agent's turns from its first micro-step on. -/
theorem reaches_runTask {a : Nat} {s : State} (idle : s.agentState a = none) (t : Task) :
    Reaches a t.req t.loc.k (settle a t s) (runTask a t s) :=
  Reaches.settle (reaches_runWith t.result t.rest t.loc idle t (.inr ⟨rfl, continues_runRest a t.req⟩))

/-! ### The request an instruction issues -/

theorem underDuty_run {kept : Bool} {op : Op} {x : Option Result} {rest : List MicroStep} {t : Task}
    (h : underDuty kept op x rest = .run t) : Admission.task op x rest = .run t := by
  unfold underDuty at h
  split at h
  · exact h
  · cases h

theorem Admission.task_run {op : Op} {x : Option Result} {rest : List MicroStep} {t : Task}
    (h : Admission.task op x rest = .run t) : t = { req := op, result := x, loc := Locals.start, rest := rest } := by
  cases h; rfl

/-- An admitted request is its operation at its first micro-step (10_state.md R35). -/
theorem admission_run {i : Instr} {s : State} {t : Task} (h : admission i s = .run t) :
    requestOp i = some t.req ∧ t.loc = Locals.start := by
  cases i with
  | evLoad | evUnload | evOpen | evClose | evControl => cases Admission.task_run (underDuty_run h); exact ⟨rfl, rfl⟩
  | reserved0 | reservedF => cases h
  | acquire | release | setlevel | transmit | delayUs | delayMs | lock | unlock | initRun =>
    cases Admission.task_run h; exact ⟨rfl, rfl⟩

theorem beginAdmitted_ready {t : Task} {s : State} (ready : s.Ready) :
    beginAdmitted (.run t) s = .next (settle s.self t s) := by
  simp only [beginAdmitted, show s.agentState s.self = none from ready]

/-- Settles O9: by induction on the lines that remain, a run and the agent's turns come to the same state; a refused
request takes no turn. -/
theorem wholeRunIsItsMicroSteps : Obligations.WholeRunIsItsMicroSteps := by
  intro i s t ready h
  rw [exec_eq_runAdmitted] at h
  unfold begin
  rcases runAdmitted_cases h with ⟨r, ad, rfl⟩ | ⟨k, ad, -, rfl⟩
  · exact ⟨_, 0, by rw [ad]; rfl, rfl, fun _ h => by omega⟩
  · obtain ⟨op, start⟩ := admission_run ad
    obtain ⟨n, ends, places⟩ := reaches_runTask ready k
    refine ⟨_, n, by rw [ad, beginAdmitted_ready ready], ends, fun j hj => ?_⟩
    rw [places j hj, op, start]
    simp [Locals.start]

end Sys2Proof.Machine

/-! Invariants that speak of the agents' tasks. Since a request run whole is its agent's turns, what `begin` and an
agent's turn keep is kept by every step; the canonical form (notes/assumptions/17.md) is kept in this way. -/

namespace Sys2Proof.Machine

/-! ### One law for every invariant of the whole state -/

/-- A predicate kept by the schedule, the environment, a refusal, the start of an admitted request and an agent's turn
is kept by every step. -/
theorem step_invariant {I : State → Prop} (turn : ∀ s, I s → I s.afterTurn) (issue : ∀ r s, I s → I (s.issue r))
    (refuse : ∀ r s, I s → I (s.refuse r)) (foreign : ∀ n held s, I s → I (foreignTurn n held s))
    (start : ∀ i s k, admission i s = .run k → I s → I (settle s.self k s))
    (agent : ∀ a s, I s → I (agentTurn a s)) {s t : State} (hs : I s) (h : step s = .next t) : I t := by
  rcases step_cases h with rfl | ⟨r, why, -, -, rfl⟩ | ⟨r, i, -, -, h⟩ | ⟨a, rfl⟩ | ⟨n, held, rfl⟩
  · exact turn s hs
  · exact refuse _ _ (issue r _ (turn s hs))
  · have hu := issue r _ (turn s hs)
    generalize s.afterTurn.issue r = u at h hu
    rcases h with h | h
    · rw [exec_eq_runAdmitted] at h
      rcases runAdmitted_cases h with ⟨q, -, rfl⟩ | ⟨k, ad, ready, rfl⟩
      · exact refuse q u hu
      · obtain ⟨n, ends, -⟩ := reaches_runTask ready k
        rw [← ends]
        exact Function.Iterate.rec I (start i u k ad hu) (agent u.self) n
    · rcases beginAdmitted_cases h with ⟨q, -, rfl⟩ | ⟨k, ad, -, rfl⟩
      · exact refuse q u hu
      · exact start i u k ad hu
  · exact agent a _ (turn s hs)
  · exact foreign n held _ (turn s hs)

section
variable {I : State → Prop} {ok : MicroStep → Prop} {a : Nat}
  (act : ∀ m l s, ok m → I s → (perform a m l s).Keeps (fun _ t => I t) ok s)
  (raise : ∀ pc site c s, I s → I (s.raise a pc site c)) (park : ∀ t s, (∀ m ∈ t.rest, ok m) → I s → I (s.park a t))
  (finish : ∀ r x s, I s → I (s.finish a r x))

include park finish in
theorem settle_invariant {t : Task} (rest : ∀ m ∈ t.rest, ok m) {s : State} (hs : I s) : I (settle a t s) := by
  unfold settle
  split
  · exact finish _ _ s hs
  · exact park t s rest hs

include act raise park finish

theorem advanceWith_invariant {J : Task → State → State}
    (branch : ∀ t s, (∀ m ∈ t.rest, ok m) → I s → I (J t s)) (r : Op) (x : Option Result) {ms : List MicroStep}
    (l : Locals) {s : State} (hms : ∀ m ∈ ms, ok m) (hs : I s) : I (advanceWith J a r x ms l s) := by
  induction ms generalizing l s with
  | nil => exact finish r x s hs
  | cons m ms ih =>
    obtain ⟨hm, rest⟩ := List.forall_mem_cons.mp hms
    have kept := act m l s hm hs
    cases e : perform a m l s <;> rw [e] at kept <;> simp only [advanceWith, e]
    case pass => exact ih _ rest kept
    case moved => exact settle_invariant park finish rest kept
    case jump => exact settle_invariant park finish kept.2 kept.1
    case branch => exact branch _ _ kept.2 kept.1
    case blocked => exact park _ s hms hs
    case fault => exact raise _ _ _ _ kept

/-- A predicate kept by every action of the expansion, by faulting, by standing before lines of it and by finishing is
kept by a micro-step of the agent. -/
theorem advance_invariant {t : Task} {s : State} (rest : ∀ m ∈ t.rest, ok m) (hs : I s) : I (advance a t s) :=
  advanceWith_invariant act raise park finish
    (fun u _ hu h => advanceWith_invariant act raise park finish
      (fun _ _ hv h => settle_invariant park finish hv h) u.req u.result u.loc hu h)
    t.req t.result t.loc rest hs

end

/-! ### The canonical form -/

/-- Where the line opens a session, it is one of the first `n` (10_state.md R34). -/
def OpensBelow (n : Nat) (m : MicroStep) : Prop := ∀ sid, m.act = .sessOpen sid → sid < n

/-- The action opens no session. -/
def Act.opensNone : Act → Bool
  | .sessOpen _ => false
  | _ => true

theorem AllActs.opensBelow {ms : List MicroStep} (h : AllActs Act.opensNone ms) (n : Nat) : ∀ m ∈ ms, OpensBelow n m :=
  fun m hm sid e => by simpa [e, Act.opensNone] using h m hm

/-- An admitted request opens a session only as EV_OPEN, whose duty the identifier meets (43_session_lifecycle.md
R165). -/
theorem admission_opensBelow {i : Instr} {s : State} {t : Task} (h : admission i s = .run t) :
    ∀ m ∈ t.rest, OpensBelow s.params.maxSessions m := by
  have transmits := allActs_transmitSteps (q := Act.opensNone) (fun _ => rfl) (fun _ _ => rfl) fun _ => rfl
  have releases := allActs_releaseSteps (q := Act.opensNone) rfl (fun _ => rfl) fun _ => rfl
  have acquires := allActs_acquireSteps (q := Act.opensNone) (fun _ _ => rfl) (fun _ => rfl) fun _ => rfl
  have inits := allActs_initRunSteps (q := Act.opensNone) (fun _ => rfl) (fun _ _ => rfl) (fun _ => rfl) rfl
  cases i with
  | acquire mask => cases Admission.task_run h; exact (acquires s.params mask).opensBelow _
  | release mask => cases Admission.task_run h; exact (releases s.params mask).opensBelow _
  | setlevel g v =>
    cases Admission.task_run h
    exact (allActs_setlevelSteps (fun _ => rfl) (fun _ _ => rfl) g v).opensBelow _
  | transmit w => cases Admission.task_run h; exact (transmits s.params w).opensBelow _
  | delayUs n | delayMs n =>
    cases Admission.task_run h
    exact AllActs.opensBelow (by simp [Act.opensNone]) _
  | lock | unlock =>
    cases Admission.task_run h
    exact AllActs.opensBelow (by simp [Act.opensNone]) _
  | initRun => cases Admission.task_run h; exact (inits s.params).opensBelow _
  | evLoad =>
    cases Admission.task_run (underDuty_run h)
    exact AllActs.opensBelow (by simp [evLoadSteps, acquires, inits, Act.opensNone]) _
  | evUnload =>
    cases Admission.task_run (underDuty_run h)
    exact AllActs.opensBelow (by simp [evUnloadSteps, transmits, releases, Act.opensNone]) _
  | evOpen sid =>
    have duty : (s.loaded == .loaded && s.isSession (sidOf sid) && !s.isOpen (sidOf sid)) = true := by
      by_contra broken
      simp [admission, admitEvOpen, underDuty, broken] at h
    cases Admission.task_run (underDuty_run h)
    simp only [Bool.and_eq_true] at duty
    obtain ⟨⟨-, session⟩, -⟩ := duty
    intro m hm n e
    simp only [eventLines, List.map_cons, List.map_nil, List.mem_singleton] at hm
    subst hm
    cases e
    simpa [State.isSession] using session
  | evClose sid =>
    cases Admission.task_run (underDuty_run h)
    refine AllActs.opensBelow ?_ _
    unfold evCloseSteps
    split <;> simp [closeRelease, releases, Act.opensNone]
  | evControl sid => cases Admission.task_run (underDuty_run h); exact allActs_nil.opensBelow _
  | reserved0 low => cases h
  | reservedF low => cases h

/-- What an action does to the sessions: nothing, but for those that open or close one. -/
def SessMoves (x : Act) (s t : State) : Prop :=
  t.sess = s.sess ∨ ∃ n, x = .sessOpen n ∧ t.sess = setInsert n s.sess ∨ x = .sessClose n ∧ t.sess = setErase n s.sess

theorem Effect.sess {x : Act} {s t : State} (h : Effect s x t) : SessMoves x s t := by
  cases h with
  | sessOpen n => exact .inr ⟨n, .inl ⟨rfl, rfl⟩⟩
  | sessClose n => exact .inr ⟨n, .inr ⟨rfl, rfl⟩⟩
  | direct g => exact .inl (State.driveLow_sess g _)
  | write g v => exact .inl (State.writeLevel_sess g v _)
  | stays | beginInit | denied | granted | claim | giveBack | release | unclaim | wait | lock | unlock | setAcquired
  | registered | unregistrable | setReg | setLoaded | unregister | clearLoad => exact .inl rfl

theorem perform_sess (a : Nat) (m : MicroStep) (l : Locals) (s : State) :
    (perform a m l s).Keeps (SessMoves m.act) (fun m => m.act.opensNone = true) s :=
  perform_keeps (fun _ => Effect.sess) (fun _ got _ => allActs_rollback (q := Act.opensNone) (fun _ => rfl) got)
    (fun sid _ => (allActs_closeTail (q := Act.opensNone) sid).mpr ⟨rfl, rfl⟩) a l

/-- The canonical form under given launch parameters. -/
def CanonicalUnder (p : Params) (s : State) : Prop := s.params = p ∧ s.Canonical

section
variable {p : Params} {s : State}

theorem CanonicalUnder.of_same (h : CanonicalUnder p s) {t : State} (params : t.params = s.params)
    (sess : t.sess = s.sess) (foreign : t.foreign = s.foreign) (agents : t.agents = s.agents) : CanonicalUnder p t := by
  unfold CanonicalUnder State.Canonical at *
  rwa [params, sess, foreign, agents]

theorem CanonicalUnder.foreignTurn (h : CanonicalUnder p s) (n : Nat) (held : Bool) :
    CanonicalUnder p (foreignTurn n held s) := by
  unfold Machine.foreignTurn
  split
  · exact h
  · obtain ⟨params, sess, foreign, agents, below, tasks⟩ := h
    refine ⟨params, sess, ?_, agents, below, tasks⟩
    show setWf (if held then setInsert n s.foreign else setErase n s.foreign)
    split
    · exact setInsert_wf n foreign
    · exact setErase_wf n foreign

theorem CanonicalUnder.park (h : CanonicalUnder p s) (a : Nat) {t : Task}
    (rest : ∀ m ∈ t.rest, OpensBelow p.maxSessions m) : CanonicalUnder p (s.park a t) := by
  obtain ⟨rfl, sess, foreign, agents, below, tasks⟩ := h
  refine ⟨rfl, sess, foreign, mapPut_wf a _ agents, below, fun b u hu => ?_⟩
  rcases mem_mapPut hu with e | hu
  · cases e; exact rest
  · exact tasks b u hu

theorem CanonicalUnder.raise (h : CanonicalUnder p s) (a : Nat) (pc site : Pc) (c : FaultCode) :
    CanonicalUnder p (s.raise a pc site c) := by
  obtain ⟨rfl, sess, foreign, agents, below, tasks⟩ := h
  refine ⟨rfl, sess, foreign, mapPut_wf a _ agents, below, fun b u hu => ?_⟩
  rcases mem_mapPut hu with e | hu
  · cases e
  · exact tasks b u hu

theorem CanonicalUnder.finish (h : CanonicalUnder p s) (a : Nat) (r : Op) (x : Option Result) :
    CanonicalUnder p (s.finish a r x) := by
  obtain ⟨rfl, sess, foreign, agents, below, tasks⟩ := h
  exact ⟨rfl, sess, foreign, mapErase_wf a agents, below, fun b u hu => tasks b u ((mapErase_sublist a _).subset hu)⟩

theorem CanonicalUnder.act (h : CanonicalUnder p s) {m : MicroStep} (opens : OpensBelow p.maxSessions m) {t : State}
    (steady : Steady s t) (moves : SessMoves m.act s t) : CanonicalUnder p t := by
  obtain ⟨agents, -, foreign, params, -⟩ := steady
  rcases moves with same | ⟨n, ⟨open_n, sess⟩ | ⟨-, sess⟩⟩
  · exact h.of_same params same foreign agents
  all_goals
    obtain ⟨rfl, wf, wf_foreign, wf_agents, below, tasks⟩ := h
    unfold CanonicalUnder State.Canonical
    rw [params, sess, foreign, agents]
  · refine ⟨rfl, setInsert_wf n wf, wf_foreign, wf_agents, fun k hk => ?_, tasks⟩
    rcases (mem_setInsert n k s.sess).mp hk with rfl | hk
    · exact opens k open_n
    · exact below k hk
  · exact ⟨rfl, setErase_wf n wf, wf_foreign, wf_agents, fun k hk => below k ((setErase_sublist n _).subset hk), tasks⟩

/-- Performing a line keeps the canonical form and leaves only lines that open sessions there are. -/
theorem CanonicalUnder.perform (h : CanonicalUnder p s) (a : Nat) {m : MicroStep} (opens : OpensBelow p.maxSessions m)
    (l : Locals) : (perform a m l s).Keeps (fun _ t => CanonicalUnder p t) (OpensBelow p.maxSessions) s := by
  have steady := perform_steady a m l s
  have sess := perform_sess a m l s
  cases e : Machine.perform a m l s <;> rw [e] at steady sess
  case pass => exact h.act opens steady sess
  case moved => exact h.act opens steady sess
  case jump => exact ⟨h.act opens steady.1 sess.1, AllActs.opensBelow sess.2 _⟩
  case branch => exact ⟨h.act opens steady.1 sess.1, AllActs.opensBelow sess.2 _⟩
  case blocked => trivial
  case fault => exact h.act opens steady sess

theorem CanonicalUnder.agentTurn (h : CanonicalUnder p s) (a : Nat) : CanonicalUnder p (agentTurn a s) := by
  unfold Machine.agentTurn
  split
  · next t running =>
    refine advance_invariant (fun m l s opens h => h.perform a opens l) (fun pc site c s h => h.raise a pc site c)
      (fun t s rest h => h.park a rest) (fun r x s h => h.finish a r x) (fun m hm n e => ?_) h
    obtain ⟨rfl, -, -, -, -, tasks⟩ := h
    exact tasks a t (mapGet_mem running) m hm n e
  · exact h
  · exact h

end

/-- Settles O58: the sets and the map are written by operations that keep their form, and only an admitted EV_OPEN opens
a session. -/
theorem canonicalFormIsKept : Obligations.CanonicalFormIsKept := by
  intro s t hs h
  refine (step_invariant (I := CanonicalUnder s.params) ?_ ?_ ?_ ?_ ?_ ?_ ⟨rfl, hs⟩ h).2
  · exact fun s h => h.of_same rfl rfl rfl rfl
  · exact fun r s h => h.of_same rfl rfl rfl rfl
  · exact fun r s h => h.of_same rfl rfl rfl rfl
  · exact fun n held s h => h.foreignTurn n held
  · intro i u k ad hu
    refine settle_invariant (fun t s rest h => h.park u.self rest) (fun r x s h => h.finish u.self r x) ?_ hu
    rw [← hu.1]
    exact admission_opensBelow ad
  · exact fun a s h => h.agentTurn a

end Sys2Proof.Machine

/-! The seven lines as one group under the host events: but for their ACQUIRE and RELEASE of all seven lines, whatever
they do leaves ownership and direction alone (10_state.md R28, R29). -/

namespace Sys2Proof.Machine

/-! ### What leaves the group alone -/

/-- Ownership and direction of every line, and `linesAcquired`, are as they were. -/
def SameGroup (s t : State) : Prop :=
  (∀ g, (t.line g).own = (s.line g).own ∧ (t.line g).dir = (s.line g).dir) ∧ t.linesAcquired = s.linesAcquired

theorem SameGroup.of_same {s t : State} (lines : t.lines = s.lines) (acquired : t.linesAcquired = s.linesAcquired) :
    SameGroup s t := ⟨fun g => by simp only [State.line, lines, and_self], acquired⟩

theorem SameGroup.refl (s : State) : SameGroup s s := SameGroup.of_same rfl rfl

theorem SameGroup.trans {s t u : State} (h : SameGroup s t) (k : SameGroup t u) : SameGroup s u :=
  ⟨fun g => ⟨(k.1 g).1.trans (h.1 g).1, (k.1 g).2.trans (h.1 g).2⟩, k.2.trans h.2⟩

theorem SameGroup.allDriven {s t : State} (h : SameGroup s t) (all : s.AllDriven) : t.AllDriven :=
  fun g => (presents_of_keeps (h.1 g)).trans (all g)

theorem SameGroup.groupHeld {s t : State} (h : SameGroup s t) (held : s.GroupHeld) : t.GroupHeld := by
  obtain ⟨all_or_none, acquired⟩ := held
  refine ⟨all_or_none.imp h.allDriven fun unowned g => (h.1 g).1.trans (unowned g), fun now => h.allDriven ?_⟩
  exact acquired (h.2.symm.trans now)

theorem State.AllDriven.groupHeld {s : State} (all : s.AllDriven) : s.GroupHeld := ⟨.inl all, fun _ => all⟩

/-- A line of an expansion that neither takes nor gives back a line, nor writes `linesAcquired`. -/
def Act.keepsGroup : Act → Bool
  | .request _ _ => false
  | .claim _ => false
  | .direct _ => false
  | .giveBack _ => false
  | .release _ => false
  | .unclaim _ => false
  | .setAcquired _ => false
  | _ => true

theorem sameGroup_writeLevel (g : Sig) (v : Bool) (s : State) : SameGroup s (s.writeLevel g v) := by
  refine ⟨fun h => ?_, State.writeLevel_linesAcquired g v s⟩
  rw [State.line_writeLevel]
  split
  · next e => rw [e.1]; exact ⟨rfl, rfl⟩
  · exact ⟨rfl, rfl⟩

theorem Effect.sameGroup {x : Act} {s t : State} (h : Effect s x t) (ok : x.keepsGroup = true) : SameGroup s t := by
  cases h with
  | denied | granted | claim | direct | giveBack | release | unclaim | setAcquired => cases ok
  | write g v => exact (SameGroup.refl s).trans (sameGroup_writeLevel g v (s.tick 0))
  | stays | beginInit | wait | lock | unlock | registered | unregistrable | setReg | setLoaded | unregister | clearLoad
  | sessOpen | sessClose => exact SameGroup.refl s

theorem perform_sameGroup (a : Nat) (m : MicroStep) (l : Locals) (s : State) (ok : m.act.keepsGroup = true) :
    (perform a m l s).Keeps SameGroup (fun m => m.act.keepsGroup = true) s :=
  perform_keeps (fun _ h => h.sameGroup ok) (fun _ _ request => by rw [request] at ok; cases ok)
    (fun sid _ => (allActs_closeTail (q := Act.keepsGroup) sid).mpr ⟨rfl, rfl⟩) a l

/-- A run of such lines leaves the group alone, whatever it comes to. -/
theorem sameGroup_runTask (a : Nat) {t : Task} (ok : AllActs Act.keepsGroup t.rest) (s : State) :
    SameGroup s (runTask a t s) :=
  runTask_keeps (R := SameGroup) (ok := fun m => m.act.keepsGroup = true) SameGroup.trans (perform_sameGroup a)
    (fun _ _ _ => SameGroup.refl) (fun _ => SameGroup.refl) (fun _ => SameGroup.refl) ok

theorem sameGroup_runRest (a : Nat) {t : Task} (ok : AllActs Act.keepsGroup t.rest) (s : State) :
    SameGroup s (runRest a t s) := by
  refine runWith_keeps (R := SameGroup) (ok := fun m => m.act.keepsGroup = true) SameGroup.trans (perform_sameGroup a)
    (fun _ _ _ => SameGroup.refl) (fun _ => SameGroup.refl) (fun _ => SameGroup.refl) (fun u s _ _ => ?_) ok
  unfold settle
  split <;> exact SameGroup.refl s

theorem allActs_initRunSteps_keepsGroup (p : Params) : AllActs Act.keepsGroup (initRunSteps p) :=
  allActs_initRunSteps (fun _ => rfl) (fun _ _ => rfl) (fun _ => rfl) rfl p

/-! ### Runs that go on after a part of them -/

/-- A request's run goes on after a straight-line part of its expansion. -/
theorem runTask_append {a : Nat} {r : Op} {x : Option Result} {ms ns : List MicroStep} {l l' : Locals} {s s' : State}
    (h : runOn a ms l s = some (l', s')) :
    runTask a { req := r, result := x, loc := l, rest := ms ++ ns } s =
      runTask a { req := r, result := x, loc := l', rest := ns } s' := runWith_append h

theorem runOn_setAcquired (b : Bool) (a : Nat) (l : Locals) (s : State) :
    runOn a (eventLines [.setAcquired b]) l s = some (l.steps 1, { s.tick 0 with linesAcquired := b }) := rfl

/-- LOCK leaves the group alone: a run that starts with it waits there while the guard is held, and goes on with the
guard when it is free (43_session_lifecycle.md R145). -/
theorem runTask_lock_groupHeld {a : Nat} {r : Op} {x : Option Result} {ns : List MicroStep} {l : Locals} {s : State}
    (held : s.GroupHeld)
    (go : ∀ u : State, u.GroupHeld → u.lockOwner = some a → u.params = s.params →
      (runTask a { req := r, result := x, loc := l.steps 1, rest := ns } u).GroupHeld) :
    (runTask a { req := r, result := x, loc := l, rest := lockSteps ++ ns } s).GroupHeld := by
  cases guard : s.lockOwner with
  | none =>
    rw [runTask_append (runOn_lock guard a l)]
    exact go _ ((SameGroup.refl s).groupHeld held) rfl rfl
  | some b =>
    have waits : runTask a { req := r, result := x, loc := l, rest := lockSteps ++ ns } s =
        s.park a { req := r, result := x, loc := l, rest := lockSteps ++ ns } := by
      simp [lockSteps, checked, numbered, runTask, runWith, perform, performLock, guard]
    rw [waits]
    exact (SameGroup.refl s).groupHeld held

/-- The branch of EV_CLOSE under refcount: only the last session's goes on to the release (43_session_lifecycle.md
R160, R162). -/
theorem runTask_ifLast (a sid : Nat) (r : Op) (x : Option Result) (ns : List MicroStep) (l : Locals) (s : State) :
    runTask a { req := r, result := x, loc := l, rest := eventLines [.ifLast sid] ++ ns } s =
      if s.openCount = 1 then runTask a { req := r, result := x, loc := l, rest := ns } s
      else runRest a { req := r, result := x, loc := l, rest := closeTail sid } s := by
  by_cases last : s.openCount = 1 <;> simp [eventLines, runTask, runWith, perform, last]

/-! ### ACQUIRE of all lines -/

/-- A consistent line the block does not hold is as RELEASE leaves it (10_state.md R26). -/
theorem Line.eq_free {l : Line} (consistent : l.Consistent) (unheld : l.held = false) : l = Line.free := by
  obtain ⟨granted, own⟩ : l.granted = false ∧ l.own = false := by simpa [Line.held] using unheld
  have dir : l.dir = .unset := consistent.1 own
  have lvl : l.lvl = .z := consistent.2.1 dir
  cases l
  simp_all [Line.free]

/-- The first refused request of an ACQUIRE ends it, and all that was to follow, with every line as it was
(40_pin_controller.md R93, R98). -/
theorem runTask_acquire_refused {s : State} (wf : s.params.wf = true) (consistent : s.LinesConsistent)
    {mask : BitVec 7} (refused : ¬ s.Claimable mask) (a : Nat) (r : Op) (x : Option Result) (after : List MicroStep)
    (l : Locals) :
    ∃ t, runTask a { req := r, result := x, loc := l, rest := acquireSteps s.params mask ++ after } s =
        State.finish a r (some (.err .resourceUnavailable)) t ∧ t.lines = s.lines ∧ SameApartFromLines s t := by
  have some_taken : ∃ g ∈ chosen s.params mask, s.lineTaken (s.pin g) = true := by
    simpa [State.claimable_iff wf] using refused
  obtain ⟨pre, g, post, parts, free, taken⟩ := split_at_first (fun g => s.lineTaken (s.pin g)) some_taken
  have nodup := parts ▸ chosen_nodup wf mask
  obtain ⟨claimed, -, claimed_lines⟩ := claimAll_spec pre s
  obtain ⟨dropped, -, dropped_lines⟩ := dropAll_spec pre.reverse (((claimAll pre s).tick 0).denied g)
  refine ⟨_, ?_, PerSig.ext_get fun k => ?_, (claimed.trans (SameApartFromLines.refl _)).trans dropped⟩
  · have run := runWith_refused (J := runRest a) wf nodup free taken a 0 r x []
      (numbered .acquire (0 + (requestActs [] (chosen s.params mask)).length) ((chosen s.params mask).map Act.direct) ++
        after) l
    rw [← parts, ← List.append_assoc, ← numbered_append] at run
    exact run.trans (runWith_straight (runOn_rollback pre a _ _))
  · show (dropAll pre.reverse (((claimAll pre s).tick 0).denied g)).line k = s.line k
    simp only [dropped_lines, List.mem_reverse]
    split
    · next mem =>
      have unheld : (s.line k).held = false := by
        have free_k := free k mem
        rw [← Bool.not_eq_true, State.lineTaken_iff wf] at free_k
        simpa using fun h => free_k (.inr h)
      exact (Line.eq_free (consistent k) unheld).symm
    · next out =>
      show (claimAll pre s).line k = s.line k
      rw [claimed_lines, if_neg out]

theorem runTask_acquire_refused_sameGroup {s : State} (wf : s.params.wf = true) (consistent : s.LinesConsistent)
    {mask : BitVec 7} (refused : ¬ s.Claimable mask) (a : Nat) (r : Op) (x : Option Result) (after : List MicroStep)
    (l : Locals) :
    SameGroup s (runTask a { req := r, result := x, loc := l, rest := acquireSteps s.params mask ++ after } s) := by
  obtain ⟨t, run, lines, -, driver, -⟩ := runTask_acquire_refused wf consistent refused a r x after l
  rw [run]
  exact SameGroup.of_same (s := s) lines driver.1

/-- EV_LOAD holds all the lines from its ACQUIRE on, or ends with the lines as they were. -/
theorem evLoad_groupHeld {s : State} (wf : s.params.wf = true) (consistent : s.LinesConsistent) (held : s.GroupHeld)
    (a : Nat) (r : Op) (x : Option Result) (l : Locals) :
    (runTask a { req := r, result := x, loc := l, rest := evLoadSteps s.params } s).GroupHeld := by
  simp only [evLoadSteps, List.append_assoc]
  by_cases claimable : s.Claimable allSignals
  · rw [runTask_append (runOn_acquire wf claimable a l)]
    obtain ⟨-, -, lines⟩ := acquire_spec wf allSignals
    generalize driveAll (chosen s.params allSignals) (claimAll (chosen s.params allSignals) s) = u at lines
    have driven : u.AllDriven := fun g => by rw [lines, selects_allSignals]; rfl
    rw [runTask_append (runOn_setAcquired true a _ u)]
    refine State.AllDriven.groupHeld ((sameGroup_runTask a ?_ _).allDriven driven)
    simp [allActs_initRunSteps_keepsGroup, Act.keepsGroup]
  · exact (runTask_acquire_refused_sameGroup wf consistent claimable a r x _ l).groupHeld held

/-! ### RELEASE of all lines -/

/-- RELEASE of all lines under the guard, on lines held as one group, frees them all, or there is nothing to release and
that is a fault (40_pin_controller.md R94, R95). -/
theorem runOn_releaseAll {a : Nat} {s : State} (wf : s.params.wf = true) (held : s.AllDriven ∨ s.NoneOwned)
    (guarded : s.lockOwner = some a) {l : Locals} (fresh : l.releasing = false) :
    (∃ l' t, runOn a (releaseSteps s.params allSignals) l s = some (l', t) ∧ t.NoneOwned) ∨
      s.NoneOwned ∧ s.params.releaseUnowned = .fault := by
  have nodup := chosen_nodup wf allSignals
  have checks := runOn_checks (cs := [.guarded]) (s := s) (a := a) (by simp [Check.passes, State.holdsGuard, guarded])
    .release (releaseActs (chosen s.params allSignals)) l
  rcases held with driven | unowned
  · have owned : ∀ g, (s.line g).own = true := fun g => (Bool.and_eq_true_iff.mp (driven g)).1
    refine .inl ⟨_, _, checks.trans (runOn_releases nodup (fun g _ => owned g) a 0 fresh), fun g => ?_⟩
    rw [(releaseAll_spec (chosen s.params allSignals) s).2.2, if_pos ((mem_chosen wf _ g).mpr (selects_allSignals g))]
    rfl
  · cases policy : s.params.releaseUnowned with
    | fault => exact .inr ⟨unowned, rfl⟩
    | noop =>
      refine .inl ⟨_, _, checks.trans (runOn_releases_noop nodup policy a 0 fresh), ?_⟩
      rw [List.filter_eq_nil_iff.mpr fun g _ => by rw [unowned g]; exact Bool.false_ne_true]
      exact unowned

/-- RELEASE of all lines, none of them owned, faults at the first of them. -/
theorem runTask_releaseAll_faults {a : Nat} {s : State} (wf : s.params.wf = true) (unowned : s.NoneOwned)
    (fault : s.params.releaseUnowned = .fault) (guarded : s.lockOwner = some a) (r : Op) (x : Option Result)
    (after : List MicroStep) (l : Locals) :
    runTask a { req := r, result := x, loc := l, rest := releaseSteps s.params allSignals ++ after } s =
      s.raise a { op := r, k := l.k } { op := .release, k := 0 } .releaseUnowned := by
  have nodup := chosen_nodup wf allSignals
  have check : runOn a (checked .release [.guarded] []) l s = some (l, s) :=
    (runOn_checks (by simp [Check.passes, State.holdsGuard, guarded]) .release [] l).trans rfl
  have parts : releaseSteps s.params allSignals =
      checked .release [.guarded] [] ++ numbered .release 0 (releaseActs (chosen s.params allSignals)) := by
    simp [releaseSteps, checked, numbered]
  rw [parts, List.append_assoc, runTask_append check]
  cases lines : chosen s.params allSignals with
  | nil => exact absurd ((mem_chosen wf allSignals .e).mpr (selects_allSignals .e)) (by simp [lines])
  | cons g gs => exact runWith_unowned (pre := []) (lines ▸ nodup) fault (by simp) (unowned g) a 0 r x after l

/-- The release of EV_CLOSE and EV_UNLOAD, with `linesAcquired <- 0` and lines that leave the group alone after it. -/
theorem runTask_release_groupHeld {a : Nat} {s : State} (wf : s.params.wf = true) (held : s.GroupHeld)
    (guarded : s.lockOwner = some a) {after : List MicroStep} (ok : AllActs Act.keepsGroup after) (r : Op)
    (x : Option Result) {l : Locals} (fresh : l.releasing = false) :
    (runTask a { req := r, result := x, loc := l, rest := closeRelease s.params ++ after } s).GroupHeld := by
  rw [closeRelease, List.append_assoc]
  rcases runOn_releaseAll wf held.1 guarded fresh with ⟨l', t, run, freed⟩ | ⟨unowned, fault⟩
  · rw [runTask_append run, runTask_append (runOn_setAcquired false a l' t)]
    exact (sameGroup_runTask a ok _).groupHeld ⟨.inr freed, Bool.noConfusion⟩
  · rw [runTask_releaseAll_faults wf unowned fault guarded]
    exact (SameGroup.of_same (s := s) rfl rfl).groupHeld held

theorem evUnloadSteps_eq (p : Params) :
    evUnloadSteps p =
      lockSteps ++ (transmitSteps p (p.rom.get .clear) ++
        (closeRelease p ++ (unlockSteps ++ eventLines [.destroyNode, .destroyClass, .unregister, .clearLoad]))) := by
  simp only [evUnloadSteps, closeRelease, List.append_assoc]

/-- EV_UNLOAD sends its clear word on lines that are held, releases them, and leaves the group alone after that; with
`linesAcquired = 0` it faults before it touches a line (43_session_lifecycle.md R155, R156). -/
theorem evUnload_groupHeld {s : State} (wf : s.params.wf = true) (held : s.GroupHeld) (a : Nat) (r : Op)
    (x : Option Result) {l : Locals} (fresh : l.releasing = false) :
    (runTask a { req := r, result := x, loc := l, rest := evUnloadSteps s.params } s).GroupHeld := by
  rw [evUnloadSteps_eq]
  refine runTask_lock_groupHeld held fun u held_u guarded params => ?_
  rw [← params] at wf ⊢
  cases acquired : u.linesAcquired with
  | false =>
    rw [runTask, runWith_transmit_unowned guarded acquired]
    exact (SameGroup.refl u).groupHeld held_u
  | true =>
    rw [runTask_append (runOn_transmit guarded acquired u.params _ _)]
    obtain ⟨⟨driver, -, ⟨-, params_v, -⟩, guard_v, -⟩, lines⟩ :=
      applyAll_keeps (transmitActs_plain u.params (u.params.rom.get .clear)) u
    generalize applyAll (transmitActs u.params (u.params.rom.get .clear)) u = v at *
    rw [← params_v] at wf ⊢
    exact runTask_release_groupHeld wf (SameGroup.groupHeld ⟨lines, driver.1⟩ held_u) (guard_v.trans guarded)
      (by simp [Act.keepsGroup]) r x fresh

/-- EV_CLOSE releases the lines or leaves the group alone, by CLOSE_POLICY (43_session_lifecycle.md R160, R162). -/
theorem evClose_groupHeld {s : State} (wf : s.params.wf = true) (held : s.GroupHeld) (a sid : Nat) (r : Op)
    (x : Option Result) {l : Locals} (fresh : l.releasing = false) :
    (runTask a { req := r, result := x, loc := l, rest := evCloseSteps s.params sid } s).GroupHeld := by
  have tail : AllActs Act.keepsGroup (closeTail sid) := by simp [Act.keepsGroup]
  have release (u : State) (held_u : u.GroupHeld) (guarded : u.lockOwner = some a) (params : u.params = s.params) :
      (runTask a { req := r, result := x, loc := l.steps 1, rest := closeRelease s.params ++ closeTail sid }
        u).GroupHeld := by
    rw [← params] at wf ⊢
    exact runTask_release_groupHeld wf held_u guarded tail r x fresh
  unfold evCloseSteps
  split
  · rw [List.append_assoc]
    exact runTask_lock_groupHeld held release
  · simp only [List.append_assoc]
    refine runTask_lock_groupHeld held fun u held_u guarded params => ?_
    rw [runTask_ifLast]
    split
    · exact release u held_u guarded params
    · exact (sameGroup_runRest a tail u).groupHeld held_u
  · exact (sameGroup_runTask a (by simp [Act.keepsGroup]) s).groupHeld held

/-- Settles O51: EV_LOAD takes all the lines or none, EV_UNLOAD and EV_CLOSE give back all or none, and nothing else any
host event does touches the group. -/
theorem hostEventsKeepTheGroup : Obligations.HostEventsKeepTheGroup := by
  intro s t sid i hi wf consistent held h
  rw [exec_eq_runAdmitted] at h
  rcases runAdmitted_cases h with ⟨q, -, rfl⟩ | ⟨k, ad, -, rfl⟩
  · exact (SameGroup.refl s).groupHeld held
  · simp only [List.mem_cons, List.not_mem_nil, or_false] at hi
    rcases hi with rfl | rfl | rfl | rfl | rfl <;> cases Admission.task_run (underDuty_run ad)
    · exact evLoad_groupHeld wf consistent held s.self .evLoad (some .ok) Locals.start
    · exact evUnload_groupHeld wf held s.self .evUnload none rfl
    · exact (sameGroup_runTask s.self (by simp [Act.keepsGroup]) s).groupHeld held
    · exact evClose_groupHeld wf held s.self (sidOf sid) .evClose (some .ok) rfl
    · exact (sameGroup_runTask s.self allActs_nil s).groupHeld held

end Sys2Proof.Machine

/-! Who takes and frees the guard: an agent's own LOCK and UNLOCK alone, so no turn of another changes whether it holds
the guard (43_session_lifecycle.md R145, R146). -/

namespace Sys2Proof.Machine

/-- No agent but `a` has come to hold the guard or ceased to hold it. -/
def SameGuardOfOthers (a : Nat) (s t : State) : Prop := ∀ b, b ≠ a → t.holdsGuard b = s.holdsGuard b

theorem SameGuardOfOthers.of_owner {s t : State} (owner : t.lockOwner = s.lockOwner) (a : Nat) :
    SameGuardOfOthers a s t := fun b _ => by rw [State.holdsGuard, owner, State.holdsGuard]

theorem SameGuardOfOthers.trans {a : Nat} {s t u : State} (h : SameGuardOfOthers a s t)
    (k : SameGuardOfOthers a t u) : SameGuardOfOthers a s u := fun b ne => (k b ne).trans (h b ne)

/-- The action neither takes the guard nor frees it. -/
def Act.leavesGuard : Act → Bool
  | .lock => false
  | .unlock => false
  | _ => true

theorem Effect.lockOwner {x : Act} {s t : State} (h : Effect s x t) (leaves : x.leavesGuard = true) :
    t.lockOwner = s.lockOwner := by
  cases h with
  | lock | unlock => cases leaves
  | direct g => exact State.driveLow_lockOwner g _
  | write g v => exact State.writeLevel_lockOwner g v _
  | stays | beginInit | denied | granted | claim | giveBack | release | unclaim | wait | setAcquired | registered
  | unregistrable | setReg | setLoaded | unregister | clearLoad | sessOpen | sessClose => rfl

/-- LOCK takes a guard that nobody holds, and UNLOCK frees one that the agent itself holds. -/
theorem perform_sameGuardOfOthers (a : Nat) (m : MicroStep) (l : Locals) (s : State) :
    (perform a m l s).Keeps (SameGuardOfOthers a) (fun _ => True) s := by
  cases act : m.act with
  | lock =>
    simp only [perform, act, performLock]
    split
    · next free => exact fun b ne => by simp [State.holdsGuard, free, ne.symm]
    · trivial
  | unlock =>
    simp only [perform, act, performUnlock]
    split
    · next own =>
      have owner : s.lockOwner = some a := beq_iff_eq.mp own
      exact fun b ne => by simp [State.holdsGuard, owner, ne.symm]
    · exact .of_owner rfl a
  | _ =>
    have leaves : m.act.leavesGuard = true := by rw [act]; rfl
    exact perform_keeps (fun t h => .of_owner (h.lockOwner leaves) a) (fun _ _ _ _ _ => trivial)
      (fun _ _ _ _ => trivial) a l

theorem sameGuardOfOthers_settle (a : Nat) (t : Task) (s : State) : SameGuardOfOthers a s (settle a t s) := by
  unfold settle
  split <;> exact .of_owner rfl a

theorem sameGuardOfOthers_runTask (a : Nat) (t : Task) (s : State) : SameGuardOfOthers a s (runTask a t s) :=
  runTask_keeps (R := SameGuardOfOthers a) (ok := fun _ => True) SameGuardOfOthers.trans
    (fun m l s _ => perform_sameGuardOfOthers a m l s) (fun _ _ _ _ => .of_owner rfl a) (fun _ _ => .of_owner rfl a)
    (fun _ _ => .of_owner rfl a) fun _ _ => trivial

theorem sameGuardOfOthers_advance (a : Nat) (t : Task) (s : State) : SameGuardOfOthers a s (advance a t s) :=
  advance_keeps (R := SameGuardOfOthers a) (ok := fun _ => True) SameGuardOfOthers.trans
    (fun m l s _ => perform_sameGuardOfOthers a m l s) (fun _ _ _ _ => .of_owner rfl a) (fun _ _ => .of_owner rfl a)
    (fun _ _ => .of_owner rfl a) fun _ _ => trivial

theorem sameGuardOfOthers_agentTurn (a : Nat) (s : State) : SameGuardOfOthers a s (agentTurn a s) := by
  unfold agentTurn
  split
  · exact sameGuardOfOthers_advance a _ s
  · exact .of_owner rfl a
  · exact .of_owner rfl a

theorem sameGuardOfOthers_request {i : Instr} {s t : State} (h : exec i s = .next t ∨ begin i s = .next t) :
    SameGuardOfOthers s.self s t := by
  rcases h with h | h
  · rw [exec_eq_runAdmitted] at h
    rcases runAdmitted_cases h with ⟨r, -, rfl⟩ | ⟨k, -, -, rfl⟩
    · exact .of_owner rfl s.self
    · exact sameGuardOfOthers_runTask s.self k s
  · rcases beginAdmitted_cases h with ⟨r, -, rfl⟩ | ⟨k, -, -, rfl⟩
    · exact .of_owner rfl s.self
    · exact sameGuardOfOthers_settle s.self k s

end Sys2Proof.Machine

/-! The guard discipline (20_memory.md R59; 43_session_lifecycle.md R147): every admitted request keeps the rule whether
its agent holds the guard or not, and performing a line leaves a rest that keeps it. -/

namespace Sys2Proof.Machine

/-! ### The rule along an expansion -/

/-- Whether the agent holds the guard after a line, from whether it did before: a check of the guard that holds shows
that it does (43_session_lifecycle.md R145 to R147). -/
def Act.guardAfter (x : Act) (held : Bool) : Bool :=
  match x with
  | .require .guarded => true
  | .lock => true
  | .unlock => false
  | _ => held

/-- The lines that stand only where the guard is held (43_session_lifecycle.md R147). -/
def Act.needsGuard : Act → Bool
  | .write _ _ => true
  | .release _ => true
  | .unclaim _ => true
  | .beginInit => true
  | _ => false

/-- The rule, line by line. -/
theorem guardOk_cons (held : Bool) (m : MicroStep) (ms : List MicroStep) :
    guardOk held (m :: ms) = ((!m.act.needsGuard || held) && guardOk (m.act.guardAfter held) ms) := by
  rw [guardOk]
  cases m.act with
  | require c => cases c <;> rfl
  | _ => rfl

theorem guardOk_tail {held : Bool} {m : MicroStep} {ms : List MicroStep} (h : guardOk held (m :: ms) = true) :
    guardOk (m.act.guardAfter held) ms = true := by
  rw [guardOk_cons, Bool.and_eq_true] at h
  exact h.2

/-- The action neither needs the guard nor says whether it is held. -/
def Act.ignoresGuard : Act → Bool
  | .require .guarded => false
  | .lock => false
  | .unlock => false
  | x => !x.needsGuard

theorem guardOk_append_of_ignoring {xs : List MicroStep} (h : AllActs Act.ignoresGuard xs) (held : Bool)
    (ys : List MicroStep) : guardOk held (xs ++ ys) = guardOk held ys := by
  induction xs with
  | nil => rfl
  | cons m ms ih =>
    have ignores : m.act.ignoresGuard = true := h m List.mem_cons_self
    have line : m.act.needsGuard = false ∧ m.act.guardAfter held = held := by
      cases act : m.act with
      | require c => cases c <;> simp_all [Act.ignoresGuard, Act.needsGuard, Act.guardAfter]
      | _ => simp_all [Act.ignoresGuard, Act.needsGuard, Act.guardAfter]
    rw [List.cons_append, guardOk_cons, line.1, line.2, ih h.tail]
    rfl

theorem guardOk_of_ignoring {xs : List MicroStep} (h : AllActs Act.ignoresGuard xs) (held : Bool) :
    guardOk held xs = true := by
  have rule := guardOk_append_of_ignoring h held []
  rwa [List.append_nil] at rule

/-- The action does not free the guard. -/
def Act.keepsGuard : Act → Bool
  | .unlock => false
  | _ => true

/-- Under the guard, lines that do not free it keep the rule. -/
theorem guardOk_append_of_keeping {xs : List MicroStep} (h : AllActs Act.keepsGuard xs) (ys : List MicroStep) :
    guardOk true (xs ++ ys) = guardOk true ys := by
  induction xs with
  | nil => rfl
  | cons m ms ih =>
    have keeps : m.act.keepsGuard = true := h m List.mem_cons_self
    have held : m.act.guardAfter true = true := by
      cases act : m.act with
      | unlock => rw [act] at keeps; cases keeps
      | require c => cases c <;> rfl
      | _ => rfl
    rw [List.cons_append, guardOk_cons, held, ih h.tail, Bool.or_true, Bool.true_and]

theorem guardOk_of_keeping {xs : List MicroStep} (h : AllActs Act.keepsGuard xs) : guardOk true xs = true := by
  have rule := guardOk_append_of_keeping h []
  rwa [List.append_nil] at rule

/-- After LOCK the guard is held. -/
theorem guardOk_lockSteps (held : Bool) (ys : List MicroStep) : guardOk held (lockSteps ++ ys) = guardOk true ys := rfl

/-- An operation whose first check is the guard's, and which does not free it, may start without it. -/
theorem guardOk_of_guarded {xs : List MicroStep} (first : xs.head?.map MicroStep.act = some (.require .guarded))
    (keeps : AllActs Act.keepsGuard xs) (held : Bool) : guardOk held xs = true := by
  cases xs with
  | nil => rfl
  | cons m ms =>
    have act : m.act = .require .guarded := Option.some.inj first
    rw [guardOk_cons, act]
    exact guardOk_of_keeping keeps.tail

/-- Freeing the guard and closing the session need no guard. -/
theorem guardOk_closeTail (held : Bool) (sid : Nat) : guardOk held (closeTail sid) = true := rfl

theorem guardOk_rollback (held : Bool) (got : List Sig) : guardOk held (rollback got) = true :=
  guardOk_of_ignoring (allActs_rollback (fun _ => rfl) got) held

/-! ### Every admitted request keeps the rule -/

theorem transmitSteps_keepsGuard (p : Params) (w : Byte) : AllActs Act.keepsGuard (transmitSteps p w) :=
  allActs_transmitSteps (fun _ => rfl) (fun _ _ => rfl) (fun _ => rfl) p w

theorem releaseSteps_keepsGuard (p : Params) (mask : BitVec 7) : AllActs Act.keepsGuard (releaseSteps p mask) :=
  allActs_releaseSteps rfl (fun _ => rfl) (fun _ => rfl) p mask

theorem initRunSteps_keepsGuard (p : Params) : AllActs Act.keepsGuard (initRunSteps p) :=
  allActs_initRunSteps (fun _ => rfl) (fun _ _ => rfl) (fun _ => rfl) rfl p

theorem acquireSteps_ignoresGuard (p : Params) (mask : BitVec 7) : AllActs Act.ignoresGuard (acquireSteps p mask) :=
  allActs_acquireSteps (fun _ _ => rfl) (fun _ => rfl) (fun _ => rfl) p mask

theorem guardOk_evLoadSteps (p : Params) (held : Bool) : guardOk held (evLoadSteps p) = true := by
  simp only [evLoadSteps, List.append_assoc]
  rw [guardOk_append_of_ignoring (acquireSteps_ignoresGuard p allSignals),
    guardOk_append_of_ignoring (by simp [Act.ignoresGuard, Act.needsGuard]), guardOk_lockSteps,
    guardOk_append_of_keeping (initRunSteps_keepsGuard p)]
  rfl

theorem guardOk_evUnloadSteps (p : Params) (held : Bool) : guardOk held (evUnloadSteps p) = true := by
  simp only [evUnloadSteps, List.append_assoc]
  rw [guardOk_lockSteps, guardOk_append_of_keeping (transmitSteps_keepsGuard p _),
    guardOk_append_of_keeping (releaseSteps_keepsGuard p allSignals)]
  rfl

theorem guardOk_evCloseSteps (p : Params) (sid : Nat) (held : Bool) : guardOk held (evCloseSteps p sid) = true := by
  have release : guardOk true (closeRelease p ++ closeTail sid) = true := by
    rw [closeRelease, List.append_assoc, guardOk_append_of_keeping (releaseSteps_keepsGuard p allSignals)]
    rfl
  unfold evCloseSteps
  split
  · rw [List.append_assoc, guardOk_lockSteps, release]
  · simp only [List.append_assoc]
    rw [guardOk_lockSteps, guardOk_append_of_ignoring (by simp [Act.ignoresGuard, Act.needsGuard]), release]
  · rfl

/-- Every request keeps the rule from its first line on, whether its agent holds the guard then or not. -/
theorem admission_guardOk {i : Instr} {s : State} {t : Task} (h : admission i s = .run t) (held : Bool) :
    guardOk held t.rest = true := by
  cases i with
  | acquire mask =>
    cases Admission.task_run h
    exact guardOk_of_ignoring (acquireSteps_ignoresGuard s.params mask) held
  | release mask =>
    cases Admission.task_run h
    exact guardOk_of_guarded rfl (releaseSteps_keepsGuard s.params mask) held
  | setlevel g v => cases Admission.task_run h; rfl
  | transmit w =>
    cases Admission.task_run h
    exact guardOk_of_guarded rfl (transmitSteps_keepsGuard s.params w) held
  | delayUs n | delayMs n => cases Admission.task_run h; rfl
  | lock | unlock => cases Admission.task_run h; rfl
  | initRun =>
    cases Admission.task_run h
    exact guardOk_of_guarded rfl (initRunSteps_keepsGuard s.params) held
  | evLoad => cases Admission.task_run (underDuty_run h); exact guardOk_evLoadSteps s.params held
  | evUnload => cases Admission.task_run (underDuty_run h); exact guardOk_evUnloadSteps s.params held
  | evOpen sid => cases Admission.task_run (underDuty_run h); rfl
  | evClose sid => cases Admission.task_run (underDuty_run h); exact guardOk_evCloseSteps s.params (sidOf sid) held
  | evControl sid => cases Admission.task_run (underDuty_run h); rfl
  | reserved0 low => cases h
  | reservedF low => cases h

/-! ### The rule at one agent -/

/-- If the agent is in the middle of a request, it holds the guard where what remains needs it. -/
def State.RuleKept (s : State) (a : Nat) : Prop :=
  ∀ t, s.agentState a = some (.running t) → guardOk (s.holdsGuard a) t.rest = true

theorem mem_iff_mapGet {α : Type} {m : List (Nat × α)} (wf : mapWf m) (k : Nat) (v : α) :
    (k, v) ∈ m ↔ mapGet k m = some v := by
  refine ⟨fun mem => ?_, mapGet_mem⟩
  induction m with
  | nil => cases mem
  | cons p m ih =>
    obtain ⟨j, w⟩ := p
    simp only [mapWf, List.map_cons] at wf
    obtain ⟨first, wf⟩ := List.pairwise_cons.mp wf
    rcases List.mem_cons.mp mem with e | mem
    · cases e; simp [mapGet]
    · have ne : k ≠ j := (first k (List.mem_map_of_mem mem)).ne'
      rw [mapGet, if_neg ne]
      exact ih wf mem

/-- The discipline is the rule at every agent. -/
theorem guardDiscipline_iff (s : State) : s.GuardDiscipline ↔ mapWf s.agents ∧ ∀ a, s.RuleKept a :=
  and_congr_right fun wf =>
    forall_congr' fun a => forall_congr' fun t => imp_congr_left (mem_iff_mapGet wf a (.running t))

/-- After a turn of an agent that leaves the others alone, only its own rest has to be looked at. -/
theorem State.GuardDiscipline.after_turn {s t : State} (h : s.GuardDiscipline) {a : Nat} (wf : mapWf t.agents)
    (others : SameOthers a s t) (guard : SameGuardOfOthers a s t) (own : t.RuleKept a) : t.GuardDiscipline := by
  obtain ⟨-, rules⟩ := (guardDiscipline_iff s).mp h
  refine (guardDiscipline_iff t).mpr ⟨wf, fun b => ?_⟩
  by_cases e : b = a
  · exact e ▸ own
  · unfold State.RuleKept
    rw [others b e, guard b e]
    exact rules b

theorem ruleKept_settle {a : Nat} {t : Task} {s : State} (wf : mapWf s.agents)
    (rule : guardOk (s.holdsGuard a) t.rest = true) : (settle a t s).RuleKept a := by
  unfold settle
  split
  · intro u running
    rw [State.agentState_finish_self wf] at running
    cases running
  · intro u running
    rw [State.agentState_park_self] at running
    cases running
    exact rule

/-! ### Performing a line leaves a rest that keeps the rule -/

/-- What performing a line comes to for the guard: the agent holds it afterwards as the line says, and lines that
replace what is left keep the rule with the guard and without it. -/
def Performed.LeavesGuard (a : Nat) (x : Act) (s : State) : Performed → Prop
  | .pass _ t => t.holdsGuard a = x.guardAfter (s.holdsGuard a)
  | .moved _ t => t.holdsGuard a = x.guardAfter (s.holdsGuard a)
  | .jump rest _ _ => ∀ held, guardOk held rest = true
  | .branch rest _ => ∀ held, guardOk held rest = true
  | .blocked => True
  | .fault _ _ => True

/-- The lines that do not speak of the guard leave it as it is. -/
theorem perform_leavesGuard_of_effect {m : MicroStep} {s : State} {a : Nat} (leaves : m.act.leavesGuard = true)
    (same : m.act.guardAfter (s.holdsGuard a) = s.holdsGuard a) (l : Locals) :
    (perform a m l s).LeavesGuard a m.act s := by
  have has := perform_hasEffect a m l s
  have owner : ∀ {t}, Effect s m.act t → t.holdsGuard a = m.act.guardAfter (s.holdsGuard a) := fun out => by
    rw [same, State.holdsGuard, out.lockOwner leaves, State.holdsGuard]
  cases e : perform a m l s <;> rw [e] at has
  case pass => exact owner has.2
  case moved => exact owner has.2
  case jump =>
    obtain ⟨⟨-, got, -, rfl⟩, -⟩ := has
    exact fun held => guardOk_rollback held got
  case branch =>
    obtain ⟨⟨sid, -, rfl⟩, -⟩ := has
    exact fun held => guardOk_closeTail held sid
  case blocked => trivial
  case fault => trivial

theorem perform_leavesGuard (a : Nat) (m : MicroStep) (l : Locals) (s : State) :
    (perform a m l s).LeavesGuard a m.act s := by
  cases act : m.act with
  | lock =>
    simp only [perform, act, performLock]
    split
    · exact beq_self_eq_true _
    · trivial
  | unlock =>
    simp only [perform, act, performUnlock]
    split
    · rfl
    · trivial
  | require c =>
    cases c with
    | guarded =>
      simp only [perform, act]
      split
      · next held => exact held
      · trivial
    | _ => exact act ▸ perform_leavesGuard_of_effect (by rw [act]; rfl) (by rw [act]; rfl) l
  | _ => exact act ▸ perform_leavesGuard_of_effect (by rw [act]; rfl) (by rw [act]; rfl) l

theorem mapWf_settle (a : Nat) (t : Task) {s : State} (wf : mapWf s.agents) : mapWf (settle a t s).agents := by
  unfold settle
  split
  · exact mapErase_wf a wf
  · exact mapPut_wf a _ wf

theorem mapWf_advance (a : Nat) (t : Task) {s : State} : mapWf s.agents → mapWf (advance a t s).agents :=
  advance_keeps (R := fun s t => mapWf s.agents → mapWf t.agents) (ok := fun _ => True) (fun h k wf => k (h wf))
    (fun m l s _ => (perform_steady a m l s).mono fun _ steady wf => by rwa [steady.1])
    (fun _ _ _ _ => mapPut_wf a _) (fun _ _ => mapPut_wf a _) (fun _ _ => mapErase_wf a) fun _ _ => trivial

/-- One micro-step of an agent whose rest keeps the rule leaves it before a rest that does. -/
theorem ruleKept_advanceWith {J : Task → State → State} {a : Nat}
    (branch : ∀ t s, mapWf s.agents → guardOk (s.holdsGuard a) t.rest = true → (J t s).RuleKept a) (r : Op)
    (x : Option Result) (ms : List MicroStep) (l : Locals) {s : State} (wf : mapWf s.agents)
    (rule : guardOk (s.holdsGuard a) ms = true) : (advanceWith J a r x ms l s).RuleKept a := by
  induction ms generalizing l s with
  | nil => exact ruleKept_settle (t := { req := r, result := x, loc := l, rest := [] }) wf rule
  | cons m ms ih =>
    have agents := perform_steady a m l s
    have guard := perform_leavesGuard a m l s
    have tail := guardOk_tail rule
    cases e : perform a m l s <;> rw [e] at agents guard <;> simp only [advanceWith, e]
    case pass l' s' => exact ih l' (agents.1 ▸ wf) (by rw [show s'.holdsGuard a = _ from guard, tail])
    case moved l' s' => exact ruleKept_settle (agents.1 ▸ wf) (by rw [show s'.holdsGuard a = _ from guard, tail])
    case jump rest y s' => exact ruleKept_settle (agents.1.1 ▸ wf) (guard _)
    case branch rest s' => exact branch _ s' (agents.1.1 ▸ wf) (guard _)
    case blocked =>
      exact ruleKept_settle (t := { req := r, result := x, loc := l, rest := m :: ms }) wf rule
    case fault c s' =>
      intro u running
      rw [State.raiseAt, State.agentState_raise_self] at running
      cases running

theorem ruleKept_advance {a : Nat} {t : Task} {s : State} (wf : mapWf s.agents)
    (rule : guardOk (s.holdsGuard a) t.rest = true) : (advance a t s).RuleKept a :=
  ruleKept_advanceWith
    (fun u _ wf rule => ruleKept_advanceWith (fun _ _ => ruleKept_settle) u.req u.result u.rest u.loc wf rule)
    t.req t.result t.rest t.loc wf rule

theorem State.GuardDiscipline.settle {s : State} (h : s.GuardDiscipline) (a : Nat) {t : Task}
    (rule : guardOk (s.holdsGuard a) t.rest = true) : (settle a t s).GuardDiscipline :=
  h.after_turn (mapWf_settle a t h.1) (sameOthers_settle a t s) (sameGuardOfOthers_settle a t s)
    (ruleKept_settle h.1 rule)

theorem State.GuardDiscipline.agentTurn {s : State} (h : s.GuardDiscipline) (a : Nat) :
    (agentTurn a s).GuardDiscipline := by
  unfold Machine.agentTurn
  split
  · next t running =>
    have rule : guardOk (s.holdsGuard a) t.rest = true := h.2 a t (mapGet_mem running)
    exact h.after_turn (mapWf_advance a t h.1) (sameOthers_advance a t s) (sameGuardOfOthers_advance a t s)
      (ruleKept_advance h.1 rule)
  · exact h
  · exact h

/-- Settles O57: a turn of an agent takes no guard from another, and leaves the agent itself before a rest that keeps
the rule, as every admitted request does. -/
theorem guardDisciplineIsKept : Obligations.GuardDisciplineIsKept := by
  intro s t hs h
  refine step_invariant (I := State.GuardDiscipline) ?_ ?_ ?_ ?_ ?_ ?_ hs h
  · exact fun s h => h
  · exact fun r s h => h
  · exact fun r s h => h
  · intro n held s h
    unfold foreignTurn
    split <;> exact h
  · exact fun i u k ad h => h.settle u.self (admission_guardOk ad _)
  · exact fun a s h => h.agentTurn a

end Sys2Proof.Machine

/-! An agent at a LOCK of a guard that is held, in a step and in a run (20_memory.md R62; 43_session_lifecycle.md R145;
60_exceptions.md R181). -/

namespace Sys2Proof.Machine

theorem State.nextRequest_idle {s : State} {r : Request} (h : s.nextRequest = some r) :
    s.agentState r.agent = none := by
  unfold State.nextRequest at h
  split at h
  · cases h
  · split at h
    · next idle => cases h; exact Option.isNone_iff_eq_none.mp idle
    · cases h

theorem State.atLock_running {s : State} {a : Nat} (h : s.atLock a = true) :
    ∃ t m ms, s.agentState a = some (.running t) ∧ t.rest = m :: ms ∧ m.act = .lock := by
  unfold State.atLock at h
  split at h
  · next t running =>
    split at h
    · next m ms rest => exact ⟨t, m, ms, running, rest, beq_iff_eq.mp h⟩
    · cases h
  · cases h
  · cases h

/-- A stuck agent's turn leaves it where it stands (60_exceptions.md R181). -/
theorem agentTurn_of_stuck {s : State} {a : Nat} (h : s.stuck a = true) :
    ∃ t, s.agentState a = some (.running t) ∧ agentTurn a s = s.park a t := by
  obtain ⟨lock, held⟩ := Bool.and_eq_true_iff.mp h
  obtain ⟨t, m, ms, running, rest, act⟩ := State.atLock_running lock
  obtain ⟨b, owner⟩ := Option.isSome_iff_exists.mp held
  have blocked : perform a m t.loc s = .blocked := by simp only [perform, act, performLock, owner]
  refine ⟨t, running, ?_⟩
  simp only [agentTurn, running, advance, advanceWith, rest, blocked]
  rw [← rest]

/-- An agent that stands at a LOCK with the guard its own keeps the guard: its own turn is blocked, and no other agent
frees it. -/
theorem step_keeps_guard_at_lock {s t : State} {a : Nat} (lock : s.atLock a = true) (own : s.holdsGuard a = true)
    (h : step s = .next t) : t.holdsGuard a = true := by
  rcases step_cases h with rfl | ⟨r, why, -, -, rfl⟩ | ⟨r, i, next, -, h⟩ | ⟨b, rfl⟩ | ⟨n, held, rfl⟩
  · exact own
  · exact own
  · have other : a ≠ r.agent := by
      rintro rfl
      obtain ⟨t, -, -, running, -⟩ := State.atLock_running lock
      cases running.symm.trans (State.nextRequest_idle next)
    rw [sameGuardOfOthers_request h a other]
    exact own
  · by_cases e : a = b
    · subst e
      have stuck : s.afterTurn.stuck a = true :=
        Bool.and_eq_true_iff.mpr ⟨lock, Option.isSome_iff_exists.mpr ⟨a, beq_iff_eq.mp own⟩⟩
      obtain ⟨task, -, parked⟩ := agentTurn_of_stuck stuck
      rw [parked]
      exact own
    · rw [sameGuardOfOthers_agentTurn b s.afterTurn a e]
      exact own
  · unfold foreignTurn
    split <;> exact own

/-- Settles O29: were the guard free again and again, fairness would give it to the agent, which still stands at a LOCK
and so holds it for ever. -/
theorem fairRunsStarveNoLock : Obligations.FairRunsStarveNoLock := by
  intro r a n run fair lock
  by_contra! often
  have enabled : ∀ k, ∃ m, k ≤ m ∧ (r m).lockEnabled a = true := fun k => by
    obtain ⟨m, late, free⟩ := often (max n k) (le_max_left n k)
    refine ⟨m, (le_max_right n k).trans late, ?_⟩
    simp [State.lockEnabled, lock m ((le_max_left n k).trans late), free]
  obtain ⟨m, late, -, taken⟩ := fair a enabled n
  have held : ∀ k, m + 1 ≤ k → (r k).holdsGuard a = true := fun k hk => by
    induction k, hk using Nat.le_induction with
    | base => exact beq_iff_eq.mpr taken
    | succ k hk ih => exact step_keeps_guard_at_lock (lock k (by omega)) ih (run k)
  obtain ⟨k, hk, free⟩ := often (m + 1) (by omega)
  have owner := held k hk
  rw [State.holdsGuard, free] at owner
  cases owner

end Sys2Proof.Machine

/-! The encoding, row by row of the opcode map: what the decoder does with a word once its opcode is known, what a row's
`mask` and `match` columns give, and the two round trips (30_encoding.md R71, R79 to R81, R84). -/

namespace Sys2Proof

/-! ### The decoder by opcode -/

/-- What a word of the operation's row stands for, from its operand fields (30_encoding.md R71 to R77). -/
def Op.request (q : Word) : Op → Decoded
  | .acquire => .instr (.acquire (q.extractLsb' 0 7))
  | .release => .instr (.release (q.extractLsb' 0 7))
  | .setlevel =>
    match sigAt (q.extractLsb' 8 3) with
    | some g => .instr (.setlevel g (q.getLsbD 0))
    | none => .reserved .sig7
  | .transmit => .instr (.transmit (q.extractLsb' 0 8))
  | .delayUs => .instr (.delayUs (q.extractLsb' 0 12))
  | .delayMs => .instr (.delayMs (q.extractLsb' 0 12))
  | .lock => .instr .lock
  | .unlock => .instr .unlock
  | .initRun => .instr .initRun
  | .evLoad => .instr .evLoad
  | .evUnload => .instr .evUnload
  | .evOpen => .instr (.evOpen (q.extractLsb' 0 8))
  | .evClose => .instr (.evClose (q.extractLsb' 0 8))
  | .evControl => .instr (.evControl (q.extractLsb' 0 8))

theorem decode_of_code {q : Word} {o : Op} (code : q.extractLsb' 12 4 = o.code) :
    decode q = if o.fits q then o.request q else .reserved .mbz := by
  unfold decode
  rw [code]
  cases o <;> rfl

theorem decode_of_code_zero {q : Word} (code : q.extractLsb' 12 4 = 0x0#4) :
    decode q = .instr (.reserved0 (q.extractLsb' 0 12)) := by
  unfold decode
  rw [code]
  rfl

theorem decode_of_code_F {q : Word} (code : q.extractLsb' 12 4 = 0xF#4) :
    decode q = .instr (.reservedF (q.extractLsb' 0 12)) := by
  unfold decode
  rw [code]
  rfl

/-- Every opcode is that of a reserved row or of one of the fourteen operations. -/
theorem opcode_cases (c : BitVec 4) : c = 0x0#4 ∨ c = 0xF#4 ∨ ∃ o : Op, c = o.code := by
  have listed : ∀ c : BitVec 4, c = 0x0#4 ∨ c = 0xF#4 ∨
      ∃ o ∈ [Op.acquire, .release, .setlevel, .transmit, .delayUs, .delayMs, .lock, .unlock, .initRun, .evLoad,
        .evUnload, .evOpen, .evClose, .evControl], c = o.code := by decide
  exact (listed c).imp_right (Or.imp_right fun ⟨o, _, code⟩ => ⟨o, code⟩)

/-! ### The columns of the opcode map -/

theorem Op.fits_iff (o : Op) (q : Word) : o.fits q = true ↔ q &&& o.rowMask = o.rowMatch := beq_iff_eq

/-- The mask of a row covers the opcode, so a word that fits the row has the row's opcode. -/
theorem Op.code_of_fits {o : Op} {q : Word} (fits : o.fits q = true) : q.extractLsb' 12 4 = o.code := by
  have top : o.rowMask.extractLsb' 12 4 = BitVec.allOnes 4 := by cases o <;> rfl
  calc q.extractLsb' 12 4
      = q.extractLsb' 12 4 &&& o.rowMask.extractLsb' 12 4 := by rw [top, BitVec.and_allOnes]
    _ = (q &&& o.rowMask).extractLsb' 12 4 := BitVec.extractLsb'_and.symm
    _ = o.rowMatch.extractLsb' 12 4 := by rw [(o.fits_iff q).mp fits]
    _ = o.code := by cases o <;> rfl

theorem decode_of_fits {o : Op} {q : Word} (fits : o.fits q = true) : decode q = o.request q := by
  rw [decode_of_code (Op.code_of_fits fits), if_pos fits]

theorem decode_of_not_fits {o : Op} {q : Word} (code : q.extractLsb' 12 4 = o.code) (unfit : ¬ o.fits q = true) :
    decode q = .reserved .mbz := by
  rw [decode_of_code code, if_neg unfit]

/-- What decodes to an instruction is a word of a reserved row or fits the row of an operation. -/
theorem decode_instr_cases {q : Word} {i : Instr} (h : decode q = .instr i) :
    q.extractLsb' 12 4 = 0x0#4 ∧ i = .reserved0 (q.extractLsb' 0 12) ∨
      q.extractLsb' 12 4 = 0xF#4 ∧ i = .reservedF (q.extractLsb' 0 12) ∨
        ∃ o : Op, o.fits q = true ∧ o.request q = .instr i := by
  obtain code | code | ⟨o, code⟩ := opcode_cases (q.extractLsb' 12 4)
  · rw [decode_of_code_zero code] at h
    exact .inl ⟨code, (Decoded.instr.inj h).symm⟩
  · rw [decode_of_code_F code] at h
    exact .inr (.inl ⟨code, (Decoded.instr.inj h).symm⟩)
  · by_cases fits : o.fits q = true
    · exact .inr (.inr ⟨o, fits, decode_of_fits fits ▸ h⟩)
    · rw [decode_of_not_fits code fits] at h
      cases h

theorem Op.request_setlevel {q : Word} {i : Instr} (h : Op.setlevel.request q = .instr i) :
    ∃ g, sigAt (q.extractLsb' 8 3) = some g ∧ i = .setlevel g (q.getLsbD 0) := by
  simp only [Op.request] at h
  split at h
  · next g named => exact ⟨g, named, (Decoded.instr.inj h).symm⟩
  · cases h

theorem requestOp_of_request {o : Op} {q : Word} {i : Instr} (h : o.request q = .instr i) :
    Machine.requestOp i = some o := by
  cases o with
  | setlevel =>
    obtain ⟨g, -, rfl⟩ := Op.request_setlevel h
    rfl
  | _ => cases h; rfl

/-! ### Decoding what was encoded -/

theorem sigAt_eq_none_iff (n : BitVec 3) : sigAt n = none ↔ n = 7#3 := by revert n; decide

/-- The index of the signal an index names is the index. -/
theorem ofNat_idx_of_sigAt {n : BitVec 3} {g : Sig} (h : sigAt n = some g) : BitVec.ofNat 3 g.idx = n := by
  revert n; cases g <;> decide

/-- The word of an instruction fits the row of its operation. -/
theorem encode_fits {i : Instr} {o : Op} (h : Machine.requestOp i = some o) : o.fits (encode i) = true := by
  rw [Op.fits_iff]
  cases i with
  | acquire mask => cases h; exact Laws.TableRow.acquire mask
  | release mask => cases h; exact Laws.TableRow.release mask
  | setlevel g v => cases h; exact Laws.TableRow.setlevel g v
  | transmit w => cases h; exact Laws.TableRow.transmit w
  | delayUs n => cases h; exact Laws.TableRow.delayUs n
  | delayMs n => cases h; exact Laws.TableRow.delayMs n
  | evOpen sid => cases h; exact Laws.TableRow.evOpen sid
  | evClose sid => cases h; exact Laws.TableRow.evClose sid
  | evControl sid => cases h; exact Laws.TableRow.evControl sid
  | lock | unlock | initRun | evLoad | evUnload => cases h; rfl
  | reserved0 | reservedF => cases h

/-- Its operand fields hold the instruction's operands. -/
theorem request_encode {i : Instr} {o : Op} (h : Machine.requestOp i = some o) : o.request (encode i) = .instr i := by
  cases i with
  | acquire | release | transmit | delayUs | delayMs | evOpen | evClose | evControl =>
    cases h
    simp only [Op.request, encode, encodeM, encodeW, encodeN, Decoded.instr.injEq, Instr.acquire.injEq,
      Instr.release.injEq, Instr.transmit.injEq, Instr.delayUs.injEq, Instr.delayMs.injEq, Instr.evOpen.injEq,
      Instr.evClose.injEq, Instr.evControl.injEq]
    exact BitVec.extractLsb'_append_eq_right
  | setlevel g v => cases h; cases g <;> cases v <;> rfl
  | lock | unlock | initRun | evLoad | evUnload => cases h; rfl
  | reserved0 | reservedF => cases h

/-- Settles O1: an operation's word fits its row and holds its operands; a reserved row's word has its opcode and its
twelve bits. -/
theorem decodeEncodeGivesInstrBack : Obligations.DecodeEncodeGivesInstrBack := by
  intro i
  cases op : Machine.requestOp i with
  | some o => rw [decode_of_fits (encode_fits op), request_encode op]
  | none =>
    cases i with
    | reserved0 low =>
      rw [encode, decode_of_code_zero BitVec.extractLsb'_append_eq_left, BitVec.extractLsb'_append_eq_right]
    | reservedF low =>
      rw [encode, decode_of_code_F BitVec.extractLsb'_append_eq_left, BitVec.extractLsb'_append_eq_right]
    | _ => cases op

/-! ### Encoding what was decoded -/

theorem getLsbD_eq_of_extractLsb'_eq {q w : Word} {start len j : Nat}
    (h : w.extractLsb' start len = q.extractLsb' start len) (from_start : start ≤ j) (below : j < start + len) :
    w.getLsbD j = q.getLsbD j := by
  have bit := congrArg (BitVec.getLsbD · (j - start)) h
  simpa [show j - start < len by omega, show start + (j - start) = j by omega] using bit

section
variable {o : Op} {q w : Word} (fits_q : o.fits q = true) (fits_w : o.fits w = true)
include fits_q fits_w

/-- Two words of a row differ in an operand bit if they differ at all. -/
theorem Op.eq_of_fits (operands : ∀ j < 16, o.rowMask.getLsbD j = false → w.getLsbD j = q.getLsbD j) : w = q := by
  have fixed : w &&& o.rowMask = q &&& o.rowMask := ((o.fits_iff w).mp fits_w).trans ((o.fits_iff q).mp fits_q).symm
  refine BitVec.eq_of_getLsbD_eq fun j hj => ?_
  cases masked : o.rowMask.getLsbD j with
  | false => exact operands j hj masked
  | true => simpa [masked] using congrArg (BitVec.getLsbD · j) fixed

/-- The same for a row whose operand bits are the word's low `n`. -/
theorem Op.eq_of_fits_of_low {n : Nat} (low : w.extractLsb' 0 n = q.extractLsb' 0 n)
    (operands : ∀ j < 16, o.rowMask.getLsbD j = false → j < n) : w = q :=
  Op.eq_of_fits fits_q fits_w fun j hj free =>
    getLsbD_eq_of_extractLsb'_eq low (Nat.zero_le j) (by simpa using operands j hj free)

/-- Two words of a row that stand for the same instruction are the same word. -/
theorem Op.eq_of_request {i : Instr} (h_q : o.request q = .instr i) (h_w : o.request w = .instr i) : w = q := by
  cases o with
  | acquire | release | transmit | delayUs | delayMs | evOpen | evClose | evControl =>
    have same := h_w.trans h_q.symm
    simp only [Op.request, Decoded.instr.injEq, Instr.acquire.injEq, Instr.release.injEq, Instr.transmit.injEq,
      Instr.delayUs.injEq, Instr.delayMs.injEq, Instr.evOpen.injEq, Instr.evClose.injEq, Instr.evControl.injEq] at same
    exact Op.eq_of_fits_of_low fits_q fits_w same (by decide)
  | lock | unlock | initRun | evLoad | evUnload =>
    exact Op.eq_of_fits_of_low (n := 0) fits_q fits_w (Subsingleton.elim _ _) (by decide)
  | setlevel =>
    obtain ⟨g, named_q, rfl⟩ := Op.request_setlevel h_q
    obtain ⟨g', named_w, e⟩ := Op.request_setlevel h_w
    obtain ⟨rfl, level⟩ := Instr.setlevel.inj e
    have index := (ofNat_idx_of_sigAt named_w).symm.trans (ofNat_idx_of_sigAt named_q)
    refine Op.eq_of_fits fits_q fits_w fun j hj free => ?_
    have operand : ∀ j < 16, Op.setlevel.rowMask.getLsbD j = false → j = 0 ∨ 8 ≤ j ∧ j < 8 + 3 := by decide
    obtain rfl | ⟨above, below⟩ := operand j hj free
    · exact level.symm
    · exact getLsbD_eq_of_extractLsb'_eq index above below

end

/-- Settles O2: the word and the word of what it decodes to are words of one row that stand for the same instruction; a
reserved row's word is its opcode and its twelve bits. -/
theorem encodeDecodeGivesWordBack : Obligations.EncodeDecodeGivesWordBack := by
  intro q i h
  obtain ⟨code, rfl⟩ | ⟨code, rfl⟩ | ⟨o, fits, request⟩ := decode_instr_cases h
  · rw [encode, ← code]
    exact BitVec.extractLsb'_append_extractLsb' (w := 4) (len := 12)
  · rw [encode, ← code]
    exact BitVec.extractLsb'_append_extractLsb' (w := 4) (len := 12)
  · have op := requestOp_of_request request
    exact Op.eq_of_request fits (encode_fits op) request (request_encode op)

/-! ### Legal and reserved words -/

/-- A word of a row stands for a legal request, unless it is a SETLEVEL of signal 7. -/
theorem Op.request_legal {o : Op} {q : Word} (named : o = .setlevel → q.extractLsb' 8 3 ≠ 7#3) :
    ∃ i, o.request q = .instr i ∧ i.wellFormed = true := by
  cases o with
  | setlevel =>
    obtain ⟨g, at_g⟩ := Option.ne_none_iff_exists'.mp (mt (sigAt_eq_none_iff _).mp (named rfl))
    exact ⟨.setlevel g (q.getLsbD 0), by simp only [Op.request, at_g], rfl⟩
  | _ => exact ⟨_, rfl, rfl⟩

/-- Settles O3: the decoder tests the must-be-zero bits first, whatever the row. -/
theorem mustBeZeroBitsAreReserved : Obligations.MustBeZeroBitsAreReserved :=
  fun q o code unfit => decode_of_not_fits code (mt (o.fits_iff q).mp unfit)

/-- Settles O4: a legal word fits the row of its operation, and index 7 alone names no signal. -/
theorem legalWordsAreTheRows : Obligations.LegalWordsAreTheRows := by
  intro q
  constructor
  · rintro ⟨i, h, legal⟩
    obtain ⟨-, rfl⟩ | ⟨-, rfl⟩ | ⟨o, fits, request⟩ := decode_instr_cases h
    · cases legal
    · cases legal
    · refine ⟨o, Op.code_of_fits fits, (o.fits_iff q).mp fits, ?_⟩
      rintro rfl seven
      obtain ⟨g, named, -⟩ := Op.request_setlevel request
      cases named.symm.trans ((sigAt_eq_none_iff _).mpr seven)
  · rintro ⟨o, -, fit, named⟩
    rw [decode_of_fits ((o.fits_iff q).mpr fit)]
    exact Op.request_legal named

/-- Settles O5: the nine words, run through the decoder. -/
theorem specWordsDecode : Obligations.SpecWordsDecode := by
  unfold Obligations.SpecWordsDecode
  decide

end Sys2Proof

/-! A pending request's turn: it runs the instruction its word decodes to, refuses a reserved word, and does not read
the request's opaque argument (30_encoding.md R70, R78, R84; 60_exceptions.md R182, R183). -/

namespace Sys2Proof.Machine

theorem step_of_whole {s : State} (turn : s.turn = .whole) : step s = requestTurn exec s.afterTurn := by
  rw [step, turn, takeTurn]

theorem step_of_begin {s : State} (turn : s.turn = .begin) : step s = requestTurn begin s.afterTurn := by
  rw [step, turn, takeTurn]

section
variable {meaning : Instr → State → Host.Outcome State Fault Refusal} {s : State} {r : Request}
  (next : s.nextRequest = some r)
include next

theorem requestTurn_of_next : requestTurn meaning s = runRequest meaning r s := by rw [requestTurn, next]

theorem requestTurn_of_instr {i : Instr} (word : decode r.word = .instr i) :
    requestTurn meaning s = meaning i (s.issue r) := by
  rw [requestTurn_of_next next, runRequest, word]

theorem requestTurn_of_reserved {why : Reserved} (word : decode r.word = .reserved why) :
    requestTurn meaning s = .next ((s.issue r).refuse (.reserved why)) := by
  rw [requestTurn_of_next next, runRequest, word]

end

theorem nextRequest_of_idle {s : State} {r : Request} {rs : List Request} (pending : s.requests = r :: rs)
    (idle : s.idle r.agent = true) : s.nextRequest = some r := by
  simp only [State.nextRequest, pending, idle, if_true]

/-- Settles O7: either turn hands the decoded instruction to its meaning. -/
theorem stepRunsDecodedInstruction : Obligations.StepRunsDecodedInstruction := by
  intro s r i next word
  constructor
  · intro whole
    rw [step_of_whole whole, requestTurn_of_instr next word]
  · intro begun
    rw [step_of_begin begun, requestTurn_of_instr next word]

/-! ### Reserved words -/

/-- An instruction that is no legal request is refused as a word of a reserved opcode (30_encoding.md R84). -/
theorem admission_of_not_wellFormed {i : Instr} (illegal : i.wellFormed = false) (s : State) :
    admission i s = .refuse (.reserved .op) := by
  cases i with
  | reserved0 low => rfl
  | reservedF low => rfl
  | _ => cases illegal

theorem exec_of_not_wellFormed {i : Instr} (illegal : i.wellFormed = false) (s : State) :
    exec i s = .next (s.refuse (.reserved .op)) := by
  rw [exec_eq_runAdmitted, admission_of_not_wellFormed illegal, runAdmitted]

theorem begin_of_not_wellFormed {i : Instr} (illegal : i.wellFormed = false) (s : State) :
    begin i s = .next (s.refuse (.reserved .op)) := by
  rw [begin, admission_of_not_wellFormed illegal, beginAdmitted]

theorem refused_refuse (r : RefusalReason) (s : State) : (s.refuse r).refused = true := by
  simp [State.refused, State.refuse]

/-- Settles O6: a word of no row is refused when it is decoded, a reserved row's when its instruction is issued. -/
theorem reservedRequestsAreRefused : Obligations.ReservedRequestsAreRefused := by
  refine ⟨fun s r why turn next word => ⟨?_, refused_refuse _ _⟩, fun s low => ⟨?_, ?_⟩⟩
  · obtain word | ⟨⟨i, word, illegal⟩, rfl⟩ := word
    · obtain turn | turn := turn
      · rw [step_of_whole turn, requestTurn_of_reserved next word]
      · rw [step_of_begin turn, requestTurn_of_reserved next word]
    · obtain turn | turn := turn
      · rw [step_of_whole turn, requestTurn_of_instr next word, exec_of_not_wellFormed illegal]
      · rw [step_of_begin turn, requestTurn_of_instr next word, begin_of_not_wellFormed illegal]
  · exact exec_of_not_wellFormed rfl s
  · exact exec_of_not_wellFormed rfl s

/-! ### The opaque argument -/

/-- A turn for the next request is the same for every argument of it. -/
theorem requestTurn_arg (meaning : Instr → State → Host.Outcome State Fault Refusal) {s : State} {r : Request}
    {rs : List Request} (pending : s.requests = r :: rs) (idle : s.idle r.agent = true) (arg : Nat) :
    requestTurn meaning { s with requests := { r with arg := arg } :: rs } = requestTurn meaning s := by
  have issued : State.issue { r with arg := arg } { s with requests := { r with arg := arg } :: rs } = s.issue r := by
    simp only [State.issue, pending, List.tail_cons]
  have next : State.nextRequest { s with requests := { r with arg := arg } :: rs } = some { r with arg := arg } :=
    nextRequest_of_idle rfl idle
  rw [requestTurn_of_next next, requestTurn_of_next (nextRequest_of_idle pending idle), runRequest, issued, runRequest]

/-- Settles O49: neither turn for the request depends on its argument. -/
theorem controlArgumentIsNeverRead : Obligations.ControlArgumentIsNeverRead := by
  intro s r rs arg pending idle turn
  obtain turn | turn := turn
  · rw [step_of_whole turn, ← requestTurn_arg exec (s := s.afterTurn) pending idle arg]
    exact step_of_whole turn
  · rw [step_of_begin turn, ← requestTurn_arg begin (s := s.afterTurn) pending idle arg]
    exact step_of_begin turn

/-! ### A placed word -/

/-- An agent past every agent there is is idle. -/
theorem State.idle_of_past {s : State} {a : Nat} (past : ∀ b ∈ s.agents.map Prod.fst, b < a) : s.idle a = true := by
  refine Option.isNone_iff_eq_none.mpr (Option.eq_none_iff_forall_ne_some.mpr fun v found => ?_)
  exact lt_irrefl a (past a (List.mem_map_of_mem (mapGet_mem found)))

theorem State.idle_freeAgent (s : State) : s.idle s.freeAgent = true := by
  unfold State.freeAgent
  split
  · next idle => exact idle
  · exact State.idle_of_past fun b hb => Nat.lt_succ_of_le (List.le_max_of_le' 0 hb le_rfl)

theorem decode_tableWord {nbits w : Nat} {i : Instr} (h : decodeTableWord nbits w = some i) :
    decode (tableWord nbits w) = .instr i := by
  unfold decodeTableWord at h
  split at h
  · split at h
    · next word => cases h; exact word
    · cases h
  · cases h

/-- Settles O8: the placed turn and the placed request are taken again by the step that uses them. -/
theorem placedWordRunsNext : Obligations.PlacedWordRunsNext := by
  intro s nbits w i word
  refine ⟨?_, s.idle_freeAgent⟩
  have next : (s.withFetchWord nbits w).afterTurn.nextRequest =
      some { agent := s.freeAgent, word := tableWord nbits w, arg := 0 } := nextRequest_of_idle rfl s.idle_freeAgent
  rw [step_of_whole rfl, requestTurn_of_instr next (decode_tableWord word)]
  rfl

end Sys2Proof.Machine

/-! RW is never driven high by a host event: a line rises only where 1 is written to it, and no line of their expansions
writes 1 to RW (30_encoding.md R68). -/

namespace Sys2Proof.Machine

/-- The line of signal `g` has not come to present a 1. -/
def NoRise (g : Sig) (s t : State) : Prop := (t.line g).lvl = .high → (s.line g).lvl = .high

theorem NoRise.of_same {g : Sig} {s t : State} (lines : t.lines = s.lines) : NoRise g s t := by
  simp only [NoRise, State.line, lines, imp_self]

theorem NoRise.refl (g : Sig) (s : State) : NoRise g s s := id

theorem NoRise.trans {g : Sig} {s t u : State} (h : NoRise g s t) (k : NoRise g t u) : NoRise g s u := h ∘ k

/-- An operation that gives the line another state under a condition makes it rise only if that state presents a 1. -/
theorem NoRise.of_ite {g : Sig} {s t : State} {P : Prop} [Decidable P] {l : Line}
    (line : t.line g = if P then l else s.line g) (level : P → l.lvl = .high → (s.line g).lvl = .high) :
    NoRise g s t := by
  intro high
  rw [line] at high
  split at high
  · next holds => exact level holds high
  · exact high

/-- The action does not write 1 to the line. -/
def Act.spares (g : Sig) (x : Act) : Bool := x != .write g true

/-- A line rises only where 1 is written to it. -/
theorem Effect.noRise {g : Sig} {x : Act} {s t : State} (h : Effect s x t) (spares : x.spares g = true) :
    NoRise g s t := by
  cases h with
  | granted k => exact NoRise.of_ite (State.line_grant k g (s.tick 0)) (by rintro rfl high; exact high)
  | claim k => exact NoRise.of_ite (State.line_claim k g (s.tick 0)) (by rintro rfl high; exact high)
  | direct k => exact NoRise.of_ite (State.line_driveLow k g (s.tick 0)) (by rintro - ⟨⟩)
  | giveBack k => exact NoRise.of_ite (State.line_drop k g (s.tick 0)) (by rintro - ⟨⟩)
  | unclaim k => exact NoRise.of_ite (State.line_unclaim k g (s.tick 0)) (by rintro - ⟨⟩)
  | write k v =>
    refine NoRise.of_ite (State.line_writeLevel k g v (s.tick 0)) ?_
    rintro ⟨rfl, -⟩ high
    cases v with
    | false => cases high
    | true => simp [Act.spares] at spares
  | _ => exact NoRise.of_same rfl

/-- A run of lines that do not write 1 to `g` leaves it no higher, whatever it comes to. -/
theorem noRise_runTask {g : Sig} (a : Nat) {t : Task} (spare : AllActs (Act.spares g) t.rest) (s : State) :
    NoRise g s (runTask a t s) :=
  runTask_keeps (R := NoRise g) (ok := fun m => m.act.spares g = true) NoRise.trans
    (fun _ l _ spares => perform_keeps (fun _ h => h.noRise spares)
      (fun _ got _ => allActs_rollback (q := Act.spares g) (fun _ => rfl) got)
      (fun sid _ => (allActs_closeTail (q := Act.spares g) sid).mpr ⟨rfl, rfl⟩) a l)
    (fun _ _ _ => NoRise.refl g) (fun _ => NoRise.refl g) (fun _ => NoRise.refl g) spare

/-! ### The expansions of the host events -/

theorem acquireSteps_spare (g : Sig) (p : Params) (mask : BitVec 7) : AllActs (Act.spares g) (acquireSteps p mask) :=
  allActs_acquireSteps (fun _ _ => rfl) (fun _ => rfl) (fun _ => rfl) p mask

theorem releaseSteps_spare (g : Sig) (p : Params) (mask : BitVec 7) : AllActs (Act.spares g) (releaseSteps p mask) :=
  allActs_releaseSteps rfl (fun _ => rfl) (fun _ => rfl) p mask

/-- TRANSMIT writes the data lines and E alone (41_protocol_engine.md R112). -/
theorem transmitSteps_spareRW (p : Params) (w : Byte) : AllActs (Act.spares .rw) (transmitSteps p w) := by
  simp [transmitSteps, transmitActs, nibbleWrites, pulseActs, Act.spares]

/-- Beside its TRANSMITs, INIT_RUN writes RS alone (42_init_sequencer.md R130). -/
theorem initRunSteps_spareRW (p : Params) : AllActs (Act.spares .rw) (initRunSteps p) := by
  have gaps : ∀ k, AllActs (Act.spares .rw) (initGap p k) := by
    intro k
    unfold initGap
    split
    · exact allActs_nil
    · simp [initWait, Act.spares]
  simp [initRunSteps, initSequence, initWait, initTx, initCommands, setlevelSteps, transmitSteps_spareRW, gaps,
    Act.spares]

theorem evLoadSteps_spareRW (p : Params) : AllActs (Act.spares .rw) (evLoadSteps p) := by
  simp [evLoadSteps, acquireSteps_spare, initRunSteps_spareRW, Act.spares]

theorem evUnloadSteps_spareRW (p : Params) : AllActs (Act.spares .rw) (evUnloadSteps p) := by
  simp [evUnloadSteps, transmitSteps_spareRW, releaseSteps_spare, Act.spares]

theorem evCloseSteps_spare (g : Sig) (p : Params) (sid : Nat) : AllActs (Act.spares g) (evCloseSteps p sid) := by
  unfold evCloseSteps
  split
  · simp [closeRelease, releaseSteps_spare, Act.spares]
  · simp [closeRelease, releaseSteps_spare, Act.spares]
  · simp [Act.spares]

/-- Settles O52: no line of a host event's expansion writes 1 to RW, and no other action drives a line high. -/
theorem hostEventsNeverRaiseRW : Obligations.HostEventsNeverRaiseRW := by
  intro s t sid i event low h
  refine mt (?_ : NoRise .rw s t) low
  rw [exec_eq_runAdmitted] at h
  obtain ⟨r, -, rfl⟩ | ⟨k, admitted, -, rfl⟩ := runAdmitted_cases h
  · exact NoRise.refl .rw s
  · refine noRise_runTask s.self ?_ s
    simp only [List.mem_cons, List.not_mem_nil, or_false] at event
    obtain rfl | rfl | rfl | rfl | rfl := event <;> cases Admission.task_run (underDuty_run admitted)
    · exact evLoadSteps_spareRW s.params
    · exact evUnloadSteps_spareRW s.params
    · exact (allActs_eventLines _).mpr (by simp [Act.spares])
    · exact evCloseSteps_spare .rw s.params (sidOf sid)
    · exact allActs_nil

end Sys2Proof.Machine

/-! ACQUIRE, RELEASE and SETLEVEL from request to end: their runs issued to an idle agent (40_pin_controller.md R91 to
R98). -/

namespace Sys2Proof.Machine

section
variable {i : Instr} {s : State} {op : Op} {x : Option Result} {rest : List MicroStep} (ready : s.Ready)
  (issued : admission i s = .task op x rest)
include ready issued

theorem exec_of_runTask {t : State}
    (run : runTask s.self { req := op, result := x, loc := Locals.start, rest := rest } s = t) : exec i s = .next t := by
  rw [exec_eq_runAdmitted, issued, Admission.task, runAdmitted_ready ready, run]

/-- A request whose expansion is a straight line ends in the state the line leads to, with the result it returns. -/
theorem exec_straight {u : State} {l : Locals} (run : runOn s.self rest Locals.start s = some (l, u)) :
    exec i s = .next (u.returning s.self { req := op, result := x, loc := Locals.start, rest := rest }) :=
  exec_of_runTask ready issued (runTask_straight ready run)

end

theorem exec_straight_of_no_result {i : Instr} {s u : State} {op : Op} {rest : List MicroStep} {l : Locals}
    (ready : s.Ready) (issued : admission i s = .task op none rest)
    (run : runOn s.self rest Locals.start s = some (l, u)) : exec i s = .next u :=
  exec_straight ready issued run

theorem SameApartFromLines.sameApartFromPins {s t : State} (h : SameApartFromLines s t) : SameApartFromPins s t := by
  obtain ⟨⟨agents, logs, launch⟩, driver, owner, -, -⟩ := h
  exact ⟨driver, logs, launch, owner, agents⟩

/-! ### ACQUIRE -/

/-- Settles O13: the expansion is a straight line that claims the masked lines and then drives them. -/
theorem acquireClaimsAndDrivesLow : Obligations.AcquireClaimsAndDrivesLow := by
  intro s mask wf ready claimable
  obtain ⟨⟨⟨agents, ⟨faults, -, results⟩, -⟩, driver, owner, -, -⟩, edges, lines⟩ := acquire_spec wf mask
  exact ⟨_, exec_straight ready rfl (runOn_acquire wf claimable s.self Locals.start), lines, edges,
    congrArg (· ++ [_]) results, driver, owner, agents, faults⟩

/-- A prefix of a list that passes a test, before an element that fails it, is all that is taken. -/
theorem takeWhile_eq_of_split {α : Type} {f : α → Bool} {pre post : List α} {x : α} (pass : ∀ y ∈ pre, f y = true)
    (fail : f x = false) : (pre ++ x :: post).takeWhile f = pre := by
  rw [List.takeWhile_append_of_pos pass, List.takeWhile_cons_of_neg (by simp [fail]), List.append_nil]

/-- An ACQUIRE some request of which fails claims the lines before it, and gives them back, the last one first
(40_pin_controller.md R91, R93). -/
theorem runTask_acquire_rollback {s : State} (wf : s.params.wf = true) {mask : BitVec 7} (refused : ¬ s.Claimable mask)
    (a : Nat) (r : Op) (x : Option Result) (l : Locals) :
    ∃ g, runTask a { req := r, result := x, loc := l, rest := acquireSteps s.params mask } s =
      (dropAll (s.claimedBefore mask).reverse (((claimAll (s.claimedBefore mask) s).tick 0).denied g)).finish a r
        (some (.err .resourceUnavailable)) := by
  have some_taken : ∃ g ∈ chosen s.params mask, s.lineTaken (s.pin g) = true := by
    simpa [State.claimable_iff wf] using refused
  obtain ⟨pre, g, post, parts, free, taken⟩ := split_at_first (fun g => s.lineTaken (s.pin g)) some_taken
  have claimed : s.claimedBefore mask = pre := by
    rw [State.claimedBefore, parts]
    exact takeWhile_eq_of_split (fun k mem => by simp [free k mem]) (by simp [taken])
  have run := runWith_refused (J := runRest a) wf (parts ▸ chosen_nodup wf mask) free taken a 0 r x []
    (numbered .acquire (0 + (requestActs [] (chosen s.params mask)).length) ((chosen s.params mask).map Act.direct)) l
  rw [← parts, ← numbered_append] at run
  rw [claimed]
  exact ⟨g, run.trans (runWith_straight (runOn_rollback pre a _ _))⟩

theorem runTask_acquire_rollback_edges {s : State} (wf : s.params.wf = true) {mask : BitVec 7}
    (refused : ¬ s.Claimable mask) (a : Nat) (r : Op) (x : Option Result) (l : Locals) :
    GainsEdges s (runTask a { req := r, result := x, loc := l, rest := acquireSteps s.params mask } s)
      ((s.claimedBefore mask).map Edge.own ++ (s.claimedBefore mask).reverse.map Edge.free) := by
  obtain ⟨g, run⟩ := runTask_acquire_rollback wf refused a r x l
  obtain ⟨-, claims, -⟩ := claimAll_spec (s.claimedBefore mask) s
  obtain ⟨-, frees, -⟩ := dropAll_spec (s.claimedBefore mask).reverse
    (((claimAll (s.claimedBefore mask) s).tick 0).denied g)
  rw [run]
  exact GainsEdges.trans claims frees

/-- Settles O14: the refused request is followed by the rollback, which leaves each line as it was before its claim. -/
theorem failedAcquireHoldsNothing : Obligations.FailedAcquireHoldsNothing := by
  intro s mask wf ready consistent refused
  have edges := runTask_acquire_rollback_edges wf refused s.self .acquire (some .ok) Locals.start
  obtain ⟨t, run, lines, ⟨agents, ⟨faults, -, results⟩, -⟩, driver, owner, -, -⟩ :=
    runTask_acquire_refused wf consistent refused s.self .acquire (some .ok) [] Locals.start
  rw [List.append_nil] at run
  rw [run] at edges
  refine ⟨_, exec_of_runTask ready rfl run, lines, congrArg (· ++ [_]) results, edges, driver, owner, ?_, faults⟩
  rw [State.finish_agents, agents]
  exact mapErase_of_none ready

/-! ### RELEASE -/

theorem guardCheck_passes {s : State} {a : Nat} (guarded : s.lockOwner = some a) :
    ∀ c ∈ [Check.guarded], c.passes a s = true := by
  simp [Check.passes, State.holdsGuard, guarded]

/-- RELEASE under the guard whose lines come to the release of `gs` and to no more. -/
theorem exec_release_frees {s : State} {mask : BitVec 7} {gs : List Sig} {l : Locals} (ready : s.Ready)
    (guarded : s.Guarded)
    (run : runOn s.self (numbered .release 0 (releaseActs (chosen s.params mask))) Locals.start s =
      some (l, releaseAll gs s)) :
    ∃ t, exec (.release mask) s = .next t ∧ (∀ h, t.line h = if h ∈ gs then Line.free else s.line h) ∧
      GainsEdges s t (gs.map Edge.free) ∧ SameApartFromPins s t := by
  obtain ⟨same, edges, lines⟩ := releaseAll_spec gs s
  have checked := runOn_checks (guardCheck_passes guarded) .release (releaseActs (chosen s.params mask)) Locals.start
  exact ⟨_, exec_straight_of_no_result ready rfl (checked.trans run), lines, edges, same.sameApartFromPins⟩

/-- Settles O15: every masked line is released. -/
theorem releaseFreesOwnedLines : Obligations.ReleaseFreesOwnedLines := by
  intro s mask wf ready guarded owned
  obtain ⟨t, run, lines, edges, same⟩ := exec_release_frees ready guarded
    (runOn_releases (chosen_nodup wf mask) (fun g mem => owned g (selects_of_mem_chosen mem)) s.self 0 rfl)
  exact ⟨t, run, by simpa only [mem_chosen wf] using lines, edges, same⟩

/-- Settles O17: the masked lines that are owned are released, and the others take no micro-step. -/
theorem releaseOfUnownedLineSkips : Obligations.ReleaseOfUnownedLineSkips := by
  intro s mask wf ready guarded noop
  obtain ⟨t, run, lines, edges, same⟩ := exec_release_frees ready guarded
    (runOn_releases_noop (chosen_nodup wf mask) noop s.self 0 rfl)
  exact ⟨t, run, by simpa only [List.mem_filter, mem_chosen wf, Bool.and_eq_true] using lines, edges, same⟩

/-- Settles O16: the lines before the first unowned one are released, and there the request faults. -/
theorem releaseOfUnownedLineFaults : Obligations.ReleaseOfUnownedLineFaults := by
  intro s mask pre post g wf ready guarded fault parts owned unowned
  obtain ⟨⟨⟨-, ⟨faults, -, results⟩, -⟩, driver, owner, -, -⟩, edges, lines⟩ := releaseAll_spec pre s
  have check : runOn s.self (checked .release [.guarded] []) Locals.start s = some (Locals.start, s) :=
    runOn_checks (guardCheck_passes guarded) .release [] Locals.start
  have run := (runWith_append (J := runRest s.self) check).trans
    (runWith_unowned (parts ▸ chosen_nodup wf mask) fault owned unowned s.self 0 .release none [] Locals.start)
  rw [List.append_nil, ← parts] at run
  refine ⟨_, exec_of_runTask ready rfl run, ?_, lines, edges, driver, owner, results⟩
  simp [FaultsAt, faults, Locals.start]

/-! ### SETLEVEL -/

theorem gainsEdges_writeLevel (g : Sig) (v : Bool) (s : State) :
    GainsEdges s (s.writeLevel g v)
      (if s.accepts g = true ∧ (s.line g).lvl ≠ Level.ofBit v then [Edge.drive g v] else []) := by
  have edges := GainsEdges.of_trace (State.trace_writeLevel g v s)
  rwa [apply_ite (List.map Event.edge)] at edges

/-- Settles O19: the checks hold, and the one write asks the host for its answer. -/
theorem setlevelWritesOneLevel : Obligations.SetlevelWritesOneLevel := by
  intro s g v ready guarded driven
  have accepts : (s.tick 0).accepts g = s.answers.head Config.freeAnswer := by
    simp [State.accepts, driven]
  have same := (apply_keeps (x := .write g v) rfl s).1
  have run := exec_straight_of_no_result (i := .setlevel g v) ready rfl (runOn_setlevel guarded driven v Locals.start)
  refine ⟨_, run, fun h => ?_, ?_, ?_, same⟩
  · exact (State.line_writeLevel g h v (s.tick 0)).trans (by rw [accepts]; rfl)
  · have edges := gainsEdges_writeLevel g v (s.tick 0)
    rwa [accepts] at edges
  · exact (State.writeLevel_hostCalls g v (s.tick 0)).trans (by rw [accepts]; rfl)

/-- Settles O20: the second check fails where the first one, the guard, holds. -/
theorem setlevelOnUnownedLineFaults : Obligations.SetlevelOnUnownedLineFaults := by
  intro s g v ready guarded undriven
  have fails : (s.line g).presents = false := by
    simpa [Line.presents, or_iff_not_imp_left] using undriven
  have run := runWith_check_fails (J := runRest s.self) (guardCheck_passes guarded) (c := .driven g) fails .setlevel []
    [.write g v] [] .setlevel none Locals.start
  rw [List.append_nil] at run
  refine ⟨_, exec_of_runTask ready rfl run, ?_, ⟨rfl, rfl⟩, rfl, rfl⟩
  simp [FaultsAt, Locals.start, Check.code]

end Sys2Proof.Machine

/-! What the operations of the pin controller and TRANSMIT leave alone, whatever they come to: their actions reach the pins
of the signals they name and nothing else, and the request finishes or faults (40_pin_controller.md R91 to R97,
41_protocol_engine.md R111, R117). -/

namespace Sys2Proof.Machine

/-! ### Actions on the pins -/

/-- The lines of the signals outside `q`, and everything but the pins, are unchanged, and no registration is drawn. -/
def PinsWithin (q : Sig → Bool) (s t : State) : Prop :=
  SameApartFromPins s t ∧ t.registrations = s.registrations ∧ ∀ g, q g = false → t.line g = s.line g

section
variable {q : Sig → Bool} {s t u : State}

theorem PinsWithin.of_same (same : SameApartFromPins s t) (registrations : t.registrations = s.registrations)
    (lines : t.lines = s.lines) : PinsWithin q s t :=
  ⟨same, registrations, fun g _ => congrArg (PerSig.get · g) lines⟩

theorem PinsWithin.of_line (same : SameApartFromPins s t) (registrations : t.registrations = s.registrations) {g : Sig}
    (within : q g = true) (others : ∀ h, h ≠ g → t.line h = s.line h) : PinsWithin q s t :=
  ⟨same, registrations, fun h out => others h fun e => by simp [e, within] at out⟩

theorem PinsWithin.refl (q : Sig → Bool) (s : State) : PinsWithin q s s :=
  PinsWithin.of_same (SameApartFromPins.refl s) rfl rfl

theorem PinsWithin.trans (h : PinsWithin q s t) (k : PinsWithin q t u) : PinsWithin q s u := by
  obtain ⟨same, registrations, lines⟩ := h
  obtain ⟨same', registrations', lines'⟩ := k
  exact ⟨same.trans same', registrations'.trans registrations, fun g out => (lines' g out).trans (lines g out)⟩

end

/-- The action is a check or a wait, or acts on the line of a signal in `q`; for a request, what its refusal gives back is
in `q` too. -/
def Act.onPins (q : Sig → Bool) : Act → Bool
  | .require _ => true
  | .wait _ => true
  | .request g got => q g && got.all q
  | .claim g => q g
  | .direct g => q g
  | .giveBack g => q g
  | .release g => q g
  | .unclaim g => q g
  | .write g _ => q g
  | _ => false

theorem Act.not_onPins_of_registration {x : Act} (call : x.registers = true ∨ x.unregisters = true) (q : Sig → Bool) :
    x.onPins q = false := by
  cases x <;> simp [Act.registers, Act.unregisters] at call <;> rfl

theorem sameApartFromPins_driveLow (g : Sig) (s : State) : SameApartFromPins s (s.driveLow g) := by
  unfold State.driveLow
  split <;> exact SameApartFromPins.refl s

theorem Effect.pinsWithin {q : Sig → Bool} {x : Act} {s t : State} (h : Effect s x t) (on : x.onPins q = true) :
    PinsWithin q s t := by
  cases h with
  | stays => exact PinsWithin.refl q s
  | denied | release | wait => exact PinsWithin.of_same (SameApartFromPins.refl s) rfl rfl
  | granted g got =>
    have within : q g = true := (Bool.and_eq_true_iff.mp on).1
    exact .of_line (SameApartFromPins.refl s) rfl within fun h ne => (State.line_grant g h _).trans (if_neg ne)
  | claim g => exact .of_line (SameApartFromPins.refl s) rfl on fun h ne => (State.line_claim g h _).trans (if_neg ne)
  | giveBack g => exact .of_line (SameApartFromPins.refl s) rfl on fun h ne => (State.line_drop g h _).trans (if_neg ne)
  | unclaim g => exact .of_line (SameApartFromPins.refl s) rfl on fun h ne => (State.line_unclaim g h _).trans (if_neg ne)
  | direct g =>
    exact .of_line (sameApartFromPins_driveLow g (s.tick 0)) (State.driveLow_registrations g (s.tick 0)) on
      fun h ne => (State.line_driveLow g h _).trans (if_neg fun e => ne e.1)
  | write g v =>
    exact .of_line (apply_keeps (x := .write g v) rfl s).1 (State.writeLevel_registrations g v (s.tick 0)) on
      fun h ne => (State.line_writeLevel g h v _).trans (if_neg fun e => ne e.1)
  | registered call | unregistrable call => simp [Act.not_onPins_of_registration (.inl call)] at on
  | unregister call => simp [Act.not_onPins_of_registration (.inr call)] at on
  | beginInit | lock | unlock | setAcquired | setReg | setLoaded | clearLoad | sessOpen | sessClose => cases on

/-! ### How a request on the pins ends -/

/-- An action of ACQUIRE or of its rollback: none of them faults (40_pin_controller.md R99). -/
def Act.faultless : Act → Bool
  | .request _ _ => true
  | .claim _ => true
  | .direct _ => true
  | .giveBack _ => true
  | _ => false

theorem not_faultless_of_fault {a : Nat} {m : MicroStep} {l : Locals} {s t : State} {c : FaultCode}
    (e : perform a m l s = .fault c t) : m.act.faultless = false := by
  unfold perform at e
  cases act : m.act <;> rw [act] at e
  case request g got =>
    simp only [performRequest] at e
    split at e <;> cases e
  case claim | direct | giveBack => cases e
  all_goals rfl

/-- A request of the lines `ms` that is to return `x` has led from `s` to `t`: it did its work on the pins of `q` alone, and
then finished, with `x` where no line replaces the rest, or faulted, which it does only where some line can. -/
def EndsOnPins (q : Sig → Bool) (a : Nat) (r : Op) (x : Option Result) (ms : List MicroStep) (s t : State) : Prop :=
  ∃ u, PinsWithin q s u ∧
    ((∃ y, t = u.finish a r y ∧ (AllActs Act.straight ms → y = x)) ∨
      (∃ pc site c, t = u.raise a pc site c) ∧ ¬ AllActs Act.faultless ms)

section
variable {q : Sig → Bool} {a : Nat} {r : Op} {x : Option Result} {ms : List MicroStep} {s t : State}

theorem EndsOnPins.cons {m : MicroStep} {v : State} (first : PinsWithin q s v) (h : EndsOnPins q a r x ms v t) :
    EndsOnPins q a r x (m :: ms) s t := by
  obtain ⟨u, within, ⟨y, finish, result⟩ | ⟨raise, faulty⟩⟩ := h
  · exact ⟨u, first.trans within, .inl ⟨y, finish, fun straight => result straight.tail⟩⟩
  · exact ⟨u, first.trans within, .inr ⟨raise, fun faultless => faulty faultless.tail⟩⟩

/-- Lines on the pins of `q` run to such an end, if the rollback that a refused request leads to finishes there. -/
theorem runWith_endsOnPins {J : Task → State → State} {l : Locals} (on : AllActs (Act.onPins q) ms)
    (rolledBack : ∀ y got l s, got.all q = true →
      ∃ u, PinsWithin q s u ∧ J { req := r, result := y, loc := l, rest := rollback got } s = u.finish a r y) :
    EndsOnPins q a r x ms s (runWith J a r x ms l s) := by
  induction ms generalizing l s with
  | nil => exact ⟨s, PinsWithin.refl q s, .inl ⟨x, rfl, fun _ => rfl⟩⟩
  | cons m ms ih =>
    have here : m.act.onPins q = true := on m List.mem_cons_self
    have has := perform_hasEffect a m l s
    cases e : perform a m l s <;> rw [e] at has <;> simp only [runWith, e]
    case pass => exact .cons (has.2.pinsWithin here) (ih on.tail)
    case moved => exact .cons (has.2.pinsWithin here) (ih on.tail)
    case jump rest y v =>
      obtain ⟨⟨g, got, request, rfl⟩, effect⟩ := has
      have within : got.all q = true := by
        rw [request] at here
        exact (Bool.and_eq_true_iff.mp here).2
      obtain ⟨u, back, finish⟩ := rolledBack y got l.step v within
      refine ⟨u, (effect.pinsWithin (by rwa [request] at here ⊢)).trans back, .inl ⟨y, finish, fun straight => ?_⟩⟩
      exact absurd straight (AllActs.not_of_head (by rw [request]; rfl))
    case branch =>
      obtain ⟨⟨sid, ifLast, -⟩, -⟩ := has
      rw [ifLast] at here
      cases here
    case blocked =>
      rw [has.1] at here
      cases here
    case fault c v =>
      exact ⟨v, has.pinsWithin here, .inr ⟨⟨_, _, _, rfl⟩, AllActs.not_of_head (not_faultless_of_fault e)⟩⟩

theorem dropAll_pinsWithin {got : List Sig} (within : got.all q = true) (s : State) : PinsWithin q s (dropAll got s) := by
  obtain ⟨same, -, lines⟩ := dropAll_spec got s
  have ⟨_, _, _, _, registrations⟩ := same
  refine ⟨same.sameApartFromPins, registrations, fun g out => ?_⟩
  rw [lines, if_neg fun mem => ?_]
  simp [List.all_eq_true.mp within g mem] at out

theorem runTask_endsOnPins {l : Locals} (on : AllActs (Act.onPins q) ms) :
    EndsOnPins q a r x ms s (runTask a { req := r, result := x, loc := l, rest := ms } s) :=
  runWith_endsOnPins on fun _ got l s within =>
    ⟨_, dropAll_pinsWithin (by rwa [List.all_reverse]) s, runWith_straight (runOn_rollback got a l s)⟩

/-- Neither the end of a request nor a fault changes what is not the agent's own (60_exceptions.md R180). -/
theorem EndsOnPins.frame (h : EndsOnPins q a r x ms s t) :
    (∀ g, q g = false → t.line g = s.line g) ∧ SameDriver s t ∧ SameLaunch s t ∧ t.lockOwner = s.lockOwner ∧
      t.refusals = s.refusals ∧ t.registrations = s.registrations := by
  obtain ⟨u, ⟨⟨driver, ⟨-, refusals, -⟩, launch, owner, -⟩, registrations, lines⟩, ends⟩ := h
  obtain ⟨y, rfl, -⟩ | ⟨⟨pc, site, c, rfl⟩, -⟩ := ends
  · exact ⟨lines, driver, launch, owner, refusals, registrations⟩
  · exact ⟨lines, driver, launch, owner, refusals, registrations⟩

/-- A request that returns nothing and whose lines stay as they are adds no result. -/
theorem EndsOnPins.results (h : EndsOnPins q a r none ms s t) (straight : AllActs Act.straight ms) :
    t.results = s.results := by
  obtain ⟨u, ⟨⟨-, ⟨-, -, results⟩, -⟩, -⟩, ⟨y, rfl, result⟩ | ⟨⟨pc, site, c, rfl⟩, -⟩⟩ := h
  · rw [result straight]
    exact results
  · exact results

/-- A request whose lines cannot fault adds no fault and leaves its agent idle. -/
theorem EndsOnPins.faults_agents (h : EndsOnPins q a r x ms s t) (faultless : AllActs Act.faultless ms)
    (idle : s.agentState a = none) : t.faults = s.faults ∧ t.agents = s.agents := by
  obtain ⟨u, ⟨⟨-, ⟨faults, -, -⟩, -, -, agents⟩, -⟩, ⟨y, rfl, -⟩ | ⟨-, faulty⟩⟩ := h
  · refine ⟨faults, ?_⟩
    rw [State.finish_agents, agents]
    exact mapErase_of_none idle
  · exact absurd faultless faulty

end

/-! ### The answers of the host -/

/-- The action asks the host for no level. -/
def Act.silent : Act → Bool
  | .write _ _ => false
  | _ => true

theorem Effect.answers {x : Act} {s t : State} (h : Effect s x t) (silent : x.silent = true) : t.answers = s.answers := by
  cases h with
  | direct g => exact State.driveLow_answers g (s.tick 0)
  | write => cases silent
  | _ => rfl

/-- Only a level write draws an answer of the host (10_state.md R42). -/
theorem answers_runTask (a : Nat) {t : Task} (silent : AllActs Act.silent t.rest) (s : State) :
    (runTask a t s).answers = s.answers :=
  runTask_keeps (R := fun s t => t.answers = s.answers) (ok := fun m => m.act.silent = true)
    (fun h k => k.trans h)
    (fun _ l _ silent => perform_keeps (fun _ h => h.answers silent)
      (fun _ got _ => allActs_rollback (q := Act.silent) (fun _ => rfl) got)
      (fun sid _ => (allActs_closeTail (q := Act.silent) sid).mpr ⟨rfl, rfl⟩) a l)
    (fun _ _ _ _ => rfl) (fun _ _ => rfl) (fun _ _ => rfl) silent

/-! ### Lines but for their levels -/

theorem SameButLevel.trans {l m n : Line} (h : SameButLevel l m) (k : SameButLevel m n) : SameButLevel l n := by
  rw [SameButLevel] at h k ⊢
  rw [k, h]

theorem sameButLevel_writeLevel (k : Sig) (v : Bool) (s : State) (g : Sig) :
    SameButLevel (s.line g) ((s.writeLevel k v).line g) := by
  rw [State.line_writeLevel]
  split
  · next here => rw [here.1]; rfl
  · rfl

/-- An action that is neither ACQUIRE's nor RELEASE's changes no more of a line than its level. -/
theorem Effect.sameButLevel {x : Act} {s t : State} (h : Effect s x t) (ok : x.keepsGroup = true) (g : Sig) :
    SameButLevel (s.line g) (t.line g) := by
  cases h with
  | denied | granted | claim | direct | giveBack | release | unclaim | setAcquired => cases ok
  | write k v => exact sameButLevel_writeLevel k v (s.tick 0) g
  | stays | beginInit | wait | lock | unlock | registered | unregistrable | setReg | setLoaded | unregister | clearLoad
  | sessOpen | sessClose => rfl

theorem sameButLevel_runTask (a : Nat) {t : Task} (ok : AllActs Act.keepsGroup t.rest) (s : State) (g : Sig) :
    SameButLevel (s.line g) ((runTask a t s).line g) :=
  runTask_keeps (R := fun s t => SameButLevel (s.line g) (t.line g)) (ok := fun m => m.act.keepsGroup = true)
    SameButLevel.trans
    (fun _ l _ ok => perform_keeps (fun _ h => h.sameButLevel ok g)
      (fun _ _ request => by rw [request] at ok; cases ok)
      (fun sid _ => (allActs_closeTail (q := Act.keepsGroup) sid).mpr ⟨rfl, rfl⟩) a l)
    (fun _ _ _ _ => rfl) (fun _ _ => rfl) (fun _ _ => rfl) ok

/-! ### Requests issued -/

section
variable {i : Instr} {s t : State} {op : Op} {x : Option Result} {rest : List MicroStep}
  (issued : admission i s = .task op x rest) (h : exec i s = .next t)
include issued h

/-- A request that is not refused is its task, run by an idle agent. -/
theorem exec_task : s.Ready ∧ t = runTask s.self { req := op, result := x, loc := Locals.start, rest := rest } s := by
  rw [exec_eq_runAdmitted, issued] at h
  obtain ⟨_, refused, -⟩ | ⟨k, task, ready, rfl⟩ := runAdmitted_cases h
  · cases refused
  · cases Admission.task_run task
    exact ⟨ready, rfl⟩

theorem exec_endsOnPins {q : Sig → Bool} (on : AllActs (Act.onPins q) rest) : EndsOnPins q s.self op x rest s t := by
  obtain ⟨-, rfl⟩ := exec_task issued h
  exact runTask_endsOnPins on

theorem exec_answers (silent : AllActs Act.silent rest) : t.answers = s.answers := by
  obtain ⟨-, rfl⟩ := exec_task issued h
  exact answers_runTask s.self silent s

theorem exec_sameButLevel (level : AllActs Act.keepsGroup rest) (g : Sig) : SameButLevel (s.line g) (t.line g) := by
  obtain ⟨-, rfl⟩ := exec_task issued h
  exact sameButLevel_runTask s.self level s g

end

/-! ### ACQUIRE and RELEASE -/

theorem requestActs_onPins {q : Sig → Bool} {gs : List Sig} (within : ∀ g ∈ gs, q g = true) (got : List Sig)
    (before : got.all q = true) : ∀ x ∈ requestActs got gs, x.onPins q = true := by
  induction gs generalizing got with
  | nil => simp [requestActs]
  | cons g gs ih =>
    have here : q g = true := within g List.mem_cons_self
    have rest := ih (fun h mem => within h (List.mem_cons_of_mem _ mem)) (got ++ [g]) (by simp [before, here])
    simpa [requestActs, Act.onPins, here, before] using rest

theorem acquireSteps_onPins (p : Params) (mask : BitVec 7) :
    AllActs (Act.onPins (selects mask)) (acquireSteps p mask) := by
  refine (allActs_numbered _ _ _).mpr (List.forall_mem_append.mpr ⟨?_, ?_⟩)
  · exact requestActs_onPins (fun g => selects_of_mem_chosen) [] rfl
  · exact List.forall_mem_map.mpr fun g => selects_of_mem_chosen

theorem releaseSteps_onPins (p : Params) (mask : BitVec 7) :
    AllActs (Act.onPins (selects mask)) (releaseSteps p mask) := by
  refine (allActs_checked _ _ _).mpr ⟨fun _ _ => rfl, fun x hx => ?_⟩
  obtain ⟨g, mem, hg⟩ := List.mem_flatMap.mp hx
  have within : selects mask g = true := selects_of_mem_chosen mem
  simp only [List.mem_cons, List.not_mem_nil, or_false] at hg
  obtain rfl | rfl := hg <;> exact within

/-- Settles O18: both act on the masked lines alone; no line of ACQUIRE faults, and no line of RELEASE changes what the
request returns, which is nothing. -/
theorem lineGroupFrame : Obligations.LineGroupFrame := by
  intro s t mask i mem h
  have others := sameOthers_exec h
  simp only [List.mem_cons, List.not_mem_nil, or_false] at mem
  obtain rfl | rfl := mem
  · have issued : admission (.acquire mask) s = .task .acquire (some .ok) (acquireSteps s.params mask) := rfl
    have ends := exec_endsOnPins issued h (acquireSteps_onPins s.params mask)
    have answers := exec_answers issued h (allActs_acquireSteps (fun _ _ => rfl) (fun _ => rfl) (fun _ => rfl) _ mask)
    have kept := ends.faults_agents (allActs_acquireSteps (fun _ _ => rfl) (fun _ => rfl) (fun _ => rfl) _ mask)
      (exec_task issued h).1
    obtain ⟨lines, driver, launch, owner, refusals, registrations⟩ := ends.frame
    exact ⟨lines, driver, launch, owner, others, refusals, answers, registrations, fun _ => kept, nofun⟩
  · have issued : admission (.release mask) s = .task .release none (releaseSteps s.params mask) := rfl
    have ends := exec_endsOnPins issued h (releaseSteps_onPins s.params mask)
    have answers := exec_answers issued h (allActs_releaseSteps rfl (fun _ => rfl) (fun _ => rfl) _ mask)
    have results := ends.results (allActs_releaseSteps rfl (fun _ => rfl) (fun _ => rfl) _ mask)
    obtain ⟨lines, driver, launch, owner, refusals, registrations⟩ := ends.frame
    exact ⟨lines, driver, launch, owner, others, refusals, answers, registrations, nofun, fun _ => results⟩

/-! ### SETLEVEL and TRANSMIT -/

theorem setlevelSteps_onPins (g : Sig) (v : Bool) : AllActs (Act.onPins (· == g)) (setlevelSteps g v) := by
  simp [setlevelSteps, Act.onPins]

/-- TRANSMIT writes neither RS nor RW (41_protocol_engine.md R112). -/
theorem transmitSteps_onPins (p : Params) (w : Byte) :
    AllActs (Act.onPins fun g => g != .rs && g != .rw) (transmitSteps p w) := by
  simp [transmitSteps, transmitActs, nibbleWrites, pulseActs, Act.onPins]

/-- Settles O25: both are checks, level writes of the lines named, and waits, and no line of theirs changes what the
request returns, which is nothing. -/
theorem levelWriteFrame : Obligations.LevelWriteFrame := by
  intro s t g v w i mem h
  have others := sameOthers_exec h
  simp only [List.mem_cons, List.not_mem_nil, or_false] at mem
  obtain rfl | rfl := mem
  · have issued : admission (.setlevel g v) s = .task .setlevel none (setlevelSteps g v) := rfl
    have ends := exec_endsOnPins issued h (setlevelSteps_onPins g v)
    have levels := exec_sameButLevel issued h (allActs_setlevelSteps (fun _ => rfl) (fun _ _ => rfl) g v)
    have results := ends.results (allActs_setlevelSteps (fun _ => rfl) (fun _ _ => rfl) g v)
    obtain ⟨lines, driver, launch, owner, refusals, registrations⟩ := ends.frame
    exact ⟨levels, fun _ k ne => lines k (by simpa using ne), nofun, driver, launch, owner, others, refusals, results,
      registrations⟩
  · have issued : admission (.transmit w) s = .task .transmit none (transmitSteps s.params w) := rfl
    have ends := exec_endsOnPins issued h (transmitSteps_onPins s.params w)
    have levels := exec_sameButLevel issued h
      (allActs_transmitSteps (fun _ => rfl) (fun _ _ => rfl) (fun _ => rfl) s.params w)
    have results := ends.results (allActs_transmitSteps (fun _ => rfl) (fun _ _ => rfl) (fun _ => rfl) s.params w)
    obtain ⟨lines, driver, launch, owner, refusals, registrations⟩ := ends.frame
    exact ⟨levels, nofun, fun _ => ⟨lines .rs rfl, lines .rw rfl⟩, driver, launch, owner, others, refusals, results,
      registrations⟩

end Sys2Proof.Machine

/-! TRANSMIT and the waits from request to end: what its level writes leave on the lines when the host accepts them, and
its sixteen micro-steps issued to an idle agent (41_protocol_engine.md R111 to R123). -/

namespace Sys2Proof.Machine

/-! ### The waits -/

/-- Settles O26: the one micro-step of either is a wait, and no check stands before it. -/
theorem delaysOnlyAdvanceTime : Obligations.DelaysOnlyAdvanceTime := by
  intro s n ready
  have waits (op : Op) (m : Nat) :
      runOn s.self (checked op [] [.wait m]) Locals.start s = some (Locals.start.steps 1, s.tick m) := rfl
  exact ⟨exec_straight_of_no_result ready rfl (waits .delayUs (us n)),
    exec_straight_of_no_result ready rfl (waits .delayMs (ms n))⟩

/-! ### The levels that accepted writes leave -/

/-- The level on the line of `g` after an accepted action, from the level before. -/
def Act.levelOn (g : Sig) (lv : Level) : Act → Level
  | .write h v => if g = h then Level.ofBit v else lv
  | _ => lv

theorem line_apply_accepted {x : Act} (plain : x.plain = true) {s : State}
    (accepted : ∀ g v, x = .write g v → s.accepts g = true) (g : Sig) :
    (x.apply s).line g = { s.line g with lvl := x.levelOn g (s.line g).lvl } := by
  cases x <;> simp only [Act.plain, Bool.false_eq_true] at plain
  case write h v =>
    have acc : (s.tick 0).accepts h = true := accepted h v rfl
    simp only [Act.apply, State.line_writeLevel, acc, and_true, Act.levelOn, State.line_tick]
    split
    · next same => rw [same]
    · rfl
  case wait n => rfl

/-- An action uses up one of the accepted writes for each call it makes. -/
theorem State.Accepting.apply {x : Act} (plain : x.plain = true) {s : State} {n : Nat}
    (acc : s.Accepting (x.calls + n)) : (x.apply s).Accepting n := by
  cases x <;> simp only [Act.plain, Bool.false_eq_true] at plain
  case write g v => exact State.Accepting.writeLevel (s := s.tick 0) (by rwa [Nat.add_comm] at acc) g v
  case wait m => exact State.Accepting.tick (by simpa [Act.calls] using acc) m

/-- Accepted writes of lines the block presents leave on each line the level last written to it, and the rest of the line
as it was. -/
theorem line_applyAll_accepted {acts : List Act} (plain : ∀ x ∈ acts, x.plain = true) {s : State}
    (driven : ∀ g v, Act.write g v ∈ acts → (s.line g).presents = true)
    (acc : s.Accepting (acts.map Act.calls).sum) (g : Sig) :
    (applyAll acts s).line g = { s.line g with lvl := acts.foldl (Act.levelOn g) (s.line g).lvl } := by
  induction acts generalizing s with
  | nil => rfl
  | cons x xs ih =>
    have plain_x := plain x List.mem_cons_self
    have first := line_apply_accepted plain_x (g := g) (s := s) fun h v e => by
      subst e
      exact State.Accepting.accepts (n := (xs.map Act.calls).sum) (by simpa [Act.calls, Nat.add_comm] using acc)
        (driven h v List.mem_cons_self)
    have rest := ih (fun y hy => plain y (List.mem_cons_of_mem _ hy)) (s := x.apply s)
      (fun h v hv => by
        rw [presents_of_keeps ((apply_keeps plain_x s).2 h)]
        exact driven h v (List.mem_cons_of_mem _ hv))
      (State.Accepting.apply plain_x (by simpa using acc))
    rw [applyAll_cons, rest, first]
    rfl

/-! ### TRANSMIT -/

theorem exec_transmit {s : State} (w : Byte) (ready : s.Ready) (guarded : s.Guarded) (held : s.linesAcquired = true) :
    exec (.transmit w) s = .next (applyAll (transmitActs s.params w) s) :=
  exec_straight_of_no_result ready rfl (runOn_transmit guarded held s.params w Locals.start)

theorem transmitActs_levels (p : Params) (w : Byte) :
    (transmitActs p w).filterMap Act.level = transmitLevels w := rfl

theorem transmitActs_calls (p : Params) (w : Byte) : ((transmitActs p w).map Act.calls).sum = 12 := by
  simp [transmitActs, nibbleWrites, pulseActs, Act.calls]

theorem transmitActs_least (p : Params) (w : Byte) :
    ((transmitActs p w).map Act.least).sum = 2 * (p.tEH + p.tEL) := by
  simp [transmitActs, nibbleWrites, pulseActs, Act.least]
  omega

/-- TRANSMIT writes the four data lines and E (41_protocol_engine.md R112). -/
theorem mem_of_write_mem_transmitActs {p : Params} {w : Byte} {g : Sig} {v : Bool}
    (h : Act.write g v ∈ transmitActs p w) : g ∈ [Sig.e, .db7, .db6, .db5, .db4] := by
  have level : (g, v) ∈ transmitLevels w := by
    rw [← transmitActs_levels p w]
    exact List.mem_filterMap.mpr ⟨_, h, rfl⟩
  have signals : ∀ k ∈ (transmitLevels w).map Prod.fst, k ∈ [Sig.e, .db7, .db6, .db5, .db4] := by
    simp [transmitLevels, nibbleLevels]
  exact signals g (List.mem_map_of_mem level)

/-- Settles O24: once the checks pass, the sixteen micro-steps are level writes and waits, which run on whatever the
answers are. -/
theorem transmitCompletesWhateverTheAnswers : Obligations.TransmitCompletesWhateverTheAnswers := by
  intro s w ready guarded held
  have plain := transmitActs_plain s.params w
  have lasts := (applyAll_counts plain s).2
  have calls := applyAll_levelCalls plain s
  rw [transmitActs_least] at lasts
  rw [transmitActs_levels] at calls
  exact ⟨_, exec_transmit w ready guarded held, lasts, calls, (applyAll_keeps plain s).1⟩

/-- Settles O22: the last write to E is the second pulse's fall, and the last ones to the data lines are the low
nibble's; RS and RW are not written. -/
theorem transmitEndsWithLowNibble : Obligations.TransmitEndsWithLowNibble := by
  intro s w ready guarded held driven acc
  have line := line_applyAll_accepted (transmitActs_plain s.params w)
    (fun g _ h => driven g (mem_of_write_mem_transmitActs h)) (by rwa [transmitActs_calls])
  refine ⟨_, exec_transmit w ready guarded held, ?_⟩
  simp only [line]
  exact ⟨rfl, rfl, rfl, rfl, rfl, rfl, rfl⟩

/-- Settles O21: each pulse latches the nibble written before it. -/
theorem transmitLatchesHighThenLow : Obligations.TransmitLatchesHighThenLow := by
  intro s w ready guarded held driven traced low acc
  obtain ⟨t, run, -, -, -, -, latched, -⟩ := Sending.transmit ⟨driven, traced, low⟩ (k := 0) acc s.params w
  exact ⟨t, run ▸ exec_transmit w ready guarded held, latched⟩

/-- Settles O23: the two pulses of an accepted TRANSMIT, with the data writes before each. -/
theorem transmitPulsesKeepTheFloor : Obligations.TransmitPulsesKeepTheFloor := by
  intro s w ready guarded held driven traced low acc
  obtain ⟨t, l₁, l₂, run, -, -, latched, ⟨d₁, d₂, trace, data, second⟩, -, high₁, high₂, rise₁, rise₂, ends, -⟩ :=
    transmitActs_spec (k := 0) s.params w driven acc traced low
  exact ⟨t, l₁, l₂, d₁, d₂, run ▸ exec_transmit w ready guarded held, latched, trace, data, high₁, high₂, rise₁, second,
    rise₂, ends⟩

end Sys2Proof.Machine

/-! INIT_RUN from request to end: its entry checks and its sixteen steps, issued to an idle agent
(42_init_sequencer.md R130 to R138). -/

namespace Sys2Proof.Machine

/-! ### What it leaves alone -/

theorem allActs_initGap {q : Act → Bool} (wait : ∀ n, q (.wait n) = true) (p : Params) (k : Nat) :
    AllActs q (initGap p k) := by
  unfold initGap
  split
  · exact allActs_nil
  · simp [initWait, wait]

/-- The sixteen steps of INIT_RUN act on every line but RW (42_init_sequencer.md R130). -/
theorem initSequence_onPins (p : Params) : AllActs (Act.onPins (· != .rw)) (initSequence p) := by
  have transmits (w : Byte) : AllActs (Act.onPins (· != .rw)) (transmitSteps p w) := by
    simp [transmitSteps, transmitActs, nibbleWrites, pulseActs, Act.onPins]
  have gaps := allActs_initGap (q := Act.onPins (· != .rw)) (fun _ => rfl) p
  simp [initSequence, initWait, initTx, initCommands, setlevelSteps, transmits, gaps, Act.onPins]

theorem initSequence_straight (p : Params) : AllActs Act.straight (initSequence p) := by
  have all := allActs_initRunSteps (q := Act.straight) (fun _ => rfl) (fun _ _ => rfl) (fun _ => rfl) rfl p
  exact ((allActs_append _ _).mp all).2

/-- INIT_RUN faults at one of its two checks, or sets `initDone` and goes on with its sixteen steps
(42_init_sequencer.md R130, R131). -/
theorem runTask_initRun_cases (a : Nat) (p : Params) (r : Op) (x : Option Result) (l : Locals) (s : State) :
    (∃ pc site c, runTask a { req := r, result := x, loc := l, rest := initRunSteps p } s = s.raise a pc site c) ∨
      runTask a { req := r, result := x, loc := l, rest := initRunSteps p } s =
        runTask a { req := r, result := x, loc := l, rest := initSequence p } { s with initDone := true } := by
  by_cases guarded : s.lockOwner = some a
  · by_cases done : s.initDone = true
    · have run := runWith_initRun_twice (J := runRest a) guarded done p [] r x l
      rw [List.append_nil] at run
      exact .inl ⟨_, _, _, run⟩
    · have pass : ∀ c ∈ [Check.guarded, .initFresh], c.passes a s = true := by
        simp [Check.passes, State.holdsGuard, guarded, done]
      have checks : runOn a (checked .initRun [.guarded, .initFresh] []) l s = some (l, s) :=
        runOn_checks pass .initRun [] l
      have entry : runOn a (checked .initRun [.guarded, .initFresh] [] ++ numbered .initRun 0 [.beginInit]) l s =
          some (l, { s with initDone := true }) := runOn_append checks
      exact .inr (runTask_append entry)
  · have fails : Check.guarded.passes a s = false := by simp [Check.passes, State.holdsGuard, guarded]
    have run := runWith_check_fails (J := runRest a) (passed := []) (by simp) fails .initRun [.initFresh] []
      (numbered .initRun 0 [.beginInit] ++ initSequence p) r x l
    rw [List.nil_append, ← List.append_assoc] at run
    exact .inl ⟨_, _, _, run⟩

/-- Whatever INIT_RUN comes to, it has acted on the pins of every line but RW, and it may have set `initDone`. -/
theorem runTask_initRun_endsOnPins (a : Nat) (p : Params) (r : Op) (x : Option Result) (l : Locals) (s : State) :
    ∃ done, EndsOnPins (· != .rw) a r x (initSequence p) { s with initDone := done }
      (runTask a { req := r, result := x, loc := l, rest := initRunSteps p } s) := by
  obtain ⟨pc, site, c, run⟩ | run := runTask_initRun_cases a p r x l s
  · rw [run]
    exact ⟨s.initDone, s, PinsWithin.refl _ s, .inr ⟨⟨pc, site, c, rfl⟩, AllActs.not_of_head rfl⟩⟩
  · rw [run]
    exact ⟨true, runTask_endsOnPins (initSequence_onPins p)⟩

/-- Settles O36: a failed check only raises its fault, and the sixteen steps are checks, waits and level writes of lines
other than RW; none of them changes what the request returns, which is nothing. -/
theorem initRunFrame : Obligations.InitRunFrame := by
  intro s t h
  have issued : admission .initRun s = .task .initRun none (initRunSteps s.params) := rfl
  have others := sameOthers_exec h
  have levels := exec_sameButLevel issued h (allActs_initRunSteps_keepsGroup s.params)
  obtain ⟨-, rfl⟩ := exec_task issued h
  obtain ⟨done, ends⟩ := runTask_initRun_endsOnPins s.self s.params .initRun none Locals.start s
  have results := ends.results (initSequence_straight s.params)
  obtain ⟨lines, ⟨acquired, reg, loaded, -, sess⟩, launch, owner, refusals, registrations⟩ := ends.frame
  exact ⟨lines .rw rfl, levels, acquired, reg, loaded, sess, launch, owner, others, refusals, results, registrations⟩

/-! ### The run to its end -/

theorem exec_initRun {s : State} (ready : s.Ready) (guarded : s.Guarded) (fresh : s.initDone = false)
    (held : s.linesAcquired = true) (rs : (s.line .rs).presents = true) :
    exec .initRun s = .next (applyAll (initActs s.params) { s with initDone := true }) :=
  exec_straight_of_no_result ready rfl (runOn_initRun ⟨guarded, held, rs⟩ fresh s.params Locals.start)

theorem State.AllDriven.sending {s : State} (all : s.AllDriven) (traced : s.TraceAccounts)
    (low : (s.line .e).lvl = .low) : Sending s := ⟨fun g _ => all g, traced, low⟩

/-- Settles O32: each TRANSMIT of the sequence latches its word under the level of RS that stands. -/
theorem initRunSendsTheFixedSequence : Obligations.InitRunSendsTheFixedSequence := by
  intro s ready guarded fresh held all traced rs low acc
  obtain ⟨t, run, -, -, -, -, -, -, -, -, latched⟩ := initActs_spec (s := { s with initDone := true }) (k := 0)
    s.params (all.sending traced low) (all .rs) acc
  refine ⟨t, run ▸ exec_initRun ready guarded fresh held (all .rs), ?_⟩
  rw [latched, show (State.line { s with initDone := true } .rs).lvl = .low from rs]
  rfl

/-- INIT_RUN ends with char's TRANSMIT, the wait after it and the fall of RS (42_init_sequencer.md R130). -/
theorem initActs_ends (p : Params) :
    ∃ pre, initActs p = pre ++ (transmitActs p p.rom.char ++ [Act.wait p.tDPOST, .write .rs false]) := by
  rw [initActs, List.append_assoc, List.append_assoc]
  exact ⟨_, rfl⟩

/-- Settles O33: after char's low nibble and the fall of its pulse, RS alone is written, to 0; RW is not written. -/
theorem initRunEndsInCommandMode : Obligations.InitRunEndsInCommandMode := by
  intro s ready guarded fresh held all acc
  have run := exec_initRun ready guarded fresh held (all .rs)
  obtain ⟨rw_same, -⟩ := initRunFrame s _ run
  obtain ⟨pre, ends⟩ := initActs_ends s.params
  have line := line_applyAll_accepted (s := { s with initDone := true }) (initActs_plain s.params) (fun g _ _ => all g)
    (by rw [(initActs_counts s.params).1]; exact acc)
  simp only [ends, List.foldl_append] at line run rw_same
  refine ⟨_, run, ⟨?_, congrArg Line.lvl rw_same, ?_⟩, ?_⟩
  · rw [line]; rfl
  · rw [line]; rfl
  · simp only [line]
    exact ⟨rfl, rfl, rfl, rfl⟩

/-! ### The waits between the words -/

/-- The word at a place, and past the last one `z`. -/
def wordAt (ws : List (Latch × Latch)) (z : Latch × Latch) (k : Nat) : Latch × Latch := ws.getD k z

theorem wordAt_length (ws : List (Latch × Latch)) (z : Latch × Latch) : wordAt ws z ws.length = z :=
  List.getD_eq_default ws z le_rfl

theorem flatMap_range_wordAt (ws : List (Latch × Latch)) (z : Latch × Latch) :
    (List.range ws.length).flatMap (fun k => [(wordAt ws z k).1, (wordAt ws z k).2]) = pairs ws := by
  induction ws with
  | nil => rfl
  | cons w ws ih =>
    rw [List.length_cons, List.range_succ_eq_map, List.flatMap_cons, List.flatMap_map]
    exact congrArg ([w.1, w.2] ++ ·) ih

section
variable {p : Params} {gap n m : Nat} {ws : List (Latch × Latch)} (spaced : Spaced p gap n ws m) (z : Latch × Latch)
include spaced

theorem Spaced.floor {k : Nat} (hk : k < ws.length) : PulseFloor p (wordAt ws z k) := by
  induction ws generalizing n k with
  | nil => cases hk
  | cons w ws ih =>
    obtain ⟨floor, -, rest⟩ := spaced
    cases k with
    | zero => exact floor
    | succ k => exact ih rest (Nat.lt_of_succ_lt_succ hk)

theorem Spaced.first (nonempty : 0 < ws.length) : (wordAt ws z 0).1.RisesFrom n := by
  cases ws with
  | nil => cases nonempty
  | cons w ws => exact spaced.2.1

theorem Spaced.following {k : Nat} (hk : k + 1 < ws.length) :
    (wordAt ws z (k + 1)).1.RisesFrom ((wordAt ws z k).2.t + p.tEL + gap) := by
  induction ws generalizing n k with
  | nil => cases hk
  | cons w ws ih =>
    obtain ⟨-, -, rest⟩ := spaced
    have hk := Nat.lt_of_succ_lt_succ hk
    cases k with
    | zero => exact rest.first z hk
    | succ k => exact ih rest hk

theorem Spaced.last {k : Nat} (hk : ws.length = k + 1) : (wordAt ws z k).2.t + p.tEL + gap ≤ m := by
  induction ws generalizing n k with
  | nil => cases hk
  | cons w ws ih =>
    obtain ⟨-, -, rest⟩ := spaced
    have hk := Nat.succ.inj hk
    cases k with
    | zero =>
      obtain rfl := List.eq_nil_of_length_eq_zero hk
      exact rest
    | succ k => exact ih rest hk

end

/-- Settles O34: the micro-steps after the checks are level writes and waits, which run on whatever the answers are; with
every write accepted, word 0 is reset's, words 1 to 8 are the commands' and word 9 is char's. -/
theorem initRunIsBestEffort : Obligations.InitRunIsBestEffort := by
  intro s ready guarded fresh held rs
  have plain := initActs_plain s.params
  obtain ⟨calls, lasts⟩ := applyAll_counts plain { s with initDone := true }
  obtain ⟨⟨⟨-, -, -, done, -⟩, logs, launch, owner, agents⟩, -⟩ := applyAll_keeps plain { s with initDone := true }
  rw [(initActs_counts s.params).1] at calls
  rw [(initActs_counts s.params).2] at lasts
  refine ⟨_, exec_initRun ready guarded fresh held rs, done, by simpa only [Nat.add_assoc] using lasts, logs, launch,
    owner, agents, calls, fun all traced rsLow low acc => ?_⟩
  obtain ⟨t, x, ws, y, up, down, d₁, d₂, rfl, len, latched, trace, before, noSelect, floorX, riseX, spaced, floorY,
    riseY, falls⟩ := initActs_times (s := { s with initDone := true }) s.params (all.sending traced low) rs rsLow acc
  have place9 : (x :: ws).length = 9 := congrArg Nat.succ len
  have word9 : wordAt (x :: ws) y 9 = y := by rw [← place9, wordAt_length]
  have pairs9 := flatMap_range_wordAt (x :: ws) y
  rw [place9] at pairs9
  refine ⟨wordAt (x :: ws) y, up, down, d₁, d₂, ?_, trace, before.trans (congrArg _ pairs9.symm), noSelect,
    fun k hk => ?_, riseX, spaced.first y (by omega), fun k one eight => ?_, spaced.last y len, ?_, ?_⟩
  · rw [latched, List.range_succ, List.flatMap_append, pairs9, List.flatMap_singleton, word9, pairs,
      List.flatMap_append]
    rfl
  · obtain rfl | commands : k = 9 ∨ k < 9 := by omega
    · rwa [word9]
    · cases k with
      | zero => exact floorX
      | succ k => exact spaced.floor y (by omega)
  · obtain ⟨j, rfl⟩ := Nat.exists_eq_add_of_le' one
    exact spaced.following y (by omega)
  · rwa [word9]
  · rwa [word9]

end Sys2Proof.Machine

/-! LOCK and UNLOCK from request to end, and the operations that need the guard issued without it
(43_session_lifecycle.md R145 to R147; 60_exceptions.md R179, R181). -/

namespace Sys2Proof.Machine

/-! ### LOCK and UNLOCK -/

/-- Settles O27: the one micro-step of LOCK takes the free guard. -/
theorem lockTakesFreeGuard : Obligations.LockTakesFreeGuard := by
  intro s ready free
  exact exec_straight_of_no_result ready rfl (runOn_lock free s.self Locals.start)

/-- UNLOCK by an agent that does not hold the guard faults (43_session_lifecycle.md R146). -/
theorem runTask_unlock_fails {a : Nat} {s : State} (unheld : s.lockOwner ≠ some a) (r : Op) (x : Option Result)
    (l : Locals) :
    runTask a { req := r, result := x, loc := l, rest := unlockSteps } s =
      s.raise a { op := r, k := l.k } { op := .unlock, k := 0 } .unlockNotOwner := by
  simp [runTask, unlockSteps, checked, numbered, runWith, perform, performUnlock, State.holdsGuard, unheld,
    State.raiseAt]

/-- Settles O30: the one micro-step of UNLOCK frees the agent's own guard, and faults at any other. -/
theorem unlockFreesOnlyOnesOwnGuard : Obligations.UnlockFreesOnlyOnesOwnGuard := by
  intro s ready
  constructor
  · intro guarded
    exact exec_straight_of_no_result ready rfl (runOn_unlock guarded Locals.start)
  · intro unguarded
    exact exec_of_runTask ready rfl (runTask_unlock_fails unguarded .unlock none Locals.start)

/-- A run that comes to a LOCK of a held guard waits before it (43_session_lifecycle.md R145). -/
theorem runTask_lock_waits {a b : Nat} {s : State} (held : s.lockOwner = some b) (r : Op) (x : Option Result)
    (ns : List MicroStep) (l : Locals) :
    runTask a { req := r, result := x, loc := l, rest := lockSteps ++ ns } s =
      s.park a { req := r, result := x, loc := l, rest := lockSteps ++ ns } := by
  simp [lockSteps, checked, numbered, runTask, runWith, perform, performLock, held]

/-- An agent that is put where it stands already changes nothing. -/
theorem State.park_of_running {s : State} {a : Nat} {t : Task} (wf : mapWf s.agents)
    (running : s.agentState a = some (.running t)) : s.park a t = s := by
  rw [State.park, mapPut_self wf running]

/-- A turn of a stuck agent changes nothing but that the turn is taken: it stands where it stood. -/
theorem step_of_stuck {s : State} {a : Nat} (wf : mapWf s.agents) (stuck : s.stuck a = true)
    (turn : s.turn = .agent a) : step s = .next s.afterTurn := by
  obtain ⟨t, running, parked⟩ := agentTurn_of_stuck (s := s.afterTurn) stuck
  rw [step, turn, takeTurn, parked, State.park_of_running (s := s.afterTurn) wf running]

/-- A request of an agent that is not idle is not issued (00_scope.md R17). -/
theorem requestTurn_of_busy (meaning : Instr → State → Host.Outcome State Fault Refusal) {s : State} {r : Request}
    {rs : List Request} (pending : s.requests = r :: rs) (busy : s.idle r.agent = false) :
    requestTurn meaning s = .next s := by
  have none_next : s.nextRequest = none := by simp [State.nextRequest, pending, busy]
  rw [requestTurn, none_next]

theorem State.not_idle_of_stuck {s : State} {a : Nat} (stuck : s.stuck a = true) : s.idle a = false := by
  obtain ⟨t, running, -⟩ := agentTurn_of_stuck stuck
  rw [State.idle, running]
  rfl

/-- Settles O28: the agent is parked before its LOCK, and from there neither its own turn nor one for its request moves
it. -/
theorem lockOfHeldGuardWaits : Obligations.LockOfHeldGuardWaits := by
  constructor
  · intro s b ready held
    have waits := runTask_lock_waits (a := s.self) held .lock none [] Locals.start
    rw [List.append_nil] at waits
    refine ⟨_, exec_of_runTask ready rfl waits, ⟨rfl, rfl⟩, ⟨rfl, rfl, rfl, rfl, rfl⟩, ⟨rfl, rfl, rfl⟩,
      sameOthers_park s.self _ s, rfl, rfl, State.pcOf_park_self s.self _ s, ?_⟩
    simp [State.stuck, State.atLock, held, lockSteps, checked, numbered]
  · intro s a wf stuck
    refine ⟨step_of_stuck wf stuck, fun r rs pending own turn => ?_⟩
    have busy : s.afterTurn.idle r.agent = false := own ▸ State.not_idle_of_stuck stuck
    obtain turn | turn := turn
    · rw [step_of_whole turn, requestTurn_of_busy exec (s := s.afterTurn) pending busy]
    · rw [step_of_begin turn, requestTurn_of_busy begin (s := s.afterTurn) pending busy]

/-! ### Without the guard -/

/-- An operation whose first check is the guard faults at it, when the agent does not hold the guard (60_exceptions.md
R179). -/
theorem exec_unguarded {i : Instr} {s : State} {op : Op} {x : Option Result} {later : List Check} {acts : List Act}
    {rest after : List MicroStep} (ready : s.Ready) (unguarded : ¬ s.Guarded) (issued : admission i s = .task op x rest)
    (steps : rest = checked op (.guarded :: later) acts ++ after) :
    exec i s = .next (s.raise s.self { op := op, k := 0 } { op := op, k := 0 } .unguarded) := by
  have fails : Check.guarded.passes s.self s = false := by
    simpa [Check.passes, State.holdsGuard, State.Guarded] using unguarded
  refine exec_of_runTask ready issued ?_
  rw [steps]
  exact runWith_check_fails (passed := []) (by simp) fails op later acts after op x Locals.start

/-- Settles O31: each of the four expansions begins with the guard's check. -/
theorem unguardedOperationsFault : Obligations.UnguardedOperationsFault := by
  intro s ready unguarded
  refine ⟨fun mask => ?_, fun g v => ?_, fun w => ?_, ?_⟩
  · exact exec_unguarded (i := .release mask) ready unguarded rfl (List.append_nil _).symm
  · exact exec_unguarded (i := .setlevel g v) ready unguarded rfl (List.append_nil _).symm
  · exact exec_unguarded (i := .transmit w) ready unguarded rfl (List.append_nil _).symm
  · exact exec_unguarded (i := .initRun) ready unguarded rfl (List.append_assoc _ _ _)

end Sys2Proof.Machine

/-! The host events at their issue, and the two that touch no line: EV_OPEN and EV_CONTROL (43_session_lifecycle.md
R158, R163 to R165). -/

namespace Sys2Proof.Machine

theorem underDuty_kept {kept : Bool} (duty : kept = true) (op : Op) (x : Option Result) (rest : List MicroStep) :
    underDuty kept op x rest = .task op x rest := if_pos duty

/-- An event that breaks its host duty is refused (43_session_lifecycle.md R165). -/
theorem exec_of_broken_duty {i : Instr} {s : State} {kept : Bool} {op : Op} {x : Option Result} {rest : List MicroStep}
    (issued : admission i s = underDuty kept op x rest) (broken : kept = false) :
    exec i s = .next (s.refuse (.hostDuty op)) := by
  rw [exec_eq_runAdmitted, issued, broken]
  rfl

/-- Settles O37: each breach makes the duty its event rests on fail. -/
theorem hostDutiesAreRefused : Obligations.HostDutiesAreRefused := by
  intro s sid
  refine ⟨fun loaded => ?_, fun breach => ?_, fun breach => ?_, fun breach => ?_, fun unloaded => ?_,
    fun r => refused_refuse r s⟩
  · exact exec_of_broken_duty rfl (by simp [loaded])
  · refine exec_of_broken_duty rfl ?_
    obtain unloaded | opened := breach
    · simp [unloaded]
    · simp [State.openCount, opened]
  · refine exec_of_broken_duty rfl ?_
    obtain unloaded | opened := breach
    · simp [unloaded]
    · simp [State.isOpen, sidOf, opened]
  · refine exec_of_broken_duty rfl ?_
    obtain unloaded | closed := breach
    · simp [unloaded]
    · simp [State.isOpen, sidOf, closed]
  · exact exec_of_broken_duty rfl (by simp [unloaded])

/-- Settles O44: the one line of EV_OPEN writes the session, and an identifier that names none breaks its duty. -/
theorem openTouchesOnlyTheSession : Obligations.OpenTouchesOnlyTheSession := by
  intro s sid ready loaded closed
  constructor
  · intro below
    have kept : (s.loaded == .loaded && s.isSession (sidOf sid) && !s.isOpen (sidOf sid)) = true := by
      simp [loaded, State.isSession, State.isOpen, sidOf, below, closed]
    have run : runOn s.self (eventLines [.sessOpen (sidOf sid)]) Locals.start s =
        some (Locals.start.steps 1, { s.tick 0 with sess := setInsert (sidOf sid) s.sess }) := rfl
    exact exec_straight (i := .evOpen sid) ready (underDuty_kept kept .evOpen _ _) run
  · intro above
    exact exec_of_broken_duty rfl (by simp [State.isSession, sidOf, Nat.not_lt.mpr above])

/-- Settles O48: EV_CONTROL has no micro-step, so it ends at once with its result. -/
theorem controlReturnsInvalidArgument : Obligations.ControlReturnsInvalidArgument := by
  intro s sid ready loaded
  have kept : (s.loaded == .loaded) = true := beq_iff_eq.mpr loaded
  have run : runOn s.self [] Locals.start s = some (Locals.start, s) := rfl
  exact exec_straight (i := .evControl sid) ready (underDuty_kept kept .evControl _ _) run

end Sys2Proof.Machine

/-! EV_CLOSE from request to end, by CLOSE_POLICY (43_session_lifecycle.md R160 to R162). -/

namespace Sys2Proof.Machine

/-! ### The parts of its expansion -/

/-- The state in which LOCK has taken a free guard for the agent (43_session_lifecycle.md R145). -/
def State.lockedBy (a : Nat) (s : State) : State :=
  { s with lockOwner := some a, now := (s.tick 0).now, delays := s.delays.advance }

@[simp] theorem State.lockedBy_params (a : Nat) (s : State) : (s.lockedBy a).params = s.params := rfl

/-- The state in which UNLOCK has freed the guard (43_session_lifecycle.md R146). -/
def State.unlocked (s : State) : State :=
  { s with lockOwner := none, now := (s.tick 0).now, delays := s.delays.advance }

@[simp] theorem State.unlocked_lines (s : State) : s.unlocked.lines = s.lines := rfl

/-- The state in which `linesAcquired` has been written, in one micro-step. -/
def State.markAcquired (b : Bool) (s : State) : State :=
  { s with linesAcquired := b, now := (s.tick 0).now, delays := s.delays.advance }

/-- The state in which these lines have been released and `linesAcquired` is cleared. -/
def State.relinquished (gs : List Sig) (s : State) : State := (releaseAll gs s).markAcquired false

/-- The state in which the end of EV_CLOSE has freed the guard and closed the session (43_session_lifecycle.md R160). -/
def State.closed (sid : Nat) (s : State) : State :=
  { s with
    lockOwner := none
    sess := setErase sid s.sess
    now := ((s.tick 0).tick 0).now
    delays := s.delays.advance.advance }

theorem runOn_lockSteps {s : State} (free : s.lockOwner = none) (a : Nat) (l : Locals) :
    runOn a lockSteps l s = some (l.steps 1, s.lockedBy a) := runOn_lock free a l

theorem runOn_unlockSteps {s : State} {a : Nat} (held : s.lockOwner = some a) (l : Locals) :
    runOn a unlockSteps l s = some (l.steps 1, s.unlocked) := runOn_unlock held l

/-- The release of EV_CLOSE and EV_UNLOAD under the guard, when its RELEASE comes to the release of `gs`. -/
theorem runOn_closeRelease {a : Nat} {gs : List Sig} {l l' : Locals} {s : State} (guarded : s.lockOwner = some a)
    (run : runOn a (numbered .release 0 (releaseActs (chosen s.params allSignals))) l s = some (l', releaseAll gs s)) :
    runOn a (closeRelease s.params) l s = some (l'.steps 1, s.relinquished gs) := by
  have checked := runOn_checks (guardCheck_passes guarded) .release (releaseActs (chosen s.params allSignals)) l
  exact (runOn_append (checked.trans run)).trans (runOn_setAcquired false a l' _)

theorem runOn_closeTail {a : Nat} {s : State} (guarded : s.lockOwner = some a) (sid : Nat) (l : Locals) :
    runOn a (closeTail sid) l s = some (l.steps 2, s.closed sid) :=
  runOn_append (runOn_unlock guarded l)

/-- CLOSE_POLICY has an EV_CLOSE issued now release the lines: reference, or refcount at the last open session
(43_session_lifecycle.md R160). -/
def State.CloseReleases (s : State) : Prop :=
  s.params.closePolicy = .reference ∨ s.params.closePolicy = .refcount ∧ s.openCount = 1

theorem runOn_ifLast {s : State} (last : s.openCount = 1) (a sid : Nat) (l : Locals) :
    runOn a (eventLines [.ifLast sid]) l s = some (l, s) := by
  simp [eventLines, runOn, perform, last]

/-- An EV_CLOSE that releases comes to its release in one micro-step, its LOCK of the free guard. -/
theorem evCloseSteps_releases {s : State} (releases : s.CloseReleases) (free : s.lockOwner = none) (sid a : Nat)
    (l : Locals) :
    ∃ pre, evCloseSteps s.params sid = pre ++ (closeRelease s.params ++ closeTail sid) ∧
      runOn a pre l s = some (l.steps 1, s.lockedBy a) := by
  have lock := runOn_lockSteps free a l
  obtain policy | ⟨policy, last⟩ := releases
  · exact ⟨lockSteps, by simp only [evCloseSteps, policy, List.append_assoc], lock⟩
  · exact ⟨lockSteps ++ eventLines [.ifLast sid], by simp only [evCloseSteps, policy, List.append_assoc],
      (runOn_append lock).trans (runOn_ifLast (s := s.lockedBy a) last a sid _)⟩

theorem admission_evClose {s : State} {sid : Byte} (loaded : s.loaded = .loaded) (opened : sid.toNat ∈ s.sess) :
    admission (.evClose sid) s = .task .evClose (some .ok) (evCloseSteps s.params sid.toNat) :=
  underDuty_kept (by simp [loaded, State.isOpen, sidOf, opened]) .evClose (some .ok) _

/-! ### The lines released -/

/-- An EV_CLOSE whose RELEASE comes to the release of `gs` leaves the pins as that release does, and ends with the guard
free, the session closed and Ok. -/
theorem exec_evClose_releases {s : State} {sid : Byte} {gs : List Sig} {l : Locals} (ready : s.Ready)
    (loaded : s.loaded = .loaded) (opened : sid.toNat ∈ s.sess) (free : s.lockOwner = none) (releases : s.CloseReleases)
    (run : runOn s.self (numbered .release 0 (releaseActs (chosen s.params allSignals))) (Locals.start.steps 1)
      (s.lockedBy s.self) = some (l, releaseAll gs (s.lockedBy s.self))) :
    ∃ t, exec (.evClose sid) s = .next t ∧ SamePins (releaseAll gs (s.lockedBy s.self)) t ∧ t.linesAcquired = false ∧
      t.lockOwner = none ∧ t.sess = setErase sid.toNat s.sess ∧ t.reg = s.reg ∧ t.loaded = s.loaded ∧
      t.initDone = s.initDone ∧ t.agents = s.agents ∧ t.faults = s.faults ∧
      t.results = s.results ++ [{ agent := s.self, op := .evClose, result := .ok }] := by
  obtain ⟨pre, steps, lock⟩ := evCloseSteps_releases releases free sid.toNat s.self Locals.start
  obtain ⟨⟨⟨agents, ⟨faults, -, results⟩, -⟩, ⟨-, reg, load, done, sess⟩, owner, -, -⟩, -⟩ :=
    releaseAll_spec gs (s.lockedBy s.self)
  have release := runOn_closeRelease (s := s.lockedBy s.self) rfl run
  have tail := runOn_closeTail (s := (s.lockedBy s.self).relinquished gs) owner sid.toNat (l.steps 1)
  have whole := (runOn_append lock).trans ((runOn_append release).trans tail)
  rw [State.lockedBy_params, ← steps] at whole
  exact ⟨_, exec_straight ready (admission_evClose loaded opened) whole, ⟨rfl, rfl⟩, rfl, rfl,
    congrArg (setErase sid.toNat) sess, reg, load, done, agents, faults, congrArg (· ++ [_]) results⟩

/-- Settles O45: every line is owned, so RELEASE frees them all. -/
theorem closeReleasesTheLines : Obligations.CloseReleasesTheLines := by
  intro s sid wf ready loaded opened free owned releases
  obtain ⟨-, edges, lines⟩ := releaseAll_spec (chosen s.params allSignals) (s.lockedBy s.self)
  obtain ⟨t, run, ⟨same_lines, same_trace⟩, acquired, owner, sess, reg, load, rest⟩ :=
    exec_evClose_releases ready loaded opened free releases
      (runOn_releases (s := s.lockedBy s.self) (chosen_nodup wf allSignals) (fun g _ => owned g) s.self 0 rfl)
  refine ⟨t, run, fun g => ?_, ?_, acquired, owner, sess, reg, load.trans loaded, rest⟩
  · have all : g ∈ chosen s.params allSignals := (mem_chosen wf allSignals g).mpr (selects_allSignals g)
    rw [State.line, same_lines, ← State.line, lines, if_pos all]
  · rw [chosen_allSignals] at edges same_trace
    rw [GainsEdges, State.edges, same_trace]
    exact edges

/-- Settles O47: the RELEASE faults at its first line, or skips them all and is the release of none. -/
theorem secondCloseReleasesUnowned : Obligations.SecondCloseReleasesUnowned := by
  intro s sid wf ready loaded opened free unowned releases
  cases policy : s.params.releaseUnowned with
  | fault =>
    obtain ⟨pre, steps, lock⟩ := evCloseSteps_releases releases free sid.toNat s.self Locals.start
    have run := runTask_releaseAll_faults (s := s.lockedBy s.self) wf unowned policy rfl .evClose (some .ok)
      (eventLines [.setAcquired false] ++ closeTail sid.toNat) (Locals.start.steps 1)
    rw [← List.append_assoc, ← closeRelease, ← runTask_append lock, State.lockedBy_params, ← steps] at run
    refine ⟨_, exec_of_runTask ready (admission_evClose loaded opened) run, ⟨rfl, rfl⟩, fun _ => ⟨?_, rfl, rfl⟩, nofun⟩
    exact ⟨rfl, State.agentState_raise_self _ _ _ _ _⟩
  | noop =>
    have skipped := runOn_releases_noop (s := s.lockedBy s.self) (chosen_nodup wf allSignals) policy s.self 0
      (l := Locals.start.steps 1) rfl
    rw [List.filter_eq_nil_iff.mpr fun g _ => Bool.not_eq_true _ ▸ unowned g] at skipped
    obtain ⟨t, run, pins, -, owner, sess, -, -, -, -, faults, results⟩ :=
      exec_evClose_releases ready loaded opened free releases skipped
    exact ⟨t, run, pins, nofun, fun _ => ⟨faults, owner, sess, results⟩⟩

/-! ### The lines kept -/

/-- Settles O46: the branch of refcount goes straight to the UNLOCK, and shutdown_only has no hardware action at all. -/
theorem closeMayKeepTheLines : Obligations.CloseMayKeepTheLines := by
  intro s sid ready loaded opened keeps
  have issued := admission_evClose loaded opened
  obtain ⟨policy, others, free⟩ | policy := keeps
  · have steps : evCloseSteps s.params sid.toNat =
        lockSteps ++ (eventLines [.ifLast sid.toNat] ++ (closeRelease s.params ++ closeTail sid.toNat)) := by
      simp only [evCloseSteps, policy, List.append_assoc]
    have run := runTask_append (r := .evClose) (x := some .ok) (ns := eventLines [.ifLast sid.toNat] ++
      (closeRelease s.params ++ closeTail sid.toNat)) (runOn_lockSteps free s.self Locals.start)
    rw [← steps, runTask_ifLast, if_neg (show (s.lockedBy s.self).openCount ≠ 1 from others), runRest,
      runWith_straight (runOn_closeTail (s := s.lockedBy s.self) rfl sid.toNat _)] at run
    exact ⟨_, exec_of_runTask ready issued run, ⟨rfl, rfl⟩, rfl, free.symm, rfl, mapErase_of_none ready, rfl, rfl⟩
  · have run : runOn s.self (evCloseSteps s.params sid.toNat) Locals.start s =
        some (Locals.start.steps 1, { s.tick 0 with sess := setErase sid.toNat s.sess }) := by
      simp only [evCloseSteps, policy]
      rfl
    exact ⟨_, exec_straight ready issued run, ⟨rfl, rfl⟩, rfl, rfl, rfl, rfl, rfl, rfl⟩

end Sys2Proof.Machine

/-! EV_UNLOAD from request to end: the clear word, the release of the lines, UNREGISTER (43_session_lifecycle.md R155 to
R157). -/

namespace Sys2Proof.Machine

/-! ### What the pins show -/

/-- Level writes and waits drive only lines that they write. -/
theorem applyAll_edges {acts : List Act} (plain : ∀ x ∈ acts, x.plain = true) (s : State) :
    ∃ es, GainsEdges s (applyAll acts s) es ∧ ∀ x ∈ es, ∃ g v, Act.write g v ∈ acts ∧ x = Edge.drive g v := by
  induction acts generalizing s with
  | nil => exact ⟨[], GainsEdges.refl s, nofun⟩
  | cons y ys ih =>
    obtain ⟨es, gains, drives⟩ := ih (fun x mem => plain x (List.mem_cons_of_mem _ mem)) (y.apply s)
    have later : ∀ x ∈ es, ∃ g v, Act.write g v ∈ y :: ys ∧ x = Edge.drive g v := fun x mem => by
      obtain ⟨g, v, written, edge⟩ := drives x mem
      exact ⟨g, v, List.mem_cons_of_mem _ written, edge⟩
    have plain_y := plain y List.mem_cons_self
    cases y <;> simp only [Act.plain, Bool.false_eq_true] at plain_y
    case wait n => exact ⟨es, gains, later⟩
    case write g v =>
      refine ⟨_, (gainsEdges_writeLevel g v (s.tick 0)).trans gains, fun x mem => ?_⟩
      obtain now | mem := List.mem_append.mp mem
      · split at now
        · exact ⟨g, v, List.mem_cons_self, List.mem_singleton.mp now⟩
        · cases now
      · exact later x mem

theorem latches_releaseAll (gs : List Sig) (s : State) : (releaseAll gs s).latches = s.latches := by
  induction gs generalizing s with
  | nil => rfl
  | cons g gs ih =>
    have freed : State.latches ((((s.tick 0).call (.releaseLine (s.pin g))).tick 0).unclaim g) = s.latches :=
      (latches_append s.trace _).trans (List.append_nil _)
    exact (ih _).trans freed

/-! ### The run to its end -/

theorem admission_evUnload {s : State} (loaded : s.loaded = .loaded) (closed : s.sess = []) :
    admission .evUnload s = .task .evUnload none (evUnloadSteps s.params) :=
  underDuty_kept (by simp [loaded, State.openCount, closed]) .evUnload none _

/-- Settles O43: after its LOCK comes the check of TRANSMIT that the lines are held. -/
theorem unloadAfterCloseFaults : Obligations.UnloadAfterCloseFaults := by
  intro s ready loaded closed free unowned
  have fault := runWith_transmit_unowned (J := runRest s.self) (s := s.lockedBy s.self) rfl unowned s.params
    (s.params.rom.get .clear)
    (closeRelease s.params ++ (unlockSteps ++ eventLines [.destroyNode, .destroyClass, .unregister, .clearLoad]))
    .evUnload none (Locals.start.steps 1)
  have run := (runTask_append (runOn_lockSteps free s.self Locals.start)).trans fault
  rw [← evUnloadSteps_eq] at run
  exact ⟨_, exec_of_runTask ready (admission_evUnload loaded closed) run, ⟨rfl, State.agentState_raise_self _ _ _ _ _⟩,
    rfl, ⟨rfl, rfl⟩, ⟨rfl, rfl, rfl, rfl, rfl⟩⟩

/-- The state in which EV_UNLOAD has taken the guard and sent the clear word. -/
def State.clearSent (s : State) : State :=
  applyAll (transmitActs s.params (s.params.rom.get .clear)) (s.lockedBy s.self)

/-- EV_UNLOAD of lines that are all owned comes to its UNREGISTER with the clear word sent, the lines released and the
guard free again. -/
theorem runOn_evUnload {s : State} (wf : s.params.wf = true) (free : s.lockOwner = none) (held : s.linesAcquired = true)
    (owned : ∀ g, (s.line g).own = true) :
    ∃ l, runOn s.self (evUnloadSteps s.params) Locals.start s =
      runOn s.self (eventLines [.destroyNode, .destroyClass, .unregister, .clearLoad]) l
        (s.clearSent.relinquished s.params.acqOrder).unlocked := by
  have plain := transmitActs_plain s.params (s.params.rom.get .clear)
  obtain ⟨⟨-, -, ⟨-, params, -⟩, owner, -⟩, lines⟩ := applyAll_keeps plain (s.lockedBy s.self)
  have clear := runOn_transmit (s := s.lockedBy s.self) rfl held s.params (s.params.rom.get .clear)
    (Locals.start.steps 1)
  have release (l : Locals) (fresh : l.releasing = false) := runOn_closeRelease (s := s.clearSent) owner
    (runOn_releases (params ▸ chosen_nodup wf allSignals) (fun g _ => (lines g).1.trans (owned g)) s.self 0 fresh)
  obtain ⟨⟨-, -, released, -⟩, -⟩ := releaseAll_spec (chosen s.clearSent.params allSignals) s.clearSent
  have unlock := runOn_unlockSteps (s := s.clearSent.relinquished (chosen s.clearSent.params allSignals))
    (released.trans owner)
  rw [show s.clearSent.params = s.params from params, chosen_allSignals] at release unlock
  rw [evUnloadSteps_eq]
  exact ⟨_, (runOn_append (runOn_lockSteps free s.self Locals.start)).trans ((runOn_append clear).trans
    ((runOn_append (release _ rfl)).trans (runOn_append (unlock _))))⟩

/-- Settles O42: the clear word's writes are of E and the data lines, the release frees every line, and UNREGISTER comes
last. -/
theorem unloadReturnsToReset : Obligations.UnloadReturnsToReset := by
  intro s wf ready loaded closed free held owned
  have plain := transmitActs_plain s.params (s.params.rom.get .clear)
  obtain ⟨⟨⟨-, reg, -, -, sess⟩, -⟩, -⟩ := applyAll_keeps plain (s.lockedBy s.self)
  obtain ⟨⟨-, ⟨-, reg', -, -, sess'⟩, -⟩, frees, lines⟩ := releaseAll_spec s.params.acqOrder s.clearSent
  obtain ⟨es, drives, written⟩ := applyAll_edges plain (s.lockedBy s.self)
  obtain ⟨cs, calls, line_calls⟩ := (applyAll_calls plain (s.lockedBy s.self)).trans
    (releaseAll_calls s.params.acqOrder s.clearSent)
  obtain ⟨l, run⟩ := runOn_evUnload wf free held owned
  obtain ⟨t, unregister, t_lines, t_trace, t_acquired, t_sess, t_owner, t_reg, t_loaded, t_done, t_calls⟩ :=
    runOn_unregister s.self l (s.clearSent.relinquished s.params.acqOrder).unlocked
  obtain ⟨agents, logs, launch⟩ := runOn_steady (run.trans unregister)
  refine ⟨t, es, cs, exec_straight_of_no_result ready (admission_evUnload loaded closed) (run.trans unregister),
    fun g => ?_, t_acquired, t_reg, t_loaded, t_done, t_owner, t_sess.trans (sess'.trans (sess.trans closed)), agents,
    logs, launch, ?_, fun x mem => ?_, fun all traced low acc => ?_, ?_, line_calls⟩
  · rw [State.line, t_lines]
    exact (lines g).trans (if_pos (Params.mem_acqOrder wf g))
  · rw [GainsEdges, State.edges, t_trace]
    exact GainsEdges.trans (s := s.lockedBy s.self) drives frees
  · obtain ⟨g, v, write, edge⟩ := written x mem
    exact ⟨g, mem_of_write_mem_transmitActs write, v, edge⟩
  · obtain ⟨v, sent, -, -, -, -, latched, -⟩ := Sending.transmit (s := s.lockedBy s.self) (k := 0)
      (State.AllDriven.sending all traced low) acc s.params (s.params.rom.get .clear)
    rw [State.latches, t_trace]
    rw [← sent] at latched
    exact (congrArg (List.map Latch.nibble) (latches_releaseAll s.params.acqOrder s.clearSent)).trans latched
  · have reg_before : (s.clearSent.relinquished s.params.acqOrder).unlocked.reg = s.reg := reg'.trans reg
    rw [t_calls, reg_before]
    exact congrArg (· ++ _) calls

end Sys2Proof.Machine

/-! EV_LOAD from request to end: brought up and registered, faulted at a registration call, or ended by its ACQUIRE
(43_session_lifecycle.md R150 to R154). -/

namespace Sys2Proof.Machine

theorem admission_evLoad {s : State} (unloaded : s.loaded = .unloaded) :
    admission .evLoad s = .task .evLoad (some .ok) (evLoadSteps s.params) :=
  underDuty_kept (by simp [unloaded]) .evLoad (some .ok) _

/-! ### Brought up -/

/-- What EV_LOAD whose registration calls are granted adds once the block is up (43_session_lifecycle.md R150, R152). -/
theorem exec_evLoad_registers {s u : State} {l : Locals} (ready : s.Ready) (unloaded : s.loaded = .unloaded)
    (registering : s.Registering) (up : runOn s.self (bringUpSteps s.params) Locals.start s = some (l, u))
    (undrawn : u.registrations = s.registrations) :
    ∃ t h₁ h₂, exec .evLoad s = .next t ∧ SameApartFromRegistration u t ∧ t.loaded = .loaded ∧
      s.registrations.nth Config.freeRegistration 0 = some h₁ ∧
      s.registrations.nth Config.freeRegistration 1 = some h₂ ∧ t.reg = some h₁ ∧
      t.hostCalls = u.hostCalls ++
        [.registerDevice s.params.deviceName callbacks (some h₁), .createDeviceClass s.params.className (some h₂),
          .createDeviceNode h₂ nodeName nodeMode true] ∧
      t.agents = s.agents ∧ t.faults = s.faults ∧ t.refusals = s.refusals ∧ SameLaunch s t ∧
      t.results = s.results ++ [{ agent := s.self, op := .evLoad, result := .ok }] := by
  obtain ⟨h₁, granted₁⟩ := Option.isSome_iff_exists.mp (registering 0 (by omega))
  obtain ⟨h₂, granted₂⟩ := Option.isSome_iff_exists.mp (registering 1 (by omega))
  obtain ⟨h₃, granted₃⟩ := Option.isSome_iff_exists.mp (registering 2 (by omega))
  obtain ⟨v, register, same, reg, loaded, calls⟩ :=
    runOn_register (undrawn ▸ granted₁) (undrawn ▸ granted₂) (undrawn ▸ granted₃) s.self l
  have whole := (runOn_append up).trans register
  rw [← evLoadSteps_eq] at whole
  obtain ⟨agents, ⟨faults, refusals, results⟩, launch⟩ := runOn_steady whole
  obtain ⟨-, -, -, params, -⟩ := runOn_steady up
  rw [params] at calls
  exact ⟨_, h₁, h₂, exec_straight ready (admission_evLoad unloaded) whole, same, loaded, granted₁, granted₂, reg, calls,
    agents, faults, refusals, launch, congrArg (· ++ [_]) results⟩

/-- Settles O38: the bring-up runs on whatever the level writes are answered, and the registration follows it. -/
theorem loadBringsTheBlockUp : Obligations.LoadBringsTheBlockUp := by
  intro s wf ready unloaded fresh free claimable registering
  obtain ⟨u, up, driven, acquired, done, owner, -, -, sess, undrawn, -, cs, u_calls, line_calls⟩ :=
    runOn_bringUp wf fresh free claimable
  obtain ⟨t, h₁, h₂, run, ⟨lines, -, t_acquired, t_done, t_sess, t_owner, -⟩, loaded, granted₁, granted₂, reg, calls,
    agents, faults, refusals, launch, results⟩ := exec_evLoad_registers ready unloaded registering up undrawn
  rw [u_calls] at calls
  refine ⟨t, cs, h₁, h₂, run, fun g => ?_, t_acquired.trans acquired, t_done.trans done, loaded, t_owner.trans owner,
    t_sess.trans sess, faults, refusals, agents, launch, granted₁, granted₂, reg, line_calls, calls, results⟩
  rw [State.line, lines]
  exact driven g

/-! ### The levels it leaves -/

/-- RS, RW and E are low and the data lines hold the low nibble of `c` (43_session_lifecycle.md R154). -/
def State.CommandMode (s : State) (c : Byte) : Prop :=
  s.Levels .low .low .low ∧ (s.line .db7).lvl = Level.ofBit ((lo c).getLsbD 3) ∧
    (s.line .db6).lvl = Level.ofBit ((lo c).getLsbD 2) ∧ (s.line .db5).lvl = Level.ofBit ((lo c).getLsbD 1) ∧
    (s.line .db4).lvl = Level.ofBit ((lo c).getLsbD 0)

theorem State.CommandMode.of_lines {s t : State} {c : Byte} (h : s.CommandMode c) (lines : t.lines = s.lines) :
    t.CommandMode c := by
  simpa only [State.CommandMode, State.Levels, State.line, lines] using h

/-- The state in which INIT_RUN has set `initDone` and sent its sequence (42_init_sequencer.md R130). -/
def State.initRunDone (s : State) : State := applyAll (initActs s.params) { s with initDone := true }

/-- INIT_RUN on lines that ACQUIRE has left low ends in command mode when every write is accepted
(42_init_sequencer.md R138). -/
theorem initRunDone_commandMode {s : State} (ready : s.Ready) (guarded : s.Guarded) (fresh : s.initDone = false)
    (held : s.linesAcquired = true) (driven : ∀ g, s.line g = Line.driven) (acc : s.Accepting 122) :
    s.initRunDone.CommandMode s.params.rom.char := by
  have all : s.AllDriven := fun g => by rw [driven]; rfl
  obtain ⟨t, run, levels, data⟩ := initRunEndsInCommandMode s ready guarded fresh held all acc
  rw [exec_initRun ready guarded fresh held (all .rs), Host.Outcome.next.injEq] at run
  rw [driven] at levels
  rw [State.initRunDone, run]
  exact ⟨levels, data⟩

/-- The state in which EV_LOAD has acquired the lines and taken the guard, before its INIT_RUN. -/
def State.linesHeld (s : State) : State :=
  ((driveAll (chosen s.params allSignals) (claimAll (chosen s.params allSignals) s)).markAcquired true).lockedBy s.self

theorem runOn_linesHeld {s : State} (wf : s.params.wf = true) (free : s.lockOwner = none)
    (claimable : s.Claimable allSignals) (l : Locals) :
    runOn s.self (acquireSteps s.params allSignals ++ (eventLines [.setAcquired true] ++ lockSteps)) l s =
      some (((l.steps (3 * (chosen s.params allSignals).length)).steps 1).steps 1, s.linesHeld) := by
  obtain ⟨⟨-, -, owner, -⟩, -⟩ := acquire_spec wf allSignals
  have mark := runOn_setAcquired true s.self (l.steps (3 * (chosen s.params allSignals).length))
    (driveAll (chosen s.params allSignals) (claimAll (chosen s.params allSignals) s))
  have lock := runOn_lockSteps (s := State.markAcquired true _) (owner.trans free) s.self
  exact (runOn_append (runOn_acquire wf claimable s.self l)).trans ((runOn_append mark).trans (lock _))

/-- The bring-up ends in command mode when every write is accepted: its INIT_RUN starts where ACQUIRE left the lines. -/
theorem bringUp_commandMode {s u : State} {l : Locals} (wf : s.params.wf = true) (ready : s.Ready)
    (fresh : s.initDone = false) (free : s.lockOwner = none) (claimable : s.Claimable allSignals)
    (acc : s.Accepting 122) (up : runOn s.self (bringUpSteps s.params) Locals.start s = some (l, u)) :
    u.CommandMode s.params.rom.char := by
  obtain ⟨⟨⟨agents, -, -, params, self, -⟩, ⟨-, -, -, done, -⟩, -, answers, -⟩, -, lines⟩ :=
    acquire_spec wf allSignals
  have params_held : s.linesHeld.params = s.params := params
  have self_held : s.linesHeld.self = s.self := self
  have ready_held : s.linesHeld.Ready := by
    rw [State.Ready, State.agentState, self_held]
    exact (congrArg (mapGet s.self) agents).trans ready
  have guarded_held : s.linesHeld.Guarded := congrArg some self.symm
  have fresh_held : s.linesHeld.initDone = false := done.trans fresh
  have driven : ∀ g, s.linesHeld.line g = Line.driven := fun g => (lines g).trans (if_pos (selects_allSignals g))
  have acc_held : s.linesHeld.Accepting 122 := fun k hk =>
    (congrArg (Stream.nth Config.freeAnswer · k) answers).trans (acc k hk)
  have mode := initRunDone_commandMode ready_held guarded_held fresh_held rfl driven acc_held
  have init := runOn_initRun (a := s.self) (s := s.linesHeld) ⟨rfl, rfl, by rw [driven]; rfl⟩ fresh_held
    s.linesHeld.params
  obtain ⟨⟨-, -, -, owner, -⟩, -⟩ :=
    applyAll_keeps (initActs_plain s.linesHeld.params) { s.linesHeld with initDone := true }
  have run := (runOn_append (runOn_linesHeld wf free claimable Locals.start)).trans
    ((runOn_append (init _)).trans (runOn_unlockSteps (s := s.linesHeld.initRunDone) owner _))
  rw [params_held] at mode run
  simp only [List.append_assoc] at run
  simp only [bringUpSteps, List.append_assoc, run, Option.some.injEq, Prod.mk.injEq] at up
  exact up.2 ▸ mode.of_lines (State.unlocked_lines _)

/-- Settles O39: registration touches no line, so the levels are those the bring-up left. -/
theorem loadLeavesCommandModeLevels : Obligations.LoadLeavesCommandModeLevels := by
  intro s wf ready unloaded fresh free claimable registering acc
  obtain ⟨u, up, driven, -, -, -, -, -, -, undrawn, -⟩ := runOn_bringUp wf fresh free claimable
  obtain ⟨t, -, -, run, ⟨lines, -⟩, -⟩ := exec_evLoad_registers ready unloaded registering up undrawn
  refine ⟨t, run, fun g => ?_, (bringUp_commandMode wf ready fresh free claimable acc up).of_lines lines⟩
  rw [State.line, lines]
  exact driven g

/-! ### A registration call that fails -/

/-- Settles O41: the registration faults at that call, and leaves what the bring-up left. -/
theorem failedRegistrationFaults : Obligations.FailedRegistrationFaults := by
  intro s k wf ready unloaded fresh free claimable call granted failed
  obtain ⟨u, up, driven, acquired, done, owner, reg, loaded, -, undrawn, ⟨-, ⟨faults, -, results⟩, -⟩, -⟩ :=
    runOn_bringUp wf fresh free claimable
  rw [← undrawn] at granted failed
  obtain ⟨t, fault, ⟨t_lines, -, t_acquired, t_done, -, t_owner, -⟩, ⟨-, ⟨t_faults, -, t_results⟩, -⟩, t_reg,
    t_loaded⟩ :=
    runWith_register_fails (J := runRest s.self) call granted failed s.self .evLoad (some .ok)
      (Locals.start.steps (190 + if s.params.tCmdGap = 0 then 0 else 8))
  have run := runTask_append (r := .evLoad) (x := some .ok)
    (ns := eventLines [.registerDevice, .createClass, .createNode, .setReg, .setLoaded]) up
  rw [← evLoadSteps_eq] at run
  replace run := run.trans fault
  refine ⟨_, exec_of_runTask ready (admission_evLoad unloaded) run, ⟨?_, ?_⟩, fun g => ?_, t_acquired.trans acquired,
    t_done.trans done, t_loaded.trans (loaded.trans unloaded), t_reg.trans reg, t_owner.trans owner,
    t_results.trans results⟩
  · rw [State.raise_faults, t_faults, faults]
    simp [Locals.start]
  · simp [Locals.start]
  · rw [State.line, State.raise_lines, t_lines]
    exact driven g

/-! ### A line that cannot be claimed -/

/-- The refused request of an ACQUIRE ends what was to follow it as it ends ACQUIRE alone (43_session_lifecycle.md
R151). -/
theorem runTask_acquire_refused_append {s : State} (wf : s.params.wf = true) {mask : BitVec 7}
    (refused : ¬ s.Claimable mask) (a : Nat) (r : Op) (x : Option Result) (after : List MicroStep) (l : Locals) :
    runTask a { req := r, result := x, loc := l, rest := acquireSteps s.params mask ++ after } s =
      runTask a { req := r, result := x, loc := l, rest := acquireSteps s.params mask } s := by
  have some_taken : ∃ g ∈ chosen s.params mask, s.lineTaken (s.pin g) = true := by
    simpa [State.claimable_iff wf] using refused
  obtain ⟨pre, g, post, parts, free, taken⟩ := split_at_first (fun g => s.lineTaken (s.pin g)) some_taken
  have run (ns : List MicroStep) := runWith_refused (J := runRest a) wf (parts ▸ chosen_nodup wf mask) free taken a 0
    r x [] (numbered .acquire (0 + (requestActs [] (chosen s.params mask)).length)
      ((chosen s.params mask).map Act.direct) ++ ns) l
  simp only [← parts, ← List.append_assoc, ← numbered_append] at run
  have alone := run []
  rw [List.append_nil] at alone
  exact (run after).trans alone.symm

theorem runTask_acquire_rollback_calls {s : State} (wf : s.params.wf = true) {mask : BitVec 7}
    (refused : ¬ s.Claimable mask) (a : Nat) (r : Op) (x : Option Result) (l : Locals) :
    CallsLines s (runTask a { req := r, result := x, loc := l, rest := acquireSteps s.params mask } s) := by
  obtain ⟨g, run⟩ := runTask_acquire_rollback wf refused a r x l
  have claims := claimAll_calls (s.claimedBefore mask) s
  have denies : CallsLines (claimAll (s.claimedBefore mask) s)
      (((claimAll (s.claimedBefore mask) s).tick 0).denied g) :=
    .of_call (c := .requestLine _ _ _) rfl rfl
  rw [run]
  exact (claims.trans denies).trans (dropAll_calls (s.claimedBefore mask).reverse _)

/-- Settles O40: the refused ACQUIRE is all of the EV_LOAD. -/
theorem failedLoadLeavesNothing : Obligations.FailedLoadLeavesNothing := by
  intro s wf ready unloaded consistent refused
  obtain ⟨after, steps⟩ : ∃ after, evLoadSteps s.params = acquireSteps s.params allSignals ++ after := by
    simp only [evLoadSteps, List.append_assoc]
    exact ⟨_, rfl⟩
  have alone := runTask_acquire_refused_append wf refused s.self .evLoad (some .ok) after Locals.start
  have edges := runTask_acquire_rollback_edges wf refused s.self .evLoad (some .ok) Locals.start
  have calls := runTask_acquire_rollback_calls wf refused s.self .evLoad (some .ok) Locals.start
  obtain ⟨t, run, lines, ⟨agents, ⟨faults, -, results⟩, -⟩, driver, owner, -, -⟩ :=
    runTask_acquire_refused wf consistent refused s.self .evLoad (some .ok) after Locals.start
  rw [← alone, ← steps] at edges calls
  rw [← steps] at run
  rw [run] at edges calls
  obtain ⟨cs, calls, line_calls⟩ := calls
  refine ⟨_, cs, exec_of_runTask ready (admission_evLoad unloaded) run, lines, driver, owner, ?_, faults, calls,
    line_calls, congrArg (· ++ [_]) results, edges⟩
  rw [State.finish_agents, agents]
  exact mapErase_of_none ready

end Sys2Proof.Machine

/-! What EV_LOAD, EV_UNLOAD and EV_CLOSE leave alone, whatever they come to: each is a relation that every action of its
expansion keeps (43_session_lifecycle.md R150, R155, R160). -/

namespace Sys2Proof.Machine

/-- A host event has been refused, which changes nothing of the block, or its expansion has been run. -/
theorem exec_event_cases {i : Instr} {s t : State} {kept : Bool} {op : Op} {x : Option Result} {rest : List MicroStep}
    (issued : admission i s = underDuty kept op x rest) (h : exec i s = .next t) :
    (∃ r, t = s.refuse r) ∨ t = runTask s.self { req := op, result := x, loc := Locals.start, rest := rest } s := by
  rw [exec_eq_runAdmitted, issued] at h
  obtain ⟨r, -, refused⟩ | ⟨k, task, -, run⟩ := runAdmitted_cases h
  · exact .inl ⟨r, refused⟩
  · cases Admission.task_run (underDuty_run task)
    exact .inr run

/-! ### The launch state -/

theorem SameLaunch.trans {s t u : State} (h : SameLaunch s t) (k : SameLaunch t u) : SameLaunch s u := by
  obtain ⟨foreign, params, self, requests, turns⟩ := h
  obtain ⟨foreign', params', self', requests', turns'⟩ := k
  exact ⟨foreign'.trans foreign, params'.trans params, self'.trans self, requests'.trans requests, turns'.trans turns⟩

theorem SameLaunch.refl (s : State) : SameLaunch s s := ⟨rfl, rfl, rfl, rfl, rfl⟩

/-- No request changes the launch state (10_state.md R40, 70_reset_and_hazards.md R199). -/
theorem sameLaunch_exec {i : Instr} {s t : State} (h : exec i s = .next t) : SameLaunch s t := by
  rw [exec_eq_runAdmitted] at h
  obtain ⟨r, -, rfl⟩ | ⟨k, -, -, rfl⟩ := runAdmitted_cases h
  · exact SameLaunch.refl s
  · exact runTask_keeps (R := SameLaunch) (ok := fun _ => True) SameLaunch.trans
      (fun m l u _ => (perform_steady s.self m l u).mono fun _ steady => steady.2.2) (fun _ _ _ => SameLaunch.refl)
      (fun _ => SameLaunch.refl) (fun _ => SameLaunch.refl) fun _ _ => trivial

/-! ### The sessions -/

/-- The action neither opens nor closes a session, nor leads to the end of EV_CLOSE. -/
def Act.keepsSess : Act → Bool
  | .ifLast _ => false
  | .sessOpen _ => false
  | .sessClose _ => false
  | _ => true

theorem Effect.sess_of_keepsSess {x : Act} {s t : State} (h : Effect s x t) (keeps : x.keepsSess = true) :
    t.sess = s.sess := by
  obtain same | ⟨n, ⟨rfl, -⟩ | ⟨rfl, -⟩⟩ := h.sess
  · exact same
  · cases keeps
  · cases keeps

theorem sess_runTask (a : Nat) {t : Task} (keep : AllActs Act.keepsSess t.rest) (s : State) :
    (runTask a t s).sess = s.sess :=
  runTask_keeps (R := fun s t => t.sess = s.sess) (ok := fun m => m.act.keepsSess = true) (fun h k => k.trans h)
    (fun _ l _ keeps => perform_keeps (fun _ h => h.sess_of_keepsSess keeps)
      (fun _ got _ => allActs_rollback (q := Act.keepsSess) (fun _ => rfl) got)
      (fun _ ifLast => by rw [ifLast] at keeps; cases keeps) a l)
    (fun _ _ _ _ => rfl) (fun _ _ => rfl) (fun _ _ => rfl) keep

theorem evLoadSteps_keepSess (p : Params) : AllActs Act.keepsSess (evLoadSteps p) := by
  have acquire : AllActs Act.keepsSess (acquireSteps p allSignals) :=
    allActs_acquireSteps (fun _ _ => rfl) (fun _ => rfl) (fun _ => rfl) p allSignals
  have init : AllActs Act.keepsSess (initRunSteps p) :=
    allActs_initRunSteps (fun _ => rfl) (fun _ _ => rfl) (fun _ => rfl) rfl p
  simp [evLoadSteps, acquire, init, Act.keepsSess]

/-! ### EV_UNLOAD -/

/-- What EV_UNLOAD may do to the line of `g`: free it, leave it, or write its level where it is owned and neither RS nor
RW (41_protocol_engine.md R117). -/
def LineUnloads (g : Sig) (l m : Line) : Prop :=
  m = Line.free ∨ m = l ∨ g ≠ .rs ∧ g ≠ .rw ∧ l.own = true ∧ SameButLevel l m

theorem LineUnloads.trans {g : Sig} {l m n : Line} (h : LineUnloads g l m) (k : LineUnloads g m n) :
    LineUnloads g l n := by
  obtain freed | rfl | ⟨rs, rw, own', level'⟩ := k
  · exact .inl freed
  · exact h
  · obtain rfl | rfl | ⟨-, -, own, level⟩ := h
    · cases own'
    · exact .inr (.inr ⟨rs, rw, own', level'⟩)
    · exact .inr (.inr ⟨rs, rw, own, level.trans level'⟩)

/-- The sessions and the registration draws are as they were, and each line as EV_UNLOAD may leave it. -/
def Unloads (s t : State) : Prop :=
  t.sess = s.sess ∧ t.registrations = s.registrations ∧ ∀ g, LineUnloads g (s.line g) (t.line g)

theorem Unloads.of_same {s t : State} (sess : t.sess = s.sess) (registrations : t.registrations = s.registrations)
    (lines : t.lines = s.lines) : Unloads s t :=
  ⟨sess, registrations, fun g => .inr (.inl (congrArg (PerSig.get · g) lines))⟩

theorem Unloads.refl (s : State) : Unloads s s := .of_same rfl rfl rfl

theorem Unloads.trans {s t u : State} (h : Unloads s t) (k : Unloads t u) : Unloads s u :=
  ⟨k.1.trans h.1, k.2.1.trans h.2.1, fun g => (h.2.2 g).trans (k.2.2 g)⟩

/-- The actions of EV_UNLOAD: checks, waits, the guard, level writes of lines other than RS and RW, the release of
lines, and the end of the load. -/
def Act.unloads : Act → Bool
  | .require _ => true
  | .wait _ => true
  | .lock => true
  | .unlock => true
  | .write g _ => g != .rs && g != .rw
  | .release _ => true
  | .unclaim _ => true
  | .setAcquired _ => true
  | .destroyNode => true
  | .destroyClass => true
  | .unregister => true
  | .clearLoad => true
  | _ => false

theorem lineUnloads_writeLevel {g : Sig} (rs : g ≠ .rs) (rw : g ≠ .rw) (v : Bool) (s : State) (h : Sig) :
    LineUnloads h (s.line h) ((s.writeLevel g v).line h) := by
  rw [State.line_writeLevel]
  split
  · next written =>
    obtain ⟨rfl, accepted⟩ := written
    have presents : (s.line h).presents = true := (Bool.and_eq_true_iff.mp accepted).2
    exact .inr (.inr ⟨rs, rw, (Bool.and_eq_true_iff.mp presents).1, rfl⟩)
  · exact .inr (.inl rfl)

theorem Effect.unloads {x : Act} {s t : State} (h : Effect s x t) (unloads : x.unloads = true) : Unloads s t := by
  cases h with
  | write g v =>
    obtain ⟨rs, rw⟩ : g ≠ .rs ∧ g ≠ .rw := by simpa [Act.unloads] using unloads
    exact ⟨State.writeLevel_sess g v _, State.writeLevel_registrations g v _,
      lineUnloads_writeLevel rs rw v (s.tick 0)⟩
  | unclaim g =>
    refine ⟨rfl, rfl, fun h => ?_⟩
    rw [State.line_unclaim]
    split
    · exact .inl rfl
    · exact .inr (.inl rfl)
  | registered call | unregistrable call => cases x <;> simp [Act.registers, Act.unloads] at call unloads
  | beginInit | denied | granted | claim | direct | giveBack | setReg | setLoaded | sessOpen | sessClose =>
    cases unloads
  | stays | release | wait | lock | unlock | setAcquired | unregister | clearLoad => exact .of_same rfl rfl rfl

theorem unloads_runTask (a : Nat) {t : Task} (all : AllActs Act.unloads t.rest) (s : State) :
    Unloads s (runTask a t s) :=
  runTask_keeps (R := Unloads) (ok := fun m => m.act.unloads = true) Unloads.trans
    (fun _ l _ unloads => perform_keeps (fun _ h => h.unloads unloads)
      (fun _ _ request => by rw [request] at unloads; cases unloads)
      (fun _ ifLast => by rw [ifLast] at unloads; cases unloads) a l)
    (fun _ _ _ => Unloads.refl) (fun _ => Unloads.refl) (fun _ => Unloads.refl) all

theorem evUnloadSteps_unload (p : Params) : AllActs Act.unloads (evUnloadSteps p) := by
  have release : AllActs Act.unloads (releaseSteps p allSignals) :=
    allActs_releaseSteps rfl (fun _ => rfl) (fun _ => rfl) p allSignals
  simp [evUnloadSteps, transmitSteps, transmitActs, nibbleWrites, pulseActs, release, Act.unloads]

/-! ### EV_CLOSE -/

/-- The registration, the load state and every session but `sid` are as they were, and each line is freed or as it
was. -/
def ClosesOnly (sid : Nat) (s t : State) : Prop :=
  t.reg = s.reg ∧ t.loaded = s.loaded ∧ t.initDone = s.initDone ∧ t.registrations = s.registrations ∧
    (∀ g, t.line g = Line.free ∨ t.line g = s.line g) ∧
    (setWf s.sess → setWf t.sess ∧ ∀ n, n ≠ sid → (n ∈ t.sess ↔ n ∈ s.sess))

theorem ClosesOnly.refl (sid : Nat) (s : State) : ClosesOnly sid s s :=
  ⟨rfl, rfl, rfl, rfl, fun _ => .inr rfl, fun wf => ⟨wf, fun _ _ => Iff.rfl⟩⟩

theorem ClosesOnly.trans {sid : Nat} {s t u : State} (h : ClosesOnly sid s t) (k : ClosesOnly sid t u) :
    ClosesOnly sid s u := by
  obtain ⟨reg, loaded, done, registrations, lines, sess⟩ := h
  obtain ⟨reg', loaded', done', registrations', lines', sess'⟩ := k
  refine ⟨reg'.trans reg, loaded'.trans loaded, done'.trans done, registrations'.trans registrations, fun g => ?_,
    fun wf => ?_⟩
  · obtain freed | same := lines' g
    · exact .inl freed
    · exact same ▸ lines g
  · obtain ⟨wf_t, others⟩ := sess wf
    obtain ⟨wf_u, others'⟩ := sess' wf_t
    exact ⟨wf_u, fun n ne => (others' n ne).trans (others n ne)⟩

/-- The actions of an EV_CLOSE of `sid`: checks, the guard, the release of lines, and the end of the session. -/
def Act.closes (sid : Nat) : Act → Bool
  | .require _ => true
  | .lock => true
  | .unlock => true
  | .release _ => true
  | .unclaim _ => true
  | .setAcquired _ => true
  | .ifLast n => n == sid
  | .sessClose n => n == sid
  | _ => false

theorem Effect.closesOnly {sid : Nat} {x : Act} {s t : State} (h : Effect s x t) (closes : x.closes sid = true) :
    ClosesOnly sid s t := by
  cases h with
  | unclaim g =>
    obtain ⟨reg, loaded, done, registrations, -, sess⟩ := ClosesOnly.refl sid s
    refine ⟨reg, loaded, done, registrations, fun h => ?_, sess⟩
    rw [State.line_unclaim]
    split
    · exact .inl rfl
    · exact .inr rfl
  | sessClose n =>
    obtain rfl : n = sid := beq_iff_eq.mp closes
    exact ⟨rfl, rfl, rfl, rfl, fun _ => .inr rfl,
      fun wf => ⟨setErase_wf n wf, fun k ne => (mem_setErase n k wf).trans (and_iff_left ne)⟩⟩
  | registered call | unregistrable call => cases x <;> simp [Act.registers, Act.closes] at call closes
  | unregister call => cases x <;> simp [Act.unregisters, Act.closes] at call closes
  | beginInit | denied | granted | claim | direct | giveBack | write | wait | setReg | setLoaded | clearLoad
  | sessOpen => cases closes
  | stays | release | lock | unlock | setAcquired => exact ClosesOnly.refl sid s

theorem closeTail_closes (sid : Nat) : AllActs (Act.closes sid) (closeTail sid) := by simp [Act.closes]

theorem closesOnly_runTask (a : Nat) {sid : Nat} {t : Task} (all : AllActs (Act.closes sid) t.rest) (s : State) :
    ClosesOnly sid s (runTask a t s) :=
  runTask_keeps (R := ClosesOnly sid) (ok := fun m => m.act.closes sid = true) ClosesOnly.trans
    (fun _ l _ closes => perform_keeps (fun _ h => h.closesOnly closes)
      (fun _ _ request => by rw [request] at closes; cases closes)
      (fun n ifLast => by
        rw [ifLast] at closes
        exact (beq_iff_eq.mp closes : n = sid) ▸ closeTail_closes n) a l)
    (fun _ _ _ => ClosesOnly.refl sid) (fun _ => ClosesOnly.refl sid) (fun _ => ClosesOnly.refl sid) all

/-- What holds of every action of the release and of the end of EV_CLOSE, of its LOCK and of its branch holds of every
action of its expansion. -/
theorem allActs_evCloseSteps {q : Act → Bool} {p : Params} {sid : Nat} (lock : q .lock = true)
    (ifLast : q (.ifLast sid) = true) (require : q (.require .guarded) = true) (release : ∀ g, q (.release g) = true)
    (unclaim : ∀ g, q (.unclaim g) = true) (setAcquired : q (.setAcquired false) = true)
    (unlock : q .unlock = true) (sessClose : q (.sessClose sid) = true) : AllActs q (evCloseSteps p sid) := by
  have released : AllActs q (releaseSteps p allSignals) := allActs_releaseSteps require release unclaim p allSignals
  unfold evCloseSteps
  cases p.closePolicy with
  | reference => simp [closeRelease, released, lock, setAcquired, unlock, sessClose]
  | refcount => simp [closeRelease, released, lock, ifLast, setAcquired, unlock, sessClose]
  | shutdownOnly => simp [sessClose]

theorem evCloseSteps_close (p : Params) (sid : Nat) : AllActs (Act.closes sid) (evCloseSteps p sid) :=
  allActs_evCloseSteps rfl (beq_iff_eq.mpr rfl : (sid == sid) = true) rfl (fun _ => rfl) (fun _ => rfl) rfl rfl
    (beq_iff_eq.mpr rfl : (sid == sid) = true)

theorem evCloseSteps_silent (p : Params) (sid : Nat) : AllActs Act.silent (evCloseSteps p sid) :=
  allActs_evCloseSteps rfl rfl rfl (fun _ => rfl) (fun _ => rfl) rfl rfl rfl

/-! ### The frame -/

/-- Settles O50: each event is refused, or all its actions are among those that keep its frame. -/
theorem hostEventFrame : Obligations.HostEventFrame := by
  intro s t sid i mem h
  refine ⟨sameLaunch_exec h, sameOthers_exec h, ?_⟩
  simp only [List.mem_cons, List.not_mem_nil, or_false] at mem
  obtain rfl | rfl | rfl := mem
  · refine ⟨fun _ => ?_, nofun, nofun⟩
    obtain ⟨r, rfl⟩ | rfl := exec_event_cases rfl h
    · rfl
    · exact sess_runTask s.self (evLoadSteps_keepSess s.params) s
  · have unloads : Unloads s t := by
      obtain ⟨r, rfl⟩ | rfl := exec_event_cases rfl h
      · exact Unloads.refl s
      · exact unloads_runTask s.self (evUnloadSteps_unload s.params) s
    obtain ⟨sess, registrations, lines⟩ := unloads
    refine ⟨fun _ => sess, fun _ => ⟨registrations, fun g => ?_⟩, nofun⟩
    obtain freed | same | ⟨rs, rw, -, level⟩ := lines g
    · exact .inl freed
    · exact .inr (.inl same)
    · exact .inr (.inr ⟨rs, rw, level⟩)
  · have closes : ClosesOnly sid.toNat s t ∧ t.answers = s.answers := by
      obtain ⟨r, rfl⟩ | rfl := exec_event_cases rfl h
      · exact ⟨ClosesOnly.refl _ s, rfl⟩
      · exact ⟨closesOnly_runTask s.self (evCloseSteps_close s.params _) s,
          answers_runTask s.self (evCloseSteps_silent s.params _) s⟩
    obtain ⟨⟨reg, loaded, done, registrations, lines, sess⟩, answers⟩ := closes
    exact ⟨fun other => absurd rfl other, nofun, fun _ =>
      ⟨reg, loaded, done, answers, registrations, lines, fun wf => (sess wf).2⟩⟩

end Sys2Proof.Machine

/-! An agent that has faulted is quiescent: neither its own turn nor one for its request moves it (60_exceptions.md
R180). -/

namespace Sys2Proof.Machine

theorem agentTurn_of_faulted {s : State} {a : Nat} {pc : Pc} (faulted : s.agentState a = some (.faulted pc)) :
    agentTurn a s = s := by
  rw [agentTurn, faulted]

theorem State.not_idle_of_faulted {s : State} {a : Nat} {pc : Pc} (faulted : s.agentState a = some (.faulted pc)) :
    s.idle a = false := by
  rw [State.idle, faulted]
  rfl

/-- A turn for a request whose agent is not idle passes (00_scope.md R17). -/
theorem step_of_busy_request {s : State} {r : Request} {rs : List Request} (pending : s.requests = r :: rs)
    (busy : s.idle r.agent = false) (turn : s.turn = .whole ∨ s.turn = .begin) : step s = .next s.afterTurn := by
  obtain whole | begins := turn
  · rw [step_of_whole whole, requestTurn_of_busy exec (s := s.afterTurn) pending busy]
  · rw [step_of_begin begins, requestTurn_of_busy begin (s := s.afterTurn) pending busy]

/-- Settles O11: its own turn finds no task to advance, and its request is not issued, for it is not idle. -/
theorem faultedAgentTakesNoStep : Obligations.FaultedAgentTakesNoStep := by
  intro s a pc faulted
  constructor
  · intro turn
    rw [step, turn, takeTurn, agentTurn_of_faulted (s := s.afterTurn) faulted]
  · intro r rs pending own turn
    exact step_of_busy_request pending (own ▸ State.not_idle_of_faulted faulted) turn

end Sys2Proof.Machine

/-! Reset: the fields of the state table (10_state.md R46), the shape of the launch parameters, and the invariants that
every step keeps (70_reset_and_hazards.md R195). -/

namespace Sys2Proof

/-- Six places listed through a permutation are the list itself, in some order. -/
theorem sixPlaces_perm {α : Type} (σ : Equiv.Perm (Fin 6)) (f : Fin 6 → α) :
    [f (σ 0), f (σ 1), f (σ 2), f (σ 3), f (σ 4), f (σ 5)].Perm [f 0, f 1, f 2, f 3, f 4, f 5] :=
  σ.ofFn_comp_perm f

/-- Whatever the two OPEN permutations are (00_scope.md R8). -/
theorem Config.params_wf : Config.params.wf = true := by
  refine (Params.wf_iff _).mpr ⟨rfl, ?lines, ?order, rfl⟩
  case lines => exact sixPlaces_perm Config.pinPerm Config.sixLine
  case order => exact sixPlaces_perm Config.acqPerm Config.sixSig

end Sys2Proof

namespace Sys2Proof.Machine

@[simp] theorem State.line_reset (g : Sig) : State.reset.line g = Line.free := PerSig.get_of _ g

theorem Line.free_consistent : Line.free.Consistent := ⟨fun _ => rfl, fun _ => rfl, nofun⟩

/-- Settles O53: the lines by `State.line_reset`, every other field as `State.reset` writes it. -/
theorem resetIsTheSpecs : Obligations.ResetIsTheSpecs :=
  ⟨State.line_reset, rfl, rfl, rfl, rfl, rfl, fun _ => rfl, fun _ => rfl, rfl, rfl, rfl, rfl⟩

theorem linesConsistent_reset : State.reset.LinesConsistent := fun g => State.line_reset g ▸ Line.free_consistent

/-- No event yet: the pins stand as before the first one. -/
theorem traceAccounts_reset : State.reset.TraceAccounts :=
  ⟨fun g => (PerSig.get_of _ g).trans (congrArg Line.own (State.line_reset g)).symm,
    fun g => (PerSig.get_of _ g).trans (congrArg Line.lvl (State.line_reset g)).symm⟩

theorem timesOrdered_reset : State.reset.TimesOrdered := ⟨List.Pairwise.nil, nofun⟩

/-- Every agent is idle. -/
theorem guardDiscipline_reset : State.reset.GuardDiscipline := ⟨List.Pairwise.nil, nofun⟩

/-- No session and no agent; the foreign lines, which are free, are put in canonical form. -/
theorem canonical_reset : State.reset.Canonical :=
  ⟨List.Pairwise.nil, setOf_wf Config.foreignAtLaunch, List.Pairwise.nil, nofun, nofun⟩

theorem noneOwned_reset : State.reset.NoneOwned := fun g => congrArg Line.own (State.line_reset g)

theorem groupHeld_reset : State.reset.GroupHeld := ⟨.inr noneOwned_reset, nofun⟩

/-- Settles O59, one invariant at a time. -/
theorem invariantsHoldAtReset : Obligations.InvariantsHoldAtReset :=
  ⟨linesConsistent_reset, traceAccounts_reset, timesOrdered_reset, guardDiscipline_reset, canonical_reset,
    groupHeld_reset, Config.params_wf⟩

end Sys2Proof.Machine
